-- ==== Sys2Proof/Word.lean ====
section
/-! DEFINITION. The words of the block: widths of `spec/00_scope.md` rules R6, R14 and `spec/10_state.md` rules R26 to R29. -/

namespace Sys2Proof

/-- A frame byte: eight bits (`10_state.md` R28). -/
abbrev Byte := BitVec 8

/-- A sixteen-bit word: a pulse index, a pulse count, a result in tenths, a timeout in milliseconds
(`10_state.md` R26, R29, R34). -/
abbrev Half := BitVec 16

/-- A timestamp or a duration: an unsigned count of microseconds in `TS_W` bits (`00_scope.md` R14).
`TS_W` is the 32 the spec takes (R6). DESIGN CHOICE, log entry 2. -/
abbrev Stamp := BitVec 32

/-- A level of the line: `true` is high (1), `false` is low (0) (`00_scope.md`, glossary). -/
abbrev Level := Bool

end Sys2Proof
end

