-- ==== Sys2Proof/Config.lean ====
section
/-! DEFINITION. The implementation parameters of `spec/00_scope.md` rules R6 and R7. -/

namespace Sys2Proof

/-- The parameters an implementation fixes (`00_scope.md` R6): the argument of the model
(`Machine.machineOf`). Because the host fixes the types of `step` and `State.reset`, the argument travels
with the state as `State.cfg`, which no operation writes, so a claim about every state holds for every
choice of the parameters. DESIGN CHOICE, log entry 1. -/
structure Config where
  /-- `MAX_PULSES`: the largest number of pulses one acquisition may produce (OPEN, R6). -/
  maxPulses : Nat
  /-- `POLL_N`: constant-level samples between two idle-timeout checks (OPEN, R6). -/
  pollN : Nat
  /-- `BIT_THRESHOLD_US`: a high pulse longer than this is a 1 (tunable, R7). -/
  bitThresholdUs : Nat
  /-- `HIGH_MAX_US`: a high pulse longer than this is implausible (tunable, R7). -/
  highMaxUs : Nat
deriving DecidableEq, Repr

/-- The defaults of `00_scope.md` R6. -/
def Config.default : Config :=
  ⟨16000, 20, 47, 97⟩

/-- The constraints of `00_scope.md` R6: `1 <= MAX_PULSES <= 65535` and `POLL_N >= 1`. -/
def Config.wf (c : Config) : Bool :=
  decide (1 ≤ c.maxPulses) && decide (c.maxPulses ≤ 65535) && decide (1 ≤ c.pollN)

/-- `FRAME_MIN`: least valid pulse count (`00_scope.md` R6, fixed). -/
def frameMin : Nat := 82

/-- `FRAME_MAX`: greatest valid pulse count (`00_scope.md` R6, fixed). -/
def frameMax : Nat := 85

/-- `PAYLOAD`: pulses decoded in a frame (`00_scope.md` R6, fixed). -/
def payloadPulses : Nat := 80

/-- `HUM_MAX_X10`: greatest legal humidity in tenths of a percent (`00_scope.md` R6, fixed). -/
def humMaxX10 : Nat := 1000

/-- `BACKOFF_MS`: the host's wait between two attempts (`00_scope.md` R6, host only). -/
def backoffMs : Nat := 1500

end Sys2Proof
end

