-- ==== Sys2Proof/Syntax.lean ====
section
/-! DEFINITION. The operations of the block (`spec/30_encoding.md` R86, `spec/opcode_table.json`), the formats of
their selector words (R65) and the operands that travel beside a selector. -/

namespace Sys2Proof

/-- The two sensor variants (`00_scope.md` R2, `30_encoding.md` R79). -/
inductive Variant where
  /-- Variant A, encoded 0. -/
  | a
  /-- Variant B, encoded 1. -/
  | b
deriving DecidableEq, Repr

/-- One operation of the block, one constructor per operation of `30_encoding.md` R86 (the four FD.TRIM rows of
the table are one operation, told apart by `n`). -/
inductive Instr where
  /-- RESET (`43_control_ops.md` R131). -/
  | reset
  /-- NOP (R132). -/
  | nop
  /-- START.GO with the operands `variant` and `timeout_ms` (R133). -/
  | startGo (variant : Variant) (timeoutMs : Half)
  /-- START.DROP, its operands not used (R134). -/
  | startDrop (variant : Variant) (timeoutMs : Half)
  /-- SAMPLE with the operands `s_level` and `s_ts` (R135). -/
  | sample (level : Level) (ts : Stamp)
  /-- IOERR.BUSY (R136). -/
  | ioerrBusy
  /-- IOERR.DROP (R137). -/
  | ioerrDrop
  /-- SMP.DROP (`40_pulse_reconstructor.md` R98). -/
  | smpDrop (level : Level) (ts : Stamp)
  /-- PR.FIRST (R91). -/
  | prFirst (level : Level) (ts : Stamp)
  /-- PR.EDGE (R92). -/
  | prEdge (level : Level) (ts : Stamp)
  /-- PR.OVERFLOW (R93). -/
  | prOverflow (level : Level) (ts : Stamp)
  /-- PR.HOLD (R95). -/
  | prHold (level : Level) (ts : Stamp)
  /-- PR.POLL (R96). -/
  | prPoll (level : Level) (ts : Stamp)
  /-- PR.TIMEOUT (R97). -/
  | prTimeout (level : Level) (ts : Stamp)
  /-- BD.BYTE with the operand `start` (`41_bit_byte_decoder.md` R105). -/
  | bdByte (start : Half)
  /-- BD.SHORT with the operand `start` (R106). -/
  | bdShort (start : Half)
  /-- BD.ERR_POL_LOW (R107). -/
  | bdErrPolLow
  /-- BD.ERR_POL_HIGH (R108). -/
  | bdErrPolHigh
  /-- BD.ERR_WIDTH (R109). -/
  | bdErrWidth
  /-- BD.BIT0 for pair `i` of a byte (R110, R112). -/
  | bdBit0 (i : BitVec 3)
  /-- BD.BIT1 for pair `i` of a byte (R111, R112). -/
  | bdBit1 (i : BitVec 3)
  /-- FD.TRIM of a capture of `n` pulses (`42_frame_decoder.md` R116). -/
  | fdTrim (n : Half)
  /-- FD.LENERR of a capture of `n` pulses (R117). -/
  | fdLenErr (n : Half)
  /-- FD.BYTES (R118). -/
  | fdBytes
  /-- FD.CSUM (R119). -/
  | fdCsum
  /-- FD.CONV_A (R120). -/
  | fdConvA
  /-- FD.CONV_B (R121). -/
  | fdConvB
  /-- FD.RANGE (R122). -/
  | fdRange
  /-- FD.COMMIT (R124). -/
  | fdCommit
deriving DecidableEq, Repr

/-- The formats of selector words (`30_encoding.md` R65; CMDB is R67's 5-bit form of CMD). -/
inductive Format where
  | cmd
  | cmdb
  | smp
  | byte
  | pair
  | len
  | step
deriving DecidableEq, Repr

/-- The operands that travel beside a selector word (`opcode_table.json`, "operands"): the ports `variant`,
`timeout_ms`, `s_level`, `s_ts` (`10_state.md` R34), the index `start` of a byte decode (`41_bit_byte_decoder.md`
R105) and the pair number `i` of R112. An operation looks only at its own. DESIGN CHOICE, log entry 11. -/
structure Operands where
  variant : Variant
  timeoutMs : Half
  level : Level
  ts : Stamp
  start : Half
  bit : BitVec 3
deriving DecidableEq, Repr

/-- All operands zero. -/
def Operands.zero : Operands := ⟨.a, 0, false, 0, 0, 0⟩

/-- A selector word of one format with its operands: the block's form of an instruction word
(`30_encoding.md`, introduction, (c)). -/
structure OpWord where
  fmt : Format
  sel : Half
  ops : Operands
deriving DecidableEq, Repr

/-- Why no operation is read from a selector word. -/
inductive DecodeError where
  /-- A bit is set above the format's width (`30_encoding.md` R65). -/
  | outsideFormat
  /-- A CMD word 001x or 01xx: START and IOERR are told apart by `busy`, in a CMDB word (R67). -/
  | splitByBusy
  /-- A CMDB word that is none of START's and IOERR's four patterns: R67 reads it in CMD. -/
  | notStartOrIoerr
  /-- A STEP word 001x: step 1 is selected by the LEN word (R70, R71). -/
  | splitByLength
  /-- A STEP word with step 0 or 7, reserved and never produced (R71, R82). -/
  | reservedStep
deriving DecidableEq, Repr

end Sys2Proof
end

