-- ==== Sys2Proof/WellFormed.lean ====
section
/-! DEFINITION. Which operations are well formed: the one field an operation's encoding restricts is the pulse count
of FD.TRIM and FD.LENERR (`spec/30_encoding.md` R70). -/

namespace Sys2Proof

/-- `n` is one of 82, 83, 84, 85: the pulse counts of the four FD.TRIM rows (`30_encoding.md` R70). -/
def legalLength (n : Half) : Bool :=
  decide (frameMin ≤ n.toNat) && decide (n.toNat ≤ frameMax)

/-- FD.TRIM carries a legal length and FD.LENERR an illegal one; every other field may hold any value of its type. -/
def Instr.wf : Instr → Bool
  | .fdTrim n => legalLength n
  | .fdLenErr n => !legalLength n
  | .reset => true
  | .nop => true
  | .startGo _ _ => true
  | .startDrop _ _ => true
  | .sample _ _ => true
  | .ioerrBusy => true
  | .ioerrDrop => true
  | .smpDrop _ _ => true
  | .prFirst _ _ => true
  | .prEdge _ _ => true
  | .prOverflow _ _ => true
  | .prHold _ _ => true
  | .prPoll _ _ => true
  | .prTimeout _ _ => true
  | .bdByte _ => true
  | .bdShort _ => true
  | .bdErrPolLow => true
  | .bdErrPolHigh => true
  | .bdErrWidth => true
  | .bdBit0 _ => true
  | .bdBit1 _ => true
  | .fdBytes => true
  | .fdCsum => true
  | .fdConvA => true
  | .fdConvB => true
  | .fdRange => true
  | .fdCommit => true

end Sys2Proof
end

