-- ==== Sys2Proof/Decode.lean ====
section
/-! DEFINITION. The selector tables of `spec/30_encoding.md` R67 to R72 as rows (match, mask), the decoder over them,
the encoder written from the same tables, and the reading of a table word for the host. -/

namespace Sys2Proof

/-- The width of a format in bits (`30_encoding.md` R65, R67). -/
def Format.width : Format → Nat
  | .cmd => 4
  | .cmdb => 5
  | .smp => 6
  | .byte => 1
  | .pair => 4
  | .len => 16
  | .step => 4

/-- One row of `opcode_table.json`: its format, its match, its mask, and the operation it reads from a selector word
and the operands beside it. -/
structure Row where
  fmt : Format
  pat : Half
  mask : Half
  build : Half → Operands → Instr

/-- The word fits the row: the masked bits equal the match. -/
def Row.hits (r : Row) (w : Half) : Bool := w &&& r.mask == r.pat

/-- The control family (`30_encoding.md` R67). -/
def controlRows : List Row :=
  [ ⟨.cmd, 0x8, 0x8, fun _ _ => .reset⟩,
    ⟨.cmd, 0x0, 0xF, fun _ _ => .nop⟩,
    ⟨.cmdb, 0x04, 0x1D, fun _ o => .startGo o.variant o.timeoutMs⟩,
    ⟨.cmdb, 0x05, 0x1D, fun _ o => .startDrop o.variant o.timeoutMs⟩,
    ⟨.cmd, 0x1, 0xF, fun _ o => .sample o.level o.ts⟩,
    ⟨.cmdb, 0x09, 0x19, fun _ _ => .ioerrBusy⟩,
    ⟨.cmdb, 0x08, 0x19, fun _ _ => .ioerrDrop⟩ ]

/-- The pulse reconstructor (`30_encoding.md` R68). -/
def reconstructorRows : List Row :=
  [ ⟨.smp, 0x00, 0x20, fun _ o => .smpDrop o.level o.ts⟩,
    ⟨.smp, 0x20, 0x30, fun _ o => .prFirst o.level o.ts⟩,
    ⟨.smp, 0x38, 0x3C, fun _ o => .prEdge o.level o.ts⟩,
    ⟨.smp, 0x3C, 0x3C, fun _ o => .prOverflow o.level o.ts⟩,
    ⟨.smp, 0x30, 0x3A, fun _ o => .prHold o.level o.ts⟩,
    ⟨.smp, 0x32, 0x3B, fun _ o => .prPoll o.level o.ts⟩,
    ⟨.smp, 0x33, 0x3B, fun _ o => .prTimeout o.level o.ts⟩ ]

/-- The bit/byte decoder (`30_encoding.md` R72, R69). -/
def bitByteRows : List Row :=
  [ ⟨.byte, 0x0, 0x1, fun _ o => .bdByte o.start⟩,
    ⟨.byte, 0x1, 0x1, fun _ o => .bdShort o.start⟩,
    ⟨.pair, 0x8, 0x8, fun _ _ => .bdErrPolLow⟩,
    ⟨.pair, 0x0, 0xC, fun _ _ => .bdErrPolHigh⟩,
    ⟨.pair, 0x6, 0xE, fun _ _ => .bdErrWidth⟩,
    ⟨.pair, 0x4, 0xF, fun _ o => .bdBit0 o.bit⟩,
    ⟨.pair, 0x5, 0xF, fun _ o => .bdBit1 o.bit⟩ ]

/-- The frame decoder (`30_encoding.md` R70, R71). The LEN rows are matched from the first down; the first that
matches wins (R70). -/
def frameRows : List Row :=
  [ ⟨.len, 0x0052, 0xFFFF, fun n _ => .fdTrim n⟩,
    ⟨.len, 0x0053, 0xFFFF, fun n _ => .fdTrim n⟩,
    ⟨.len, 0x0054, 0xFFFF, fun n _ => .fdTrim n⟩,
    ⟨.len, 0x0055, 0xFFFF, fun n _ => .fdTrim n⟩,
    ⟨.len, 0x0000, 0x0000, fun n _ => .fdLenErr n⟩,
    ⟨.step, 0x4, 0xE, fun _ _ => .fdBytes⟩,
    ⟨.step, 0x6, 0xE, fun _ _ => .fdCsum⟩,
    ⟨.step, 0x8, 0xF, fun _ _ => .fdConvA⟩,
    ⟨.step, 0x9, 0xF, fun _ _ => .fdConvB⟩,
    ⟨.step, 0xA, 0xE, fun _ _ => .fdRange⟩,
    ⟨.step, 0xC, 0xE, fun _ _ => .fdCommit⟩ ]

/-- The whole table, in the order of `opcode_table.json`. -/
def opcodeTable : List Row := controlRows ++ reconstructorRows ++ bitByteRows ++ frameRows

/-- Why a word of the format that no row answers is not an operation: a CMD word of START or IOERR wants `busy`
(R67), a CMDB word without them belongs to CMD (R67), step 1 wants the LEN word and steps 0 and 7 do not occur
(R71). BYTE, SMP, PAIR and LEN have a row for every word of their width (R68 to R72), so their arms are not reached. -/
def unanswered (fmt : Format) (sel : Half) : DecodeError :=
  match fmt with
  | .cmd => .splitByBusy
  | .cmdb => .notStartOrIoerr
  | .step => if sel &&& 0xE == 0x2 then .splitByLength else .reservedStep
  | .smp => .outsideFormat
  | .byte => .outsideFormat
  | .pair => .outsideFormat
  | .len => .outsideFormat

/-- The operation a selector word stands for: the first row of its format that it fits (`30_encoding.md` R67 to
R72). Total: a word that stands for none is rejected by name. -/
def decode (w : OpWord) : Except DecodeError Instr :=
  if w.sel.toNat < 2 ^ w.fmt.width then
    match opcodeTable.find? (fun r => r.fmt == w.fmt && r.hits w.sel) with
    | some r => .ok (r.build w.sel w.ops)
    | none => .error (unanswered w.fmt w.sel)
  else .error .outsideFormat

/-- The operands of a START. -/
def Operands.ofStart (v : Variant) (t : Half) : Operands :=
  { Operands.zero with variant := v, timeoutMs := t }

/-- The operands of a SAMPLE, and of the operation a SAMPLE performs. -/
def Operands.ofSample (l : Level) (ts : Stamp) : Operands :=
  { Operands.zero with level := l, ts := ts }

/-- The operand of a byte decode. -/
def Operands.ofIndex (start : Half) : Operands := { Operands.zero with start := start }

/-- The pair number of a bit. -/
def Operands.ofBit (i : BitVec 3) : Operands := { Operands.zero with bit := i }

/-- The selector word of an operation, from the patterns of `30_encoding.md` R67 to R72 with every bit a pattern
leaves free (`x`) written 0, and the operands the operation does not have written 0. -/
def encode : Instr → OpWord
  | .reset => ⟨.cmd, 0b1000, .zero⟩
  | .nop => ⟨.cmd, 0b0000, .zero⟩
  | .sample l ts => ⟨.cmd, 0b0001, .ofSample l ts⟩
  | .startGo v t => ⟨.cmdb, 0b00100, .ofStart v t⟩
  | .startDrop v t => ⟨.cmdb, 0b00101, .ofStart v t⟩
  | .ioerrBusy => ⟨.cmdb, 0b01001, .zero⟩
  | .ioerrDrop => ⟨.cmdb, 0b01000, .zero⟩
  | .smpDrop l ts => ⟨.smp, 0b000000, .ofSample l ts⟩
  | .prFirst l ts => ⟨.smp, 0b100000, .ofSample l ts⟩
  | .prEdge l ts => ⟨.smp, 0b111000, .ofSample l ts⟩
  | .prOverflow l ts => ⟨.smp, 0b111100, .ofSample l ts⟩
  | .prHold l ts => ⟨.smp, 0b110000, .ofSample l ts⟩
  | .prPoll l ts => ⟨.smp, 0b110010, .ofSample l ts⟩
  | .prTimeout l ts => ⟨.smp, 0b110011, .ofSample l ts⟩
  | .bdByte start => ⟨.byte, 0b0, .ofIndex start⟩
  | .bdShort start => ⟨.byte, 0b1, .ofIndex start⟩
  | .bdErrPolLow => ⟨.pair, 0b1000, .zero⟩
  | .bdErrPolHigh => ⟨.pair, 0b0000, .zero⟩
  | .bdErrWidth => ⟨.pair, 0b0110, .zero⟩
  | .bdBit0 i => ⟨.pair, 0b0100, .ofBit i⟩
  | .bdBit1 i => ⟨.pair, 0b0101, .ofBit i⟩
  | .fdTrim n => ⟨.len, n, .zero⟩
  | .fdLenErr n => ⟨.len, n, .zero⟩
  | .fdBytes => ⟨.step, 0b0100, .zero⟩
  | .fdCsum => ⟨.step, 0b0110, .zero⟩
  | .fdConvA => ⟨.step, 0b1000, .zero⟩
  | .fdConvB => ⟨.step, 0b1001, .zero⟩
  | .fdRange => ⟨.step, 0b1010, .zero⟩
  | .fdCommit => ⟨.step, 0b1100, .zero⟩

/-- The format has `nbits` bits, or `nbits` is the number of bits of the whole bytes that hold it. -/
def Format.fitsBits (f : Format) (nbits : Nat) : Bool :=
  f.width == nbits || (f.width + 7) / 8 * 8 == nbits

/-- The row that a bare table word of `nbits` bits is read by. A bare word does not say its format, and the words of
the six narrow formats overlap; the first row whose match IS the word is taken, and failing that the first row the
word fits. DESIGN CHOICE, log entry 12: a convention for reading the table, no behaviour of the block. -/
def tableRow (nbits w : Nat) : Option Row :=
  let rows := opcodeTable.filter (fun r => r.fmt.fitsBits nbits && decide (w < 2 ^ r.fmt.width))
  match rows.find? (fun r => r.pat.toNat == w) with
  | some r => some r
  | none => rows.find? (fun r => r.hits (BitVec.ofNat 16 w))

/-- The bare table word as a selector word with all operands zero (log entries 11, 12). A word no row answers is kept
as a CMD word, which the decoder then rejects by name. -/
def tableWord (nbits w : Nat) : OpWord :=
  match tableRow nbits w with
  | some r => ⟨r.fmt, BitVec.ofNat 16 w, .zero⟩
  | none => ⟨.cmd, 0xFFFF, .zero⟩

/-- The operation the decoder reads from a bare table word of `nbits` bits. -/
def decodeTableWord (nbits w : Nat) : Option Instr := (decode (tableWord nbits w)).toOption

end Sys2Proof
end

