-- ==== Sys2Proof/Machine/State.lean ====
section
/-! DEFINITION. The state of the block (`spec/10_state.md` R20 to R29), the ports of a clock edge (R34), the values
inside a frame decode, the reset state (R37), and the reasons a step can stop. Plain data throughout. -/

namespace Sys2Proof.Machine

/-- The sequencing state (`10_state.md` R22). Its 2-bit encoding is `Phase.bits`. -/
inductive Phase where
  | idle
  | done
  | armed
  | capture
deriving DecidableEq, Repr

/-- The six error kinds (`60_exceptions.md` R146). Their codes are `ErrKind.code`. -/
inductive ErrKind where
  | ioError
  | protocolError
  | frameLengthError
  | checksumError
  | rangeError
  | capacityError
deriving DecidableEq, Repr

/-- One pulse entry `{level, dur}` (`20_memory.md` R47). -/
structure Pulse where
  level : Level
  dur : Stamp
deriving DecidableEq, Repr

/-- The pulse memory (`10_state.md` R27, `20_memory.md` R45): pairs of a pulse index and the entry there. The smallest
addressable unit is one whole entry. Kept in one canonical form, indices strictly rising (`Memory.wf`); an index that
is not listed holds no value (R48; log entry 9). -/
abbrev Memory := List (Nat × Pulse)

/-- The five frame-byte registers `fb[0..4]` (`10_state.md` R28). -/
structure FrameBytes where
  b0 : Byte
  b1 : Byte
  b2 : Byte
  b3 : Byte
  b4 : Byte
deriving DecidableEq, Repr

/-- All five frame bytes 0. -/
def FrameBytes.zero : FrameBytes := ⟨0, 0, 0, 0, 0⟩

/-- The values inside a frame decode, which are no registers of the block: `base` (`42_frame_decoder.md` R116) and the
`byte` being assembled or returned (`41_bit_byte_decoder.md` R105). The model's own field: they are 0 between two
commands. DESIGN CHOICE, log entry 5. -/
structure DecodeLocals where
  base : Half
  byte : Byte
deriving DecidableEq, Repr

/-- No decode under way. -/
def DecodeLocals.zero : DecodeLocals := ⟨0, 0⟩

/-- The input ports at one rising edge of `clk` (`10_state.md` R34). -/
structure Ports where
  rst : Bool
  ioErr : Bool
  start : Bool
  variant : Variant
  timeoutMs : Half
  sValid : Bool
  sLevel : Level
  sTs : Stamp
  dbgAddr : Half
deriving DecidableEq, Repr

/-- A clock edge with no strobe up. -/
def Ports.quiet : Ports := ⟨false, false, false, .a, 0, false, false, 0, 0⟩

/-- What the machine meets next. -/
inductive Input where
  /-- A rising edge of `clk` with these port values: the only thing a host can present (`43_control_ops.md` R130). -/
  | clock (p : Ports)
  /-- One operation run alone, by its selector word, as the byte decode and the frame decode are run as units of their
  own (`41_bit_byte_decoder.md` R106, `42_frame_decoder.md` R126). No port of the block presents one. DESIGN CHOICE,
  log entry 4. -/
  | alone (w : OpWord)
deriving DecidableEq, Repr

/-- The state of the machine: the registers of `10_state.md` R20, and the model's own `cfg`, `locals` and `inputs`. -/
structure State where
  /-- The implementation parameters, an argument of the model and no state of the block (`00_scope.md` R6): fixed by
  `State.resetOf`, written by no operation. Model's own field, log entry 1. -/
  cfg : Config
  /-- `phase` (R22). -/
  phase : Phase
  /-- `err_code` (R23): the kind of the error that ended the last acquisition, or none (code 0). -/
  errCode : Option ErrKind
  /-- `variant_q` (R21). -/
  variantQ : Variant
  /-- `timeout_us_q` (R21). -/
  timeoutUsQ : Stamp
  /-- `cur_level` (R24). -/
  curLevel : Level
  /-- `pulse_start` (R24). -/
  pulseStart : Stamp
  /-- `poll_cnt` (R25): a count, log entry 18. -/
  pollCnt : Nat
  /-- `pcount` (R26). -/
  pcount : Half
  /-- `PulseMem` (R27). -/
  pulseMem : Memory
  /-- `fb[0..4]` (R28). -/
  fb : FrameBytes
  /-- `hum_x10` (R29). -/
  humX10 : Half
  /-- `temp_x10` (R29), two's complement. -/
  tempX10 : Half
  /-- The values inside a frame decode. Model's own field, log entry 5. -/
  locals : DecodeLocals
  /-- The clock edges still to come, first first. Model's own field, log entry 3. -/
  inputs : List Input
deriving DecidableEq, Repr

/-- The state after RESET (`10_state.md` R37), with no clock edge presented yet and the default parameters. The
values of `cfg`, `locals` and `inputs` are the model's (log entries 1, 3, 5). -/
def State.reset : State where
  cfg := .default
  phase := .idle
  errCode := none
  variantQ := .a
  timeoutUsQ := 0
  curLevel := false
  pulseStart := 0
  pollCnt := 0
  pcount := 0
  pulseMem := []
  fb := .zero
  humX10 := 0
  tempX10 := 0
  locals := .zero
  inputs := []

/-- The state after RESET of the build with the parameters `c` (`00_scope.md` R6, `10_state.md` R37). `State.reset` is
that of the default build. -/
def State.resetOf (c : Config) : State := { State.reset with cfg := c }

/-- Why the machine stops. No state that the block can reach raises one (`10_state.md` R38). -/
inductive Fault where
  /-- A pulse write at an index at or above `MAX_PULSES`: the entry does not exist (`20_memory.md` R45). Raised by
  PR.EDGE and PR.TIMEOUT. Safe: the model stops where the spec gives no effect (log entry 7). -/
  | pulseWriteOutside (index : Nat)
  /-- A read of an entry that holds no value (`20_memory.md` R48: "a model must make such a read a fault"). Raised by
  BD.BYTE, and by FD.BYTES and PR.TIMEOUT through it. Safe: the model stops where the hardware returns any bits
  (log entry 8). -/
  | pulseReadNoValue (index : Nat)
deriving DecidableEq, Repr

/-- Why the machine has no meaning for what it meets. -/
inductive Refusal where
  /-- An operation without a meaning yet; raised by an arm of `exec` only. Safe: nothing is claimed of it. -/
  | notModelled (mnemonic : String)
  /-- A selector word that no row of its format answers; raised by `step`, and only for an operation run alone. Safe:
  no port of the block presents such a word (log entry 14). -/
  | undecodable (why : DecodeError)
deriving DecidableEq, Repr

end Sys2Proof.Machine
end

