-- ==== Sys2Proof/Machine/Flags.lean ====
section
/-! DEFINITION. Encodings and views of the state that the host reads: `phase` and `err_code` as bits, the three flags,
STATUS, and the output ports (`spec/10_state.md` R22, R23, R30, R31, R35; `spec/60_exceptions.md` R146). -/

namespace Sys2Proof.Machine

/-- The encoding of `phase` (`10_state.md` R22). -/
def Phase.bits : Phase → BitVec 2
  | .idle => 0b00
  | .done => 0b01
  | .armed => 0b10
  | .capture => 0b11

/-- The code of an error kind (`60_exceptions.md` R146). -/
def ErrKind.code : ErrKind → BitVec 3
  | .ioError => 1
  | .protocolError => 2
  | .frameLengthError => 3
  | .checksumError => 4
  | .rangeError => 5
  | .capacityError => 6

/-- The three bits of `err_code`: 0 for none (`60_exceptions.md` R146). -/
def errBits : Option ErrKind → BitVec 3
  | none => 0
  | some k => k.code

/-- The bit of a variant (`30_encoding.md` R79). -/
def variantBit : Variant → Bool
  | .a => false
  | .b => true

/-- The variant of a bit (`30_encoding.md` R79). -/
def variantOfBit : Bool → Variant
  | false => .a
  | true => .b

/-- `busy`: an acquisition is in flight (`10_state.md` R30: `phase[1]`). -/
def State.busy (s : State) : Bool := s.phase.bits.getLsbD 1

/-- `done`: an acquisition has ended and its outcome is readable (`10_state.md` R30). -/
def State.isDone (s : State) : Bool := s.phase == .done

/-- `valid`: the outcome is a Reading (`10_state.md` R30). -/
def State.valid (s : State) : Bool := s.phase == .done && s.errCode == none

/-- `STATUS[7:0]` = `{phase, err_code, valid, done, busy}` (`10_state.md` R31). -/
def State.statusWord (s : State) : BitVec 8 :=
  s.phase.bits ++ errBits s.errCode ++ BitVec.ofBool s.valid ++ BitVec.ofBool s.isDone ++ BitVec.ofBool s.busy

/-- The output ports that depend on the state alone (`10_state.md` R35). -/
structure Outputs where
  busy : Bool
  done : Bool
  valid : Bool
  errCode : BitVec 3
  humX10 : Half
  tempX10 : Half
  pcount : Half
  fb : FrameBytes
deriving DecidableEq, Repr

/-- The values of the output ports (`10_state.md` R35). -/
def State.outputs (s : State) : Outputs where
  busy := s.busy
  done := s.isDone
  valid := s.valid
  errCode := errBits s.errCode
  humX10 := s.humX10
  tempX10 := s.tempX10
  pcount := s.pcount
  fb := s.fb

end Sys2Proof.Machine
end

