-- ==== Sys2Proof/Machine/Operands.lean ====
section
/-! DEFINITION. The values the operations compute from their operands and the state: the derived values of
`spec/40_pulse_reconstructor.md` R94, the selector words of `spec/30_encoding.md` R67 to R72, and the arithmetic of
`spec/00_scope.md` R15. -/

namespace Sys2Proof.Machine

/-! ## A sample against the open pulse (`40_pulse_reconstructor.md` R94) -/

/-- `neq`: the sample's level is not the open pulse's. -/
def neq (s : State) (level : Level) : Bool := level != s.curLevel

/-- `elapsed = (s_ts - pulse_start) mod 2^TS_W`. -/
def elapsed (s : State) (ts : Stamp) : Stamp := ts - s.pulseStart

/-- `full`: `pcount + 1 >= MAX_PULSES`, a 17-bit compare (`00_scope.md` R15). -/
def full (s : State) : Bool := decide (s.cfg.maxPulses ≤ s.pcount.toNat + 1)

/-- `poll_hit`: `poll_cnt + 1 == POLL_N`. -/
def pollHit (s : State) : Bool := s.pollCnt + 1 == s.cfg.pollN

/-- `expired`: `elapsed > timeout_us_q`, unsigned and strict. -/
def expired (s : State) (ts : Stamp) : Bool := decide (s.timeoutUsQ.toNat < (elapsed s ts).toNat)

/-- `timeout_us = timeout_ms * 1000` in `TS_W` bits (`00_scope.md` R15, `43_control_ops.md` R133). -/
def timeoutUs (timeoutMs : Half) : Stamp := timeoutMs.setWidth 32 * 1000

/-! ## Selector words (`30_encoding.md` R67 to R72) -/

/-- Bits, the most significant first, as a selector word. -/
def wordOfBits (bits : List Bool) : Half :=
  BitVec.ofNat 16 (bits.foldl (fun w b => 2 * w + b.toNat) 0)

/-- The operands on the ports (`10_state.md` R34). -/
def Ports.operands (p : Ports) : Operands :=
  { Operands.zero with variant := p.variant, timeoutMs := p.timeoutMs, level := p.sLevel, ts := p.sTs }

/-- CMD `{rst, io_err, start, s_valid}` (R67). -/
def cmdWord (p : Ports) : OpWord :=
  ⟨.cmd, wordOfBits [p.rst, p.ioErr, p.start, p.sValid], p.operands⟩

/-- CMDB `{rst, io_err, start, s_valid, busy}` (R67). -/
def cmdbWord (p : Ports) (busy : Bool) : OpWord :=
  ⟨.cmdb, wordOfBits [p.rst, p.ioErr, p.start, p.sValid, busy], p.operands⟩

/-- SMP `{phase[1], phase[0], neq, full, poll_hit, expired}` (R68). -/
def smpWord (s : State) (level : Level) (ts : Stamp) : OpWord :=
  ⟨.smp, wordOfBits [s.phase.bits.getLsbD 1, s.phase.bits.getLsbD 0, neq s level, full s, pollHit s, expired s ts],
    .ofSample level ts⟩

/-- `short`: fewer than 16 pulses remain from `start`, a 17-bit test (`30_encoding.md` R72,
`41_bit_byte_decoder.md` R106). -/
def shortFrom (s : State) (start : Half) : Bool := decide (s.pcount.toNat < start.toNat + 16)

/-- BYTE `{short}` (R72). -/
def byteWord (s : State) (start : Half) : OpWord :=
  ⟨.byte, wordOfBits [shortFrom s start], .ofIndex start⟩

/-- `gt_max`: the high pulse is longer than `HIGH_MAX_US` (R69). -/
def gtMax (c : Config) (dur : Stamp) : Bool := decide (c.highMaxUs < dur.toNat)

/-- `gt_thr`: the high pulse is longer than `BIT_THRESHOLD_US` (R69). -/
def gtThr (c : Config) (dur : Stamp) : Bool := decide (c.bitThresholdUs < dur.toNat)

/-- PAIR `{lo_level, hi_level, gt_max, gt_thr}` for pair `i` of a byte (R69). -/
def pairWord (c : Config) (lo hi : Pulse) (i : BitVec 3) : OpWord :=
  ⟨.pair, wordOfBits [lo.level, hi.level, gtMax c hi.dur, gtThr c hi.dur], .ofBit i⟩

/-- LEN: the pulse count (R70). -/
def lenWord (n : Half) : OpWord := ⟨.len, n, .zero⟩

/-- STEP `{step[2:0], variant_q}` (R71). -/
def stepWord (step : BitVec 3) (v : Variant) : OpWord :=
  ⟨.step, wordOfBits [step.getLsbD 2, step.getLsbD 1, step.getLsbD 0, variantBit v], .zero⟩

/-! ## Layouts (`30_encoding.md` R65) -/

/-- SAMPLE word `{s_level, s_ts}` (R66). -/
def sampleWord (level : Level) (ts : Stamp) : BitVec 33 := BitVec.ofBool level ++ ts

/-- PULSE entry `{level, dur}` (`20_memory.md` R47). -/
def Pulse.entry (p : Pulse) : BitVec 33 := BitVec.ofBool p.level ++ p.dur

/-- FRAME `{fb[0], fb[1], fb[2], fb[3], fb[4]}` (R76). -/
def FrameBytes.frameWord (f : FrameBytes) : BitVec 40 := f.b0 ++ f.b1 ++ f.b2 ++ f.b3 ++ f.b4

/-- `fb[k]`; the block has no other `k` than 0 to 4 (`10_state.md` R28). -/
def FrameBytes.get (f : FrameBytes) (k : Fin 5) : Byte :=
  match k with
  | 0 => f.b0
  | 1 => f.b1
  | 2 => f.b2
  | 3 => f.b3
  | 4 => f.b4

/-- `fb[k] <- v` (`10_state.md` R28). -/
def FrameBytes.set (f : FrameBytes) (k : Fin 5) (v : Byte) : FrameBytes :=
  match k with
  | 0 => { f with b0 := v }
  | 1 => { f with b1 := v }
  | 2 => { f with b2 := v }
  | 3 => { f with b3 := v }
  | 4 => { f with b4 := v }

/-! ## Byte assembly and addressing -/

/-- `byte[7 - i] <- v` (`41_bit_byte_decoder.md` R112, `30_encoding.md` R75). -/
def setWireBit (byte : Byte) (i : BitVec 3) (v : Bool) : Byte :=
  let place : Byte := 1 <<< (7 - i.toNat)
  if v then byte ||| place else byte &&& ~~~place

/-- The index where byte `k` of the payload begins: `base + 16*k` (`20_memory.md` R56, `42_frame_decoder.md` R118). -/
def byteStart (base : Half) (k : Fin 5) : Half := base + BitVec.ofNat 16 (16 * k.val)

/-- The index of the low pulse of pair `i` of a byte that begins at `start`: `start + 2i`
(`41_bit_byte_decoder.md` R105). -/
def lowIndex (start : Half) (i : BitVec 3) : Nat := start.toNat + 2 * i.toNat

/-- The index of the high pulse of pair `i`: `start + 2i + 1` (`41_bit_byte_decoder.md` R105). -/
def highIndex (start : Half) (i : BitVec 3) : Nat := start.toNat + 2 * i.toNat + 1

/-- `base = n - 82` (`42_frame_decoder.md` R116). -/
def trimBase (n : Half) : Half := n - BitVec.ofNat 16 frameMin

/-! ## Checksum and conversion (`42_frame_decoder.md` R119 to R122) -/

/-- `(fb[0] + fb[1] + fb[2] + fb[3]) mod 256` (R119). -/
def checksum (f : FrameBytes) : Byte := f.b0 + f.b1 + f.b2 + f.b3

/-- Variant A humidity: `zext_16(fb[0]) * 10` (R120). -/
def humA (f : FrameBytes) : Half := f.b0.setWidth 16 * 10

/-- Variant A temperature: `zext_16(fb[2]) * 10` (R120). -/
def tempA (f : FrameBytes) : Half := f.b2.setWidth 16 * 10

/-- Variant B humidity: `zext_16(fb[0]) * 256 + zext_16(fb[1])` (R121). -/
def humB (f : FrameBytes) : Half := f.b0.setWidth 16 * 256 + f.b1.setWidth 16

/-- Variant B magnitude: `zext_16(fb[2] & 0x7F) * 256 + zext_16(fb[3])` (R121). -/
def magB (f : FrameBytes) : Half := (f.b2 &&& 0x7F).setWidth 16 * 256 + f.b3.setWidth 16

/-- `neg_16(v) = (0 - v) mod 2^16` (`00_scope.md` R10). -/
def neg16 (v : Half) : Half := 0 - v

/-- Variant B temperature: the magnitude, negated when `fb[2][7]` is set (R121). -/
def tempB (f : FrameBytes) : Half := if f.b2.getLsbD 7 then neg16 (magB f) else magB f

/-- `hum_x10 > 1000`, unsigned and strict (R122). -/
def humOutOfRange (hum : Half) : Bool := decide (humMaxX10 < hum.toNat)

/-- The Reading the result registers stand for, in tenths: `humidity_percent = hum_x10 / 10` and
`temperature_celsius = temp_x10 / 10` exactly, `temp_x10` read as signed (`42_frame_decoder.md` R123). -/
structure Reading where
  humTenths : Nat
  tempTenths : Int
deriving DecidableEq, Repr

/-- The Reading of two result words (`42_frame_decoder.md` R123). -/
def Reading.ofRegs (hum temp : Half) : Reading := ⟨hum.toNat, temp.toInt⟩

/-- `humidity_percent` as an exact rational (`42_frame_decoder.md` R123). -/
def Reading.humidityPercent (r : Reading) : Rat := (r.humTenths : Rat) / 10

/-- `temperature_celsius` as an exact rational (`42_frame_decoder.md` R123). -/
def Reading.temperatureCelsius (r : Reading) : Rat := (r.tempTenths : Rat) / 10

end Sys2Proof.Machine
end

