-- ==== Sys2Proof/Machine/Ops.lean ====
section
/-! DEFINITION. The operations the meanings share: reading and writing the pulse memory (`spec/20_memory.md`),
`raise Err` (`spec/00_scope.md` R12, `spec/60_exceptions.md` R156), and the sequencing of steps that a raise ends. -/

namespace Sys2Proof.Machine

/-! ## The pulse memory -/

/-- What is listed at an index. -/
def Memory.get : Memory → Nat → Option Pulse
  | [], _ => none
  | (i, p) :: m, a => if i = a then some p else Memory.get m a

/-- The memory with entry `a` holding `p`, in canonical form. -/
def Memory.put : Memory → Nat → Pulse → Memory
  | [], a, p => [(a, p)]
  | (i, q) :: m, a, p =>
    if a < i then (a, p) :: (i, q) :: m
    else if a = i then (a, p) :: m
    else (i, q) :: Memory.put m a p

/-- The canonical form: indices strictly rising. (An unlisted index holds no value, so no listed entry can equal what
an unlisted one reads as.) -/
def Memory.wf : Memory → Bool
  | [] => true
  | [_] => true
  | (i, _) :: (j, q) :: m => decide (i < j) && Memory.wf ((j, q) :: m)

/-- `PulseRead(i)`: entry `i` holds a value exactly when `i < pcount` (`20_memory.md` R48); an entry that holds none
gives no result. -/
def State.pulseAt (s : State) (i : Nat) : Option Pulse :=
  if i < s.pcount.toNat then s.pulseMem.get i else none

/-- The debug read port: `dbg_level`, `dbg_dur` for `dbg_addr`, without side effect (`60_exceptions.md` R160). Above
`pcount` the outputs are not defined and the model gives no value. -/
def State.dbgPort (s : State) (dbgAddr : Half) : Option Pulse := s.pulseAt dbgAddr.toNat

/-- The closed pulses, earliest first (`20_memory.md` R53). -/
def State.pulses (s : State) : List Pulse := (List.range s.pcount.toNat).filterMap s.pulseAt

/-! ## Sequencing -/

/-- How a step of an operation ends: it goes on, a `raise` has ended the operation (`00_scope.md` R12), or the machine
stops. -/
inductive Flow where
  | go (s : State)
  | ended (s : State)
  | stop (f : Fault)
deriving DecidableEq, Repr

/-- The next step runs only if the one before it goes on: no pseudocode after a `raise` is executed
(`00_scope.md` R12, R13). -/
def Flow.andThen (r : Flow) (next : State → Flow) : Flow :=
  match r with
  | .go s => next s
  | .ended s => .ended s
  | .stop f => .stop f

/-- The outcome of an operation: writes made before a `raise` stay made (`00_scope.md` R12). -/
def Flow.outcome (r : Flow) : Host.Outcome State Fault Refusal :=
  match r with
  | .go s => .next s
  | .ended s => .next s
  | .stop f => .fault f

/-- The same with a last change to the state, made however the operation ended. -/
def Flow.map (r : Flow) (g : State → State) : Flow :=
  match r with
  | .go s => .go (g s)
  | .ended s => .ended (g s)
  | .stop f => .stop f

/-- The steps `step x` for `x` in the list, in order, until one ends. -/
def Flow.each {α : Type} (step : α → State → Flow) : List α → State → Flow
  | [], s => .go s
  | x :: xs, s => (step x s).andThen (Flow.each step xs)

/-! ## Taking an error, and the accesses that can stop -/

/-- The writes of `raise Err(K)`: `err_code`, the result registers cleared, `phase <- DONE`, and nothing else
(`00_scope.md` R12, `60_exceptions.md` R156). -/
def State.withError (s : State) (k : ErrKind) : State :=
  { s with errCode := some k, humX10 := 0, tempX10 := 0, phase := .done }

/-- `raise Err(K)`, the block's one way of taking an exception: it makes its writes and ends the operation
(`00_scope.md` R12). There is no operation that returns from it: DONE is left by START.GO and RESET
(`60_exceptions.md` R158). -/
def raiseErr (s : State) (k : ErrKind) : Flow := .ended (s.withError k)

/-- `PulseRead(i)` in an operation: the entry is handed on, and a read of an entry that holds no value stops
(`20_memory.md` R48). -/
def pulseRead (s : State) (i : Nat) (use : Pulse → Flow) : Flow :=
  match s.pulseAt i with
  | some p => use p
  | none => .stop (.pulseReadNoValue i)

/-- `PulseWrite(pcount, level, dur)` then `pcount <- pcount + 1` (`20_memory.md` R49). An index at or above
`MAX_PULSES` does not exist (R45). -/
def pulseAppend (s : State) (level : Level) (dur : Stamp) : Flow :=
  if s.pcount.toNat < s.cfg.maxPulses then
    .go { s with pulseMem := s.pulseMem.put s.pcount.toNat ⟨level, dur⟩, pcount := s.pcount + 1 }
  else .stop (.pulseWriteOutside s.pcount.toNat)

end Sys2Proof.Machine
end

