-- ==== Sys2Proof/Machine/BitByte.lean ====
section
/-! DEFINITION. The Bit/Byte Decoder: the BD operations (`spec/41_bit_byte_decoder.md` R105 to R114). -/

namespace Sys2Proof.Machine

/-! ## One pair (`41_bit_byte_decoder.md` R107 to R112) -/

/-- R107: the pulse expected to be low is high. -/
def bdErrPolLow (s : State) : Flow := raiseErr s .protocolError

/-- R108: the pulse expected to be high is low. -/
def bdErrPolHigh (s : State) : Flow := raiseErr s .protocolError

/-- R109: the high pulse is longer than `HIGH_MAX_US`. -/
def bdErrWidth (s : State) : Flow := raiseErr s .protocolError

/-- `bit_i <- v` and `byte[7 - i] <- bit_i` (R110 to R112). -/
def bdBit (i : BitVec 3) (v : Bool) (s : State) : Flow :=
  .go { s with locals := { s.locals with byte := setWireBit s.locals.byte i v } }

/-- The checks of one pair in their order: low polarity, high polarity, width, threshold; the first that fails
decides, and a failed low polarity leaves the second pulse unlooked at (R105, R107, R113). -/
def bdPair (start : Half) (i : BitVec 3) (s : State) : Flow :=
  pulseRead s (lowIndex start i) fun lo =>
    if lo.level then bdErrPolLow s
    else
      pulseRead s (highIndex start i) fun hi =>
        if !hi.level then bdErrPolHigh s
        else if gtMax s.cfg hi.dur then bdErrWidth s
        else if gtThr s.cfg hi.dur then bdBit i true s
        else bdBit i false s

/-! ## One byte (`41_bit_byte_decoder.md` R105, R106) -/

/-- The pairs of a byte in the order of arrival (R113). -/
def bitOrder : List (BitVec 3) := [0, 1, 2, 3, 4, 5, 6, 7]

/-- R106: fewer than 16 pulses remain. -/
def bdShort (s : State) : Flow := raiseErr s .rangeError

/-- R105: the bound is tested first, then the eight pairs in order; the byte returned stands in `locals.byte`. -/
def bdByte (start : Half) (s : State) : Flow :=
  if shortFrom s start then bdShort s
  else Flow.each (bdPair start) bitOrder { s with locals := { s.locals with byte := 0 } }

/-! ## The operations run one by one -/

/-- BD.BYTE (R105). -/
def execBdByte (start : Half) (s : State) : Host.Outcome State Fault Refusal := (bdByte start s).outcome

/-- BD.SHORT (R106); the operand `start` took part in the selection only. -/
def execBdShort (_start : Half) (s : State) : Host.Outcome State Fault Refusal := (bdShort s).outcome

/-- BD.ERR_POL_LOW (R107). -/
def execBdErrPolLow (s : State) : Host.Outcome State Fault Refusal := (bdErrPolLow s).outcome

/-- BD.ERR_POL_HIGH (R108). -/
def execBdErrPolHigh (s : State) : Host.Outcome State Fault Refusal := (bdErrPolHigh s).outcome

/-- BD.ERR_WIDTH (R109). -/
def execBdErrWidth (s : State) : Host.Outcome State Fault Refusal := (bdErrWidth s).outcome

/-- BD.BIT0 (R110): bit `i` of the byte is 0. -/
def execBdBit0 (i : BitVec 3) (s : State) : Host.Outcome State Fault Refusal := (bdBit i false s).outcome

/-- BD.BIT1 (R111): bit `i` of the byte is 1. -/
def execBdBit1 (i : BitVec 3) (s : State) : Host.Outcome State Fault Refusal := (bdBit i true s).outcome

end Sys2Proof.Machine
end

