-- ==== Sys2Proof/Machine/FrameDecoder.lean ====
section
/-! DEFINITION. The Frame Decoder: the FD operations and `FrameDecode()` (`spec/42_frame_decoder.md` R115 to R124). -/

namespace Sys2Proof.Machine

/-! ## The steps (`42_frame_decoder.md` R116 to R124) -/

/-- R116: a legal length; `base <- n - 82`. The selector word carries `n` (log entry 15). -/
def fdTrim (n : Half) (s : State) : Flow :=
  .go { s with locals := { s.locals with base := trimBase n } }

/-- R117: an illegal length. -/
def fdLenErr (s : State) : Flow := raiseErr s .frameLengthError

/-- `fb[k] <- BD.BYTE(base + 16*k)` (R118): a byte whose decode raises is not written. -/
def fdByte (k : Fin 5) (s : State) : Flow :=
  (bdByte (byteStart s.locals.base k) s).andThen fun t => .go { t with fb := t.fb.set k t.locals.byte }

/-- The bytes of a frame in the order they are decoded (R118). -/
def byteOrder : List (Fin 5) := [0, 1, 2, 3, 4]

/-- R118: the five bytes. -/
def fdBytes (s : State) : Flow := Flow.each fdByte byteOrder s

/-- R119: the additive checksum, modulo 256. -/
def fdCsum (s : State) : Flow :=
  if s.fb.b4 != checksum s.fb then raiseErr s .checksumError else .go s

/-- R120: Variant A. -/
def fdConvA (s : State) : Flow := .go { s with humX10 := humA s.fb, tempX10 := tempA s.fb }

/-- R121: Variant B. -/
def fdConvB (s : State) : Flow := .go { s with humX10 := humB s.fb, tempX10 := tempB s.fb }

/-- R122: a humidity above 100.0 percent. -/
def fdRange (s : State) : Flow :=
  if humOutOfRange s.humX10 then raiseErr s .rangeError else .go s

/-- R124: the result is published. -/
def fdCommit (s : State) : Flow := .go { s with errCode := none, phase := .done }

/-! ## The whole decode (`42_frame_decoder.md` R115) -/

/-- Step 1: trim or reject by the length (R116, R117). -/
def fdLength (s : State) : Flow :=
  if legalLength s.pcount then fdTrim s.pcount s else fdLenErr s

/-- Step 4: convert by the variant latched at START (R120, R121). -/
def fdConvert (s : State) : Flow :=
  match s.variantQ with
  | .a => fdConvA s
  | .b => fdConvB s

/-- `FrameDecode()`: steps 1 to 5 and the commit, each seeing the writes of the steps before it; a raise in any step
ends the whole decode (R115). -/
def frameDecode (s : State) : Flow :=
  (((((fdLength s).andThen fdBytes).andThen fdCsum).andThen fdConvert).andThen fdRange).andThen fdCommit

/-! ## The operations run one by one -/

/-- FD.TRIM (R116). -/
def execFdTrim (n : Half) (s : State) : Host.Outcome State Fault Refusal := (fdTrim n s).outcome

/-- FD.LENERR (R117); the count `n` took part in the selection only. -/
def execFdLenErr (_n : Half) (s : State) : Host.Outcome State Fault Refusal := (fdLenErr s).outcome

/-- FD.BYTES (R118). -/
def execFdBytes (s : State) : Host.Outcome State Fault Refusal := (fdBytes s).outcome

/-- FD.CSUM (R119). -/
def execFdCsum (s : State) : Host.Outcome State Fault Refusal := (fdCsum s).outcome

/-- FD.CONV_A (R120). -/
def execFdConvA (s : State) : Host.Outcome State Fault Refusal := (fdConvA s).outcome

/-- FD.CONV_B (R121). -/
def execFdConvB (s : State) : Host.Outcome State Fault Refusal := (fdConvB s).outcome

/-- FD.RANGE (R122). -/
def execFdRange (s : State) : Host.Outcome State Fault Refusal := (fdRange s).outcome

/-- FD.COMMIT (R124). -/
def execFdCommit (s : State) : Host.Outcome State Fault Refusal := (fdCommit s).outcome

end Sys2Proof.Machine
end

