-- ==== Sys2Proof/Machine/Reconstructor.lean ====
section
/-! DEFINITION. The Pulse Reconstructor: the PR operations and SMP.DROP (`spec/40_pulse_reconstructor.md` R90 to R98).
Each meaning is its rule's pseudocode; that the rule applies is decided by the SMP selector (`spec/30_encoding.md`
R68), in SAMPLE. -/

namespace Sys2Proof.Machine

/-- SMP.DROP (R98): the sample is lost. -/
def execSmpDrop (_level : Level) (_ts : Stamp) (s : State) : Host.Outcome State Fault Refusal := .next s

/-- PR.FIRST (R91): the first sample opens pulse 0. -/
def execPrFirst (level : Level) (ts : Stamp) (s : State) : Host.Outcome State Fault Refusal :=
  .next { s with curLevel := level, pulseStart := ts, pollCnt := 0, phase := .capture }

/-- PR.EDGE (R92): a transition closes the open pulse with its measured duration and opens the next. -/
def prEdge (level : Level) (ts : Stamp) (s : State) : Flow :=
  (pulseAppend s s.curLevel (elapsed s ts)).andThen fun t =>
    .go { t with curLevel := level, pulseStart := ts, pollCnt := 0 }

/-- PR.EDGE (R92). -/
def execPrEdge (level : Level) (ts : Stamp) (s : State) : Host.Outcome State Fault Refusal :=
  (prEdge level ts s).outcome

/-- PR.OVERFLOW (R93): a transition that does not fit stores nothing. -/
def execPrOverflow (_level : Level) (_ts : Stamp) (s : State) : Host.Outcome State Fault Refusal :=
  (raiseErr s .capacityError).outcome

/-- PR.HOLD (R95): a constant-level sample that is not a check point; its timestamp is not looked at. -/
def execPrHold (_level : Level) (_ts : Stamp) (s : State) : Host.Outcome State Fault Refusal :=
  .next { s with pollCnt := s.pollCnt + 1 }

/-- PR.POLL (R96): a check point at which the timeout has not passed. -/
def execPrPoll (_level : Level) (_ts : Stamp) (s : State) : Host.Outcome State Fault Refusal :=
  .next { s with pollCnt := 0 }

/-- PR.TIMEOUT (R97): the final pulse is stored with the duration `timeout_us_q` exactly, and the frame decode runs on
the pulses 0 to pcount-1 inside the same operation. The values inside the decode do not outlive the operation
(`10_state.md` R20; log entry 5). -/
def prTimeout (s : State) : Flow :=
  ((pulseAppend s s.curLevel s.timeoutUsQ).andThen fun t => frameDecode { t with pollCnt := 0 }).map
    fun t => { t with locals := .zero }

/-- PR.TIMEOUT (R97). -/
def execPrTimeout (_level : Level) (_ts : Stamp) (s : State) : Host.Outcome State Fault Refusal :=
  (prTimeout s).outcome

end Sys2Proof.Machine
end

