-- ==== Sys2Proof/Machine/Control.lean ====
section
/-! DEFINITION. The host commands (`spec/43_control_ops.md` R131 to R137). -/

namespace Sys2Proof.Machine

/-- RESET (R131): every register to its reset value; the pulse memory is not written, and with `pcount = 0` no entry
holds a value. -/
def execReset (s : State) : Host.Outcome State Fault Refusal :=
  .next { s with
    phase := .idle, errCode := none, variantQ := .a, timeoutUsQ := 0
    curLevel := false, pulseStart := 0, pollCnt := 0, pcount := 0
    fb := .zero, humX10 := 0, tempX10 := 0 }

/-- NOP (R132): a clock edge with no strobe changes nothing. -/
def execNop (s : State) : Host.Outcome State Fault Refusal := .next s

/-- START.GO (R133): begin an acquisition. `cur_level` and `pulse_start` keep their old bits; the pulse memory is not
written. -/
def execStartGo (variant : Variant) (timeoutMs : Half) (s : State) : Host.Outcome State Fault Refusal :=
  .next { s with
    variantQ := variant, timeoutUsQ := timeoutUs timeoutMs
    phase := .armed, errCode := none, pcount := 0, pollCnt := 0
    fb := .zero, humX10 := 0, tempX10 := 0 }

/-- START.DROP (R134): a START while an acquisition is in flight is ignored and not remembered. -/
def execStartDrop (_variant : Variant) (_timeoutMs : Half) (s : State) : Host.Outcome State Fault Refusal := .next s

/-- SAMPLE (R135): the one operation the SMP selector picks, by the conditions of `30_encoding.md` R68. -/
def execSample (level : Level) (ts : Stamp) (s : State) : Host.Outcome State Fault Refusal :=
  match s.phase with
  | .idle => execSmpDrop level ts s
  | .done => execSmpDrop level ts s
  | .armed => execPrFirst level ts s
  | .capture =>
    if neq s level then
      if full s then execPrOverflow level ts s else execPrEdge level ts s
    else if pollHit s then
      if expired s ts then execPrTimeout level ts s else execPrPoll level ts s
    else execPrHold level ts s

/-- IOERR.BUSY (R136): the collaborator failed during an acquisition. -/
def execIoerrBusy (s : State) : Host.Outcome State Fault Refusal := (raiseErr s .ioError).outcome

/-- IOERR.DROP (R137): an outcome already held is not overwritten. -/
def execIoerrDrop (s : State) : Host.Outcome State Fault Refusal := .next s

end Sys2Proof.Machine
end

