-- ==== Sys2Proof/Machine/Dispatch.lean ====
section
/-! DEFINITION. One arm per operation: `exec` calls its meaning. -/

namespace Sys2Proof.Machine

def exec (i : Instr) (s : State) : Host.Outcome State Fault Refusal :=
  match i with
  -- host commands (spec/43_control_ops.md)
  | .reset => Sys2Proof.Machine.execReset s
  | .nop => Sys2Proof.Machine.execNop s
  | .startGo v t => Sys2Proof.Machine.execStartGo v t s
  | .startDrop v t => Sys2Proof.Machine.execStartDrop v t s
  | .sample l ts => Sys2Proof.Machine.execSample l ts s
  | .ioerrBusy => Sys2Proof.Machine.execIoerrBusy s
  | .ioerrDrop => Sys2Proof.Machine.execIoerrDrop s
  -- pulse reconstructor (spec/40_pulse_reconstructor.md)
  | .smpDrop l ts => Sys2Proof.Machine.execSmpDrop l ts s
  | .prFirst l ts => Sys2Proof.Machine.execPrFirst l ts s
  | .prEdge l ts => Sys2Proof.Machine.execPrEdge l ts s
  | .prOverflow l ts => Sys2Proof.Machine.execPrOverflow l ts s
  | .prHold l ts => Sys2Proof.Machine.execPrHold l ts s
  | .prPoll l ts => Sys2Proof.Machine.execPrPoll l ts s
  | .prTimeout l ts => Sys2Proof.Machine.execPrTimeout l ts s
  -- bit/byte decoder (spec/41_bit_byte_decoder.md)
  | .bdByte start => Sys2Proof.Machine.execBdByte start s
  | .bdShort start => Sys2Proof.Machine.execBdShort start s
  | .bdErrPolLow => Sys2Proof.Machine.execBdErrPolLow s
  | .bdErrPolHigh => Sys2Proof.Machine.execBdErrPolHigh s
  | .bdErrWidth => Sys2Proof.Machine.execBdErrWidth s
  | .bdBit0 bit => Sys2Proof.Machine.execBdBit0 bit s
  | .bdBit1 bit => Sys2Proof.Machine.execBdBit1 bit s
  -- frame decoder (spec/42_frame_decoder.md)
  | .fdTrim n => Sys2Proof.Machine.execFdTrim n s
  | .fdLenErr n => Sys2Proof.Machine.execFdLenErr n s
  | .fdBytes => Sys2Proof.Machine.execFdBytes s
  | .fdCsum => Sys2Proof.Machine.execFdCsum s
  | .fdConvA => Sys2Proof.Machine.execFdConvA s
  | .fdConvB => Sys2Proof.Machine.execFdConvB s
  | .fdRange => Sys2Proof.Machine.execFdRange s
  | .fdCommit => Sys2Proof.Machine.execFdCommit s

end Sys2Proof.Machine
end

