-- ==== Sys2Proof/Machine/Fetch.lean ====
section
/-! DEFINITION. What the next step runs: the command a clock edge selects (`spec/30_encoding.md` R67,
`spec/43_control_ops.md` R130), or an operation presented by its selector word alone (log entry 4). -/

namespace Sys2Proof.Machine

/-- The command selected at a clock edge: by the CMD word, and where that leaves START and IOERR open, by the CMDB
word with `busy` (`30_encoding.md` R67). -/
def selectCommand (p : Ports) (busy : Bool) : Except DecodeError Instr :=
  match decode (cmdWord p) with
  | .ok i => .ok i
  | .error .splitByBusy => decode (cmdbWord p busy)
  | .error e => .error e

/-- The operation the next step runs. With no input left the clock runs on without a strobe (log entry 3). -/
def fetch (s : State) : Except DecodeError Instr :=
  match s.inputs with
  | [] => selectCommand .quiet s.busy
  | .clock p :: _ => selectCommand p s.busy
  | .alone w :: _ => decode w

/-- The first input is used up: a strobe that is not performed at its edge is not remembered (`30_encoding.md` R67). -/
def State.consume (s : State) : State := { s with inputs := s.inputs.tail }

end Sys2Proof.Machine
end

