-- ==== Sys2Proof/Machine/Step.lean ====
section
/-! DEFINITION. One step: exactly one operation, indivisibly (`spec/43_control_ops.md` R130). -/

namespace Sys2Proof.Machine

/-- One rising edge of `clk`: the operation selected runs on the state with that input used up. -/
def step (s : State) : Host.Outcome State Fault Refusal :=
  match fetch s with
  | .ok i => exec i s.consume
  | .error e => .refused (.undecodable e)

/-- The state with the table word presented as its very next input, to be run alone (log entries 4, 12, 13). -/
def State.withFetchWord (s : State) (nbits w : Nat) : State :=
  { s with inputs := .alone (tableWord nbits w) :: s.inputs }

end Sys2Proof.Machine
end

