-- ==== Sys2Proof/Machine/Build.lean ====
section
/-! DEFINITION. The block with its parameters as the argument they are in `spec/00_scope.md` R6. -/

namespace Sys2Proof.Machine

/-- The machine of the build with the parameters `c` (`00_scope.md` R6: "an argument of the model, never state").
`Sys2Proof.core` is that of the default build, and in every run of `machineOf c` the parameters are `c`. -/
def machineOf (c : Config) : Host.Core where
  State := State
  Fault := Fault
  Refusal := Refusal
  step := step
  reset := State.resetOf c

end Sys2Proof.Machine
end

