-- ==== Sys2Proof/Machine/Sequence.lean ====
section
/-! DEFINITION. The whole-sequence functions of the spec, written as the spec writes them: `Reconstruct`
(`spec/40_pulse_reconstructor.md` R99), `DecodeFrame` and one acquisition (`spec/42_frame_decoder.md` R126); and what
it is to feed a list of samples to the block. -/

namespace Sys2Proof.Machine

/-- One input sample (`30_encoding.md` R66). -/
structure Sample where
  level : Level
  ts : Stamp
deriving DecidableEq, Repr

/-- The result of `Reconstruct` (R99). -/
inductive Capture where
  | pending (pulses : List Pulse)
  | ended (pulses : List Pulse)
  | overflow
deriving DecidableEq, Repr

/-- The loop of `Reconstruct` (R99): `cur`, `start` the open pulse, `cnt` the constant-level samples, `pulses` the
closed ones. -/
def reconstructFrom (c : Config) (timeout : Stamp) (cur : Level) (start : Stamp) (cnt : Nat) (pulses : List Pulse) :
    List Sample → Capture
  | [] => .pending pulses
  | x :: rest =>
    if x.level != cur then
      if c.maxPulses ≤ pulses.length + 1 then .overflow
      else reconstructFrom c timeout x.level x.ts 0 (pulses ++ [⟨cur, x.ts - start⟩]) rest
    else if cnt + 1 = c.pollN then
      if timeout.toNat < (x.ts - start).toNat then .ended (pulses ++ [⟨cur, timeout⟩])
      else reconstructFrom c timeout cur start 0 pulses rest
    else reconstructFrom c timeout cur start (cnt + 1) pulses rest

/-- `Reconstruct(samples, timeout_ms)` (R99). -/
def reconstruct (c : Config) (timeoutMs : Half) : List Sample → Capture
  | [] => .pending []
  | x :: rest => reconstructFrom c (timeoutUs timeoutMs) x.level x.ts 0 [] rest

/-- One SAMPLE command per element, in order (`43_control_ops.md` R135). -/
def feed : List Sample → State → Host.Outcome State Fault Refusal
  | [], s => .next s
  | x :: rest, s =>
    match exec (.sample x.level x.ts) s with
    | .next t => feed rest t
    | .fault f => .fault f
    | .refused r => .refused r

/-- The result of an ended acquisition: `Ok(hum_x10, temp_x10)` or `Error(kind)` (`42_frame_decoder.md` R126). -/
inductive FrameResult where
  | ok (hum temp : Half)
  | error (k : ErrKind)
  /-- The decode read an entry without a value; not possible on a list of pulses (`42_frame_decoder.md` R116). -/
  | noValue (index : Nat)
deriving DecidableEq, Repr

/-- The outcome held in a state (`43_control_ops.md` R140): the code, and the two result words. -/
def State.outcome (s : State) : FrameResult :=
  match s.errCode with
  | none => .ok s.humX10 s.tempX10
  | some k => .error k

/-- A pulse memory that holds exactly these pulses, from index `i` on. -/
def memoryFrom (i : Nat) : List Pulse → Memory
  | [] => []
  | p :: ps => (i, p) :: memoryFrom (i + 1) ps

/-- The state `DecodeFrame` starts from (R126). DESIGN CHOICE, log entry 27: R126 sets no bound on the length `n` of the
list, and the 16-bit `pcount` (`10_state.md` R26) cannot hold one above 65535; `pcount` is then `n` modulo `2^16`. -/
def frameState (c : Config) (v : Variant) (pulses : List Pulse) : State :=
  { State.resetOf c with
    variantQ := v, pcount := BitVec.ofNat 16 pulses.length, pulseMem := memoryFrom 0 pulses }

/-- `DecodeFrame(variant, pulses)`: `FrameDecode()` run on a memory that holds exactly `pulses` (R126). -/
def decodeFrame (c : Config) (v : Variant) (pulses : List Pulse) : FrameResult :=
  match frameDecode (frameState c v pulses) with
  | .go t => t.outcome
  | .ended t => t.outcome
  | .stop (.pulseReadNoValue i) => .noValue i
  | .stop (.pulseWriteOutside i) => .noValue i

/-- One acquisition over a finite list of samples (R126): `Ended(p) -> DecodeFrame(variant, p)`,
`Error(e) -> Error(e)`; a list that runs out has no outcome. -/
def acquisition (c : Config) (v : Variant) (timeoutMs : Half) (samples : List Sample) : Option FrameResult :=
  match reconstruct c timeoutMs samples with
  | .pending _ => none
  | .ended ps => some (decodeFrame c v ps)
  | .overflow => some (.error .capacityError)

end Sys2Proof.Machine
end

