-- ==== Sys2Proof/Machine/Orchestrator.lean ====
section
/-! DEFINITION. The host's side (`spec/43_control_ops.md` R139, `spec/60_exceptions.md` R163 to R165): software
around the block, out of scope as hardware (`spec/00_scope.md` R4). No operation of the block uses this file. The
waits between attempts are time, which the model does not hold (log entry 20). -/

namespace Sys2Proof.Machine

/-- What the host meets when it reads the line once: a sample, or a failure of the sample source (R139). -/
inductive HostRead where
  | sample (x : Sample)
  | failed
deriving DecidableEq, Repr

/-- The command the host issues for it: SAMPLE, or `io_err` (`43_control_ops.md` R139). -/
def HostRead.ports : HostRead → Ports
  | .sample x => { Ports.quiet with sValid := true, sLevel := x.level, sTs := x.ts }
  | .failed => { Ports.quiet with ioErr := true }

/-- The outcome the host reads when `done = 1` (R139): a Reading, or the kind of the error. -/
def State.result (s : State) : Except ErrKind Reading :=
  match s.errCode with
  | none => .ok (Reading.ofRegs s.humX10 s.tempX10)
  | some k => .error k

/-- One command per read until `done = 1`; `none` when the reads run out first, or the machine stops (R139). -/
def readLoop : List HostRead → State → Option (Except ErrKind Reading)
  | [], s => if s.isDone then some s.result else none
  | r :: rest, s =>
    if s.isDone then some s.result
    else
      match step { s with inputs := [.clock r.ports] } with
      | .next t => readLoop rest t
      | .fault _ => none
      | .refused _ => none

/-- `read_once` (R163, R139): a failure of the pin control before START is the attempt's error without the block;
otherwise START, then the reads. -/
def readOnce (wakeOk : Bool) (v : Variant) (timeoutMs : Half) (reads : List HostRead) (s : State) :
    Option (Except ErrKind Reading) :=
  if !wakeOk then some (.error .ioError)
  else
    match step { s with inputs := [.clock { Ports.quiet with start := true, variant := v, timeoutMs := timeoutMs }] } with
    | .next t => readLoop reads t
    | .fault _ => none
    | .refused _ => none

/-- The loop of `read_with_retry` (R164): `attempt j` is what attempt number `j` gives. -/
def retryLoop (attempt : Nat → Except ErrKind Reading) : Nat → Nat → Except ErrKind (Reading × Nat)
  | 0, used =>
    match attempt used with
    | .ok r => .ok (r, used)
    | .error k => .error k
  | remaining + 1, used =>
    match attempt used with
    | .ok r => .ok (r, used)
    | .error _ => retryLoop attempt remaining (used + 1)

/-- `read_with_retry` with `max_retries` (R164, R165): every error kind is retried, the last error is surfaced on
exhaustion (`90_conflicts.md` C6: without a count). -/
def readWithRetry (attempt : Nat → Except ErrKind Reading) (maxRetries : Nat) : Except ErrKind (Reading × Nat) :=
  retryLoop attempt maxRetries 0

end Sys2Proof.Machine
end

