-- ==== Sys2Proof/Machine/Trace.lean ====
section
/-! DEFINITION. The trace notation of `spec/30_encoding.md` R84 and its pseudo-operations (R85), as the port values
they put on the clock edges. -/

namespace Sys2Proof.Machine

/-- One line of a trace (R84). -/
inductive TraceLine where
  | reset
  | start (v : Variant) (timeoutMs : Half)
  | s (level : Level) (ts : Stamp)
  | ioerr
  | nop
deriving DecidableEq, Repr

/-- The ports at the line's clock edge (`30_encoding.md` R67, R84). -/
def TraceLine.ports : TraceLine → Ports
  | .reset => { Ports.quiet with rst := true }
  | .start v t => { Ports.quiet with start := true, variant := v, timeoutMs := t }
  | .s l ts => { Ports.quiet with sValid := true, sLevel := l, sTs := ts }
  | .ioerr => { Ports.quiet with ioErr := true }
  | .nop => Ports.quiet

/-- The clock edges of a list of lines. -/
def traceInputs (ls : List TraceLine) : List Input := ls.map fun l => .clock l.ports

/-- The constants of a trace: the sampling period and the durations of a low pulse, a bit-0 and a bit-1 high pulse
(R85). -/
structure TraceConsts where
  step : Nat
  lo : Nat
  h0 : Nat
  h1 : Nat
deriving DecidableEq, Repr

/-- A pseudo-operation (R85). -/
inductive Pseudo where
  | line (l : TraceLine)
  | setCursor (ts : Nat)
  | run (level : Level) (dur : Nat)
  | pair (lo hi : Nat)
  | byte (v : Byte)
  | frame (f : FrameBytes)
  | idle (level : Level)
deriving DecidableEq, Repr

/-- `RUN <level> <dur>` from the cursor: `dur / STEP` samples, `STEP` apart (R85). -/
def runLines (c : TraceConsts) (cursor : Nat) (level : Level) (dur : Nat) : List TraceLine :=
  (List.range (dur / c.step)).map fun j => .s level (BitVec.ofNat 32 (cursor + j * c.step))

/-- Runs one after another, with the cursor moved past each (R85). -/
def runsLines (c : TraceConsts) : Nat → List (Level × Nat) → List TraceLine × Nat
  | cursor, [] => ([], cursor)
  | cursor, (l, d) :: rest =>
    let r := runsLines c (cursor + d) rest
    (runLines c cursor l d ++ r.1, r.2)

/-- The runs of `BYTE <v>`: for each bit from bit 7 down, `PAIR LO H1` or `PAIR LO H0` (R85). -/
def byteRuns (c : TraceConsts) (v : Byte) : List (Level × Nat) :=
  [7, 6, 5, 4, 3, 2, 1, 0].flatMap fun i => [(false, c.lo), (true, if v.getLsbD i then c.h1 else c.h0)]

/-- The lines of `IDLE <level>` from the cursor: samples `STEP` apart, up to and with the first after which the block
is not in phase CAPTURE (R85); `fuel` bounds the number of lines. DESIGN CHOICE, log entry 25: R85 does not say what
IDLE expands to where the block is in phase IDLE or DONE and so never leaves CAPTURE; here it is one line. -/
def idleLines (c : TraceConsts) (level : Level) : Nat → Nat → State → List TraceLine
  | 0, _, _ => []
  | fuel + 1, cursor, s =>
    let l := TraceLine.s level (BitVec.ofNat 32 cursor)
    match step { s with inputs := [.clock l.ports] } with
    | .next t => if t.phase = .capture then l :: idleLines c level fuel (cursor + c.step) t else [l]
    | .fault _ => [l]
    | .refused _ => [l]

/-- The lines of one pseudo-operation, met with the cursor where it is and the block in state `s` (R85), and the cursor
after it, which R85 gives for AT and RUN and what is made of RUN. DESIGN CHOICE, log entry 26: for IDLE, R85 gives no
new cursor; here it is moved past the lines emitted, by `STEP` for each. -/
def Pseudo.expand (c : TraceConsts) (fuel : Nat) (p : Pseudo) (cursor : Nat) (s : State) : List TraceLine × Nat :=
  match p with
  | .line l => ([l], cursor)
  | .setCursor ts => ([], ts)
  | .run l d => runsLines c cursor [(l, d)]
  | .pair lo hi => runsLines c cursor [(false, lo), (true, hi)]
  | .byte v => runsLines c cursor (byteRuns c v)
  | .frame f =>
    runsLines c cursor (byteRuns c f.b0 ++ byteRuns c f.b1 ++ byteRuns c f.b2 ++ byteRuns c f.b3 ++ byteRuns c f.b4)
  | .idle l =>
    let ls := idleLines c l fuel cursor s
    (ls, cursor + ls.length * c.step)

end Sys2Proof.Machine
end

