-- ==== Sys2Proof/Machine/Train.lean ====
section
/-! DEFINITION. The wire format (`spec/30_encoding.md` R73 to R76, R78; `spec/20_memory.md` R56): when a pair of pulses
carries a bit, sixteen pulses a byte, eighty pulses a frame. -/

namespace Sys2Proof.Machine

/-- A low pulse then a high pulse that carries the bit `b` in the duration of the high one: above the threshold 1,
else 0, and not above the maximum (`30_encoding.md` R74). -/
def CarriesBit (c : Config) (b : Bool) (lo hi : Pulse) : Prop :=
  lo.level = false ∧ hi.level = true ∧ hi.dur.toNat ≤ c.highMaxUs ∧ (b = true ↔ c.bitThresholdUs < hi.dur.toNat)

/-- A pair that fails one of the three checks: its first pulse high, its second low, or its second too long
(`41_bit_byte_decoder.md` R107, R108, R109). -/
abbrev BadPair (c : Config) (lo hi : Pulse) : Prop :=
  lo.level = true ∨ hi.level = false ∨ c.highMaxUs < hi.dur.toNat

/-- Sixteen pulses from index `at0` carry the byte, most significant bit first (`30_encoding.md` R75): pair `i`
carries bit `7 - i`. -/
def CarriesByte (c : Config) (v : Byte) (pulses : List Pulse) (at0 : Nat) : Prop :=
  ∀ i : Nat, i < 8 → ∃ lo hi, pulses[at0 + 2 * i]? = some lo ∧ pulses[at0 + 2 * i + 1]? = some hi ∧
    CarriesBit c (v.getLsbD (7 - i)) lo hi

/-- Eighty pulses from index `base` carry the five bytes in the order of `30_encoding.md` R76. -/
def CarriesFrame (c : Config) (f : FrameBytes) (pulses : List Pulse) (base : Nat) : Prop :=
  ∀ k : Fin 5, CarriesByte c (f.get k) pulses (base + 16 * k.val)

/-- The same on the pulse memory of a state. -/
def State.CarriesByteAt (s : State) (v : Byte) (start : Nat) : Prop :=
  ∀ i : Nat, i < 8 → ∃ lo hi, s.pulseAt (start + 2 * i) = some lo ∧ s.pulseAt (start + 2 * i + 1) = some hi ∧
    CarriesBit s.cfg (v.getLsbD (7 - i)) lo hi

/-- What the frame decoder makes of five bytes that carry no pulse error: the checksum before the range, all or
nothing (`42_frame_decoder.md` R115, R119 to R122), in exact integer arithmetic. -/
def readingOf (v : Variant) (f : FrameBytes) : Except ErrKind Reading :=
  let b0 := f.b0.toNat
  let b1 := f.b1.toNat
  let b2 := f.b2.toNat
  let b3 := f.b3.toNat
  if f.b4.toNat ≠ (b0 + b1 + b2 + b3) % 256 then .error .checksumError
  else
    match v with
    | .a => if 1000 < b0 * 10 then .error .rangeError else .ok ⟨b0 * 10, (b2 * 10 : Nat)⟩
    | .b =>
      if 1000 < b0 * 256 + b1 then .error .rangeError
      else if 128 ≤ b2 then .ok ⟨b0 * 256 + b1, -(((b2 - 128) * 256 + b3 : Nat) : Int)⟩
      else .ok ⟨b0 * 256 + b1, ((b2 * 256 + b3 : Nat) : Int)⟩

/-- The outcome as a Reading or an error kind (`42_frame_decoder.md` R123, R126). -/
def FrameResult.reading : FrameResult → Option (Except ErrKind Reading)
  | .ok hum temp => some (.ok (Reading.ofRegs hum temp))
  | .error k => some (.error k)
  | .noValue _ => none

end Sys2Proof.Machine
end

