-- ==== Sys2Proof/Safety.lean ====
section
/-! DEFINITION. What counts as a safe run: the invariants of `spec/10_state.md` R38 with the canonical form of the
pulse memory, and the runs a host can make. -/

namespace Sys2Proof.Machine

/-- Only a clock edge: the one thing a host can present (`43_control_ops.md` R130; log entry 4). -/
def Input.isClock : Input → Bool
  | .clock _ => true
  | .alone _ => false

/-- Every entry below `pcount` is listed in the pulse memory (`20_memory.md` R48: "Entry `i` holds a value exactly when
`i < pcount`"). -/
def State.Filled (s : State) : Prop :=
  ∀ i, i < s.pcount.toNat → ∃ p, s.pulseMem.get i = some p

/-- Neighbouring pulses have opposite levels, and the last closed pulse has the opposite level of the open one
(`10_state.md` R38 item 7). -/
def State.Alternates (s : State) : Prop :=
  (∀ i p q, s.pulseAt i = some p → s.pulseAt (i + 1) = some q → p.level ≠ q.level) ∧
  (s.phase = .capture → ∀ i p, i + 1 = s.pcount.toNat → s.pulseAt i = some p → p.level ≠ s.curLevel)

/-- The invariants that hold between any two commands (`10_state.md` R38), with what the model adds: legal
parameters, a canonical memory inside the address space, no decode under way, and clock edges only. -/
structure State.Inv (s : State) : Prop where
  cfgLegal : s.cfg.wf = true
  memCanonical : s.pulseMem.wf = true
  memInside : ∀ i p, s.pulseMem.get i = some p → i < s.cfg.maxPulses
  filled : s.Filled
  noDecode : s.locals = .zero
  clockOnly : ∀ x ∈ s.inputs, x.isClock = true
  /-- R38 item 1. -/
  countBound : s.pcount.toNat ≤ s.cfg.maxPulses
  /-- R38 item 1. -/
  captureRoom : s.phase = .capture → s.pcount.toNat + 1 ≤ s.cfg.maxPulses
  /-- R38 item 2. -/
  pollBound : s.pollCnt + 1 ≤ s.cfg.pollN
  /-- R38 item 3. -/
  errOnlyDone : s.phase ≠ .done → s.errCode = none
  /-- R38 item 4. -/
  errClears : s.errCode ≠ none → s.humX10 = 0 ∧ s.tempX10 = 0
  /-- R38 item 5. -/
  freshBefore : s.phase = .idle ∨ s.phase = .armed → s.pcount = 0 ∧ s.fb = .zero ∧ s.humX10 = 0 ∧ s.tempX10 = 0
  /-- R38 item 6. -/
  freshInCapture : s.phase = .capture → s.fb = .zero ∧ s.humX10 = 0 ∧ s.tempX10 = 0
  /-- R38 item 7. -/
  alternates : s.Alternates
  /-- R38 item 8. -/
  validFrame : s.valid = true → 82 ≤ s.pcount.toNat ∧ s.pcount.toNat ≤ 85 ∧
    s.fb.b4.toNat = (s.fb.b0.toNat + s.fb.b1.toNat + s.fb.b2.toNat + s.fb.b3.toNat) % 256 ∧ s.humX10.toNat ≤ 1000

/-- One step leads from `s` to `t`. -/
def Steps (s t : State) : Prop := step s = .next t

end Sys2Proof.Machine
end

