-- ==== Sys2Proof/Certificates/Slice0/Obligations.lean ====
section
/-! DEFINITION. The statements about the machine, in the order of `OBLIGATIONS.json`. -/

open Sys2Proof Sys2Proof.Machine

/-! ## Reset and the host commands -/

/-- `10_state.md` R37: the table of reset values, for `State.reset`, for the reset state of every build (`00_scope.md`
R6) and for RESET in every state; no entry of the pulse memory holds a value and the flags are 0. (The fields `cfg`,
`locals`, `inputs` are the model's own and not in R37.) -/
def Obligations.ResetPutsEveryRegisterAtItsTableValue : Prop :=
  ∀ r : State, (r = State.reset ∨ (∃ c, r = State.resetOf c) ∨ ∃ s, exec .reset s = .next r) →
    r.phase = .idle ∧ r.errCode = none ∧ r.variantQ = .a ∧ r.timeoutUsQ = 0 ∧ r.curLevel = false ∧
    r.pulseStart = 0 ∧ r.pollCnt = 0 ∧ r.pcount = 0 ∧ r.fb = ⟨0, 0, 0, 0, 0⟩ ∧ r.humX10 = 0 ∧ r.tempX10 = 0 ∧
    (∀ i, r.pulseAt i = none) ∧ r.busy = false ∧ r.isDone = false ∧ r.valid = false

/-- `43_control_ops.md` R131: RESET's writes and nothing else; the pulse memory is not written; it is accepted in every
phase and wins over every other strobe; no error is recorded. -/
def Obligations.ResetIsAcceptedInEveryPhase : Prop :=
  ∀ s : State,
    exec .reset s = .next { s with
      phase := .idle, errCode := none, variantQ := .a, timeoutUsQ := 0, curLevel := false, pulseStart := 0,
      pollCnt := 0, pcount := 0, fb := ⟨0, 0, 0, 0, 0⟩, humX10 := 0, tempX10 := 0 } ∧
    (∀ p rest, s.inputs = .clock p :: rest → p.rst = true → step s = exec .reset { s with inputs := rest }) ∧
    (∀ t, exec .reset s = .next t →
      t.pulseMem = s.pulseMem ∧ (∀ i, t.pulseAt i = none) ∧ t.busy = false ∧ t.isDone = false ∧ t.valid = false)

/-- `43_control_ops.md` R132: NOP, and a clock edge with no strobe up, change nothing, in any phase. -/
def Obligations.EdgeWithoutStrobeChangesNothing : Prop :=
  ∀ s : State, exec .nop s = .next s ∧
    ∀ p rest, s.inputs = .clock p :: rest →
      p.rst = false → p.ioErr = false → p.start = false → p.sValid = false →
      step s = .next { s with inputs := rest }

/-- `43_control_ops.md` R133: START.GO's writes and nothing else, from IDLE and from DONE, whatever sample strobe comes
with it; `timeout_us_q` is `timeout_ms * 1000` without overflow, no entry holds a value, and the flags after it. -/
def Obligations.StartBeginsAFreshAcquisition : Prop :=
  ∀ (s : State) (v : Variant) (ms : Half), ∃ us : Stamp, us.toNat = ms.toNat * 1000 ∧
    exec (.startGo v ms) s = .next { s with
      variantQ := v, timeoutUsQ := us, phase := .armed, errCode := none, pcount := 0, pollCnt := 0
      fb := ⟨0, 0, 0, 0, 0⟩, humX10 := 0, tempX10 := 0 } ∧
    (∀ p rest, s.inputs = .clock p :: rest → p.rst = false → p.ioErr = false → p.start = true →
      p.variant = v → p.timeoutMs = ms → s.phase = .idle ∨ s.phase = .done →
      step s = exec (.startGo v ms) { s with inputs := rest }) ∧
    (∀ t, exec (.startGo v ms) s = .next t →
      (∀ i, t.pulseAt i = none) ∧ t.busy = true ∧ t.isDone = false ∧ t.valid = false)

/-- `43_control_ops.md` R134: a START while an acquisition is in flight changes nothing, and a sample strobe in the same
clock is dropped with it. -/
def Obligations.StartWhileBusyIsDropped : Prop :=
  ∀ (s : State) (v : Variant) (ms : Half), exec (.startDrop v ms) s = .next s ∧
    ∀ p rest, s.inputs = .clock p :: rest → p.rst = false → p.ioErr = false → p.start = true →
      s.phase = .armed ∨ s.phase = .capture → step s = .next { s with inputs := rest }

/-- `43_control_ops.md` R136: IOERR in ARMED or CAPTURE records IoError (code 1), clears the results, goes to DONE and
keeps everything else, the pulse memory and `pcount` among it; START and sample strobes of the same clock are dropped;
the flags after it. -/
def Obligations.IoErrorEndsTheAcquisition : Prop :=
  ∀ s : State,
    exec .ioerrBusy s = .next { s with errCode := some .ioError, humX10 := 0, tempX10 := 0, phase := .done } ∧
    (∀ p rest, s.inputs = .clock p :: rest → p.rst = false → p.ioErr = true →
      s.phase = .armed ∨ s.phase = .capture → step s = exec .ioerrBusy { s with inputs := rest }) ∧
    (∀ t, exec .ioerrBusy s = .next t →
      errBits t.errCode = 1 ∧ t.busy = false ∧ t.isDone = true ∧ t.valid = false)

/-- `43_control_ops.md` R137: IOERR in IDLE or DONE changes nothing; an outcome already held is not overwritten. -/
def Obligations.IoErrorOutsideAnAcquisitionIsDropped : Prop :=
  ∀ s : State, exec .ioerrDrop s = .next s ∧
    ∀ p rest, s.inputs = .clock p :: rest → p.rst = false → p.ioErr = true →
      s.phase = .idle ∨ s.phase = .done → step s = .next { s with inputs := rest }

/-- `30_encoding.md` R67 and `43_control_ops.md` R130: exactly one command at a clock edge, by the priority
`rst > io_err > start > s_valid`, IOERR and START split by `busy`; the inputs of the edge are used up. -/
def Obligations.OneCommandPerEdgeByPriority : Prop :=
  ∀ (s : State) (p : Ports) (rest : List Input), s.inputs = .clock p :: rest →
    step s = exec
      (if p.rst then .reset
       else if p.ioErr then (if s.busy then .ioerrBusy else .ioerrDrop)
       else if p.start then
         (if s.busy then .startDrop p.variant p.timeoutMs else .startGo p.variant p.timeoutMs)
       else if p.sValid then .sample p.sLevel p.sTs
       else .nop)
      { s with inputs := rest }

/-- A step runs the decoded operation: at a clock edge the one selected; presented alone, which no port of the block does
(the model's choice, log entry 4), the one its selector word decodes to; with no input left the clock runs on with no
strobe (the model's choice, log entry 3); a word presented alone that decodes to none is refused by name (the model's
choice, log entry 14). -/
def Obligations.StepRunsTheDecodedOperation : Prop :=
  (∀ (s : State) (p : Ports) (rest : List Input) (i : Instr), s.inputs = .clock p :: rest →
    selectCommand p s.busy = .ok i → step s = exec i { s with inputs := rest }) ∧
  (∀ (s : State) (w : OpWord) (rest : List Input) (i : Instr), s.inputs = .alone w :: rest →
    decode w = .ok i → step s = exec i { s with inputs := rest }) ∧
  (∀ s : State, s.inputs = [] → step s = exec .nop s) ∧
  (∀ (s : State) (w : OpWord) (rest : List Input) (e : DecodeError), s.inputs = .alone w :: rest →
    decode w = .error e → step s = .refused (.undecodable e))

/-! ## SAMPLE and the pulse reconstructor -/

/-- `43_control_ops.md` R135: at CMD 0001 the block performs the one operation the SMP selector picks, and that is
SMP.DROP, PR.FIRST, PR.EDGE, PR.OVERFLOW, PR.HOLD, PR.POLL or PR.TIMEOUT under exactly the listed conditions. -/
def Obligations.SamplePerformsTheSelectedOperation : Prop :=
  ∀ (s : State) (l : Level) (ts : Stamp), ∃ op : Instr,
    decode (smpWord s l ts) = .ok op ∧ exec (.sample l ts) s = exec op s ∧
    (∀ p rest, s.inputs = .clock p :: rest → p.rst = false → p.ioErr = false → p.start = false → p.sValid = true →
      p.sLevel = l → p.sTs = ts → step s = exec op { s with inputs := rest }) ∧
    (op = .smpDrop l ts ↔ s.phase = .idle ∨ s.phase = .done) ∧
    (op = .prFirst l ts ↔ s.phase = .armed) ∧
    (op = .prEdge l ts ↔ s.phase = .capture ∧ l ≠ s.curLevel ∧ s.pcount.toNat + 1 < s.cfg.maxPulses) ∧
    (op = .prOverflow l ts ↔ s.phase = .capture ∧ l ≠ s.curLevel ∧ s.cfg.maxPulses ≤ s.pcount.toNat + 1) ∧
    (op = .prHold l ts ↔ s.phase = .capture ∧ l = s.curLevel ∧ s.pollCnt + 1 ≠ s.cfg.pollN) ∧
    (op = .prPoll l ts ↔ s.phase = .capture ∧ l = s.curLevel ∧ s.pollCnt + 1 = s.cfg.pollN ∧
      (ts - s.pulseStart).toNat ≤ s.timeoutUsQ.toNat) ∧
    (op = .prTimeout l ts ↔ s.phase = .capture ∧ l = s.curLevel ∧ s.pollCnt + 1 = s.cfg.pollN ∧
      s.timeoutUsQ.toNat < (ts - s.pulseStart).toNat)

/-- SAMPLE completes in every phase: while the pulse memory has room and every closed pulse is in it (both hold in every
state the block reaches, `10_state.md` R38), it answers the next state of the operation selected. -/
def Obligations.SampleAlwaysCompletes : Prop :=
  ∀ (s : State) (l : Level) (ts : Stamp),
    (s.phase = .capture → s.cfg.wf = true ∧ s.pcount.toNat < s.cfg.maxPulses ∧ s.Filled) →
    ∃ (op : Instr) (t : State), decode (smpWord s l ts) = .ok op ∧ exec op s = .next t ∧ exec (.sample l ts) s = .next t

/-- `40_pulse_reconstructor.md` R98: a sample outside a capture changes nothing. -/
def Obligations.SampleOutsideACaptureIsDropped : Prop :=
  ∀ (s : State) (l : Level) (ts : Stamp), exec (.smpDrop l ts) s = .next s ∧
    (s.phase = .idle ∨ s.phase = .done →
      decode (smpWord s l ts) = .ok (.smpDrop l ts) ∧ exec (.sample l ts) s = .next s)

/-- `40_pulse_reconstructor.md` R91: the first sample opens pulse 0; no pulse is written, `pcount` stays, `busy` stays 1,
no timeout check is made, any timestamp is accepted. -/
def Obligations.FirstSampleOpensPulseZero : Prop :=
  ∀ (s : State) (l : Level) (ts : Stamp),
    exec (.prFirst l ts) s = .next { s with curLevel := l, pulseStart := ts, pollCnt := 0, phase := .capture } ∧
    (s.phase = .armed →
      decode (smpWord s l ts) = .ok (.prFirst l ts) ∧ exec (.sample l ts) s = exec (.prFirst l ts) s ∧
      s.busy = true ∧ ∀ t, exec (.prFirst l ts) s = .next t → t.busy = true)

/-- `40_pulse_reconstructor.md` R92: a transition that fits closes the open pulse with the duration
`(s_ts - pulse_start) mod 2^TS_W` at index `pcount`, opens the next one, restarts the poll count, and changes nothing
else: every other entry, every other register and the flags are as before, whatever the timeout. -/
def Obligations.TransitionClosesThePulse : Prop :=
  ∀ (s : State) (l : Level) (ts : Stamp), s.cfg.wf = true → s.pcount.toNat < s.cfg.maxPulses →
    ∃ t : State, exec (.prEdge l ts) s = .next t ∧
      t.pulseMem.get s.pcount.toNat = some ⟨s.curLevel, ts - s.pulseStart⟩ ∧
      (∀ a, a ≠ s.pcount.toNat → t.pulseMem.get a = s.pulseMem.get a) ∧
      t.pcount.toNat = s.pcount.toNat + 1 ∧
      { t with pulseMem := s.pulseMem } =
        { s with pcount := s.pcount + 1, curLevel := l, pulseStart := ts, pollCnt := 0 } ∧
      t.busy = s.busy ∧ t.isDone = s.isDone ∧ t.valid = s.valid ∧
      (s.phase = .capture → l ≠ s.curLevel → s.pcount.toNat + 1 < s.cfg.maxPulses →
        decode (smpWord s l ts) = .ok (.prEdge l ts) ∧ exec (.sample l ts) s = .next t)

/-- `40_pulse_reconstructor.md` R93: a transition that does not fit raises CapacityError (code 6) and writes nothing
else: no pulse, `pcount` kept; the flags after it. -/
def Obligations.TransitionWithoutRoomIsCapacityError : Prop :=
  ∀ (s : State) (l : Level) (ts : Stamp),
    exec (.prOverflow l ts) s =
      .next { s with errCode := some .capacityError, humX10 := 0, tempX10 := 0, phase := .done } ∧
    (s.phase = .capture → l ≠ s.curLevel → s.cfg.maxPulses ≤ s.pcount.toNat + 1 →
      decode (smpWord s l ts) = .ok (.prOverflow l ts) ∧
      exec (.sample l ts) s = exec (.prOverflow l ts) s ∧ s.busy = true) ∧
    (∀ t, exec (.prOverflow l ts) s = .next t →
      errBits t.errCode = 6 ∧ t.busy = false ∧ t.isDone = true ∧ t.valid = false)

/-- `40_pulse_reconstructor.md` R95: a constant-level sample that is no check point only counts; its timestamp plays no
part, and with `POLL_N = 1` the operation is never selected while the poll count is in its range. -/
def Obligations.HoldOnlyCountsTheSample : Prop :=
  ∀ (s : State) (l : Level) (ts : Stamp),
    exec (.prHold l ts) s = .next { s with pollCnt := s.pollCnt + 1 } ∧
    (s.phase = .capture → l = s.curLevel → s.pollCnt + 1 ≠ s.cfg.pollN →
      decode (smpWord s l ts) = .ok (.prHold l ts) ∧ exec (.sample l ts) s = exec (.prHold l ts) s) ∧
    (s.cfg.pollN = 1 → s.pollCnt + 1 ≤ s.cfg.pollN → decode (smpWord s l ts) ≠ .ok (.prHold l ts))

/-- `40_pulse_reconstructor.md` R96: a check point at which the elapsed time does not exceed the timeout (equality
included) only restarts the poll count. -/
def Obligations.PollAtTheTimeoutGoesOn : Prop :=
  ∀ (s : State) (l : Level) (ts : Stamp),
    exec (.prPoll l ts) s = .next { s with pollCnt := 0 } ∧
    (s.phase = .capture → l = s.curLevel → s.pollCnt + 1 = s.cfg.pollN →
      (ts - s.pulseStart).toNat ≤ s.timeoutUsQ.toNat →
      decode (smpWord s l ts) = .ok (.prPoll l ts) ∧ exec (.sample l ts) s = exec (.prPoll l ts) s)

/-- `40_pulse_reconstructor.md` R97: at a check point past the timeout the final pulse is stored at `pcount` with the
duration `timeout_us_q` exactly, the frame decode runs on the pulses stored, `phase` is DONE, and the outcome is
`DecodeFrame` of those pulses (`42_frame_decoder.md` R126). The state after it is that of the frame decode, its `fb`
among it: at an illegal length `fb` is kept, at five carried bytes it is those, and at a bad pair in byte `k` it has the
bytes before `k` and keeps the others (R117, R118, `60_exceptions.md` R157). Everything the decode does not write is
kept. -/
def Obligations.TimeoutStoresTheFinalPulseAndDecodes : Prop :=
  ∀ (s : State) (l : Level) (ts : Stamp), s.cfg.wf = true → s.pcount.toNat < s.cfg.maxPulses → s.Filled →
    ∃ t : State, exec (.prTimeout l ts) s = .next t ∧
      t.phase = .done ∧ t.pollCnt = 0 ∧ t.pcount.toNat = s.pcount.toNat + 1 ∧
      t.pulseMem.get s.pcount.toNat = some ⟨s.curLevel, s.timeoutUsQ⟩ ∧
      (∀ a, a ≠ s.pcount.toNat → t.pulseMem.get a = s.pulseMem.get a) ∧
      t.pulses = s.pulses ++ [⟨s.curLevel, s.timeoutUsQ⟩] ∧
      t.outcome = decodeFrame s.cfg s.variantQ t.pulses ∧
      t.busy = false ∧ t.isDone = true ∧ (t.valid = true ↔ t.errCode = none) ∧
      t.cfg = s.cfg ∧ t.variantQ = s.variantQ ∧ t.timeoutUsQ = s.timeoutUsQ ∧ t.curLevel = s.curLevel ∧
      t.pulseStart = s.pulseStart ∧ t.inputs = s.inputs ∧
      (∃ a u : State, a.pcount = s.pcount + 1 ∧ a.pulseMem = t.pulseMem ∧ a.pollCnt = 0 ∧
        { a with pcount := s.pcount, pulseMem := s.pulseMem, pollCnt := s.pollCnt } = s ∧
        (frameDecode a = .go u ∨ frameDecode a = .ended u) ∧ t = { u with locals := .zero }) ∧
      (t.pcount.toNat < 82 ∨ 85 < t.pcount.toNat → t.fb = s.fb) ∧
      (82 ≤ t.pcount.toNat → t.pcount.toNat ≤ 85 → ∀ f : FrameBytes,
        (CarriesFrame s.cfg f t.pulses (t.pcount.toNat - 82) → t.fb = f) ∧
        ∀ (k : Fin 5) (j : Nat), j < 8 →
          (∀ m : Fin 5, m < k → CarriesByte s.cfg (f.get m) t.pulses (t.pcount.toNat - 82 + 16 * m.val)) →
          (∃ lo hi, t.pulses[t.pcount.toNat - 82 + 16 * k.val + 2 * j]? = some lo ∧
            t.pulses[t.pcount.toNat - 82 + 16 * k.val + 2 * j + 1]? = some hi ∧ BadPair s.cfg lo hi) →
          ∀ m : Fin 5, t.fb.get m = if m < k then f.get m else s.fb.get m) ∧
      (s.phase = .capture → l = s.curLevel → s.pollCnt + 1 = s.cfg.pollN →
        s.timeoutUsQ.toNat < (ts - s.pulseStart).toNat →
        decode (smpWord s l ts) = .ok (.prTimeout l ts) ∧ exec (.sample l ts) s = .next t)

/-- `70_reset_and_hazards.md` R177, `40_pulse_reconstructor.md` R101: in a capture, at most `POLL_N` samples at the open
pulse's level whose elapsed time is past the timeout end the capture. -/
def Obligations.IdleLineEndsTheCaptureWithinPollN : Prop :=
  ∀ (s : State) (samples : List Sample), s.Inv → s.phase = .capture → samples.length = s.cfg.pollN →
    (∀ x ∈ samples, x.level = s.curLevel ∧ s.timeoutUsQ.toNat < (x.ts - s.pulseStart).toNat) →
    ∃ t, feed samples s = .next t ∧ t.phase = .done ∧ t.pcount.toNat = s.pcount.toNat + 1

/-- `40_pulse_reconstructor.md` R99: the whole-sequence function and the per-sample rules give the same pulses, the same
`pcount` and the same ending for every sample list; samples after the end are never looked at. -/
def Obligations.ReconstructAgreesWithTheSampleSteps : Prop :=
  ∀ (s : State) (v : Variant) (ms : Half) (samples : List Sample), s.cfg.wf = true →
    ∃ s0 t, exec (.startGo v ms) s = .next s0 ∧ feed samples s0 = .next t ∧
      (∀ ps, reconstruct s.cfg ms samples = .pending ps →
        t.pulses = ps ∧ t.pcount.toNat = ps.length ∧ t.errCode = none ∧
        t.phase = if samples = [] then .armed else .capture) ∧
      (∀ ps, reconstruct s.cfg ms samples = .ended ps →
        t.pulses = ps ∧ t.pcount.toNat = ps.length ∧ t.phase = .done ∧ t.errCode ≠ some .capacityError) ∧
      (reconstruct s.cfg ms samples = .overflow →
        t.phase = .done ∧ t.errCode = some .capacityError ∧ t.pcount.toNat + 1 = s.cfg.maxPulses)

/-- `42_frame_decoder.md` R126, `43_control_ops.md` R139: one acquisition on the block, from a START, ends exactly when the
composition of `Reconstruct` and `DecodeFrame` has an outcome, and with that outcome. -/
def Obligations.AcquisitionIsReconstructThenDecodeFrame : Prop :=
  ∀ (s : State) (v : Variant) (ms : Half) (samples : List Sample), s.cfg.wf = true →
    ∃ s0 t, exec (.startGo v ms) s = .next s0 ∧ feed samples s0 = .next t ∧
      (acquisition s.cfg v ms samples = none ↔ t.busy = true) ∧
      (∀ r, acquisition s.cfg v ms samples = some r ↔ t.isDone = true ∧ t.outcome = r)

/-! ## The bit/byte decoder -/

/-- `41_bit_byte_decoder.md` R105, R112: sixteen pulses that carry a byte decode to it; the decode returns the byte and
writes nothing else. -/
def Obligations.ByteDecodeReturnsTheCarriedByte : Prop :=
  ∀ (s : State) (start : Half) (v : Byte), start.toNat + 16 ≤ s.pcount.toNat → s.CarriesByteAt v start.toNat →
    decode (byteWord s start) = .ok (.bdByte start) ∧
    exec (.bdByte start) s = .next { s with locals := { s.locals with byte := v } }

/-- `41_bit_byte_decoder.md` R105, R113 and `60_exceptions.md` R148: the first pair that fails a check raises
ProtocolError (code 2), whichever of the three checks it fails; pairs after it are not read, and everything but the error
entry and the byte under assembly is kept. -/
def Obligations.FirstBadPairRaisesProtocolError : Prop :=
  ∀ (s : State) (start : Half) (j : Nat), start.toNat + 16 ≤ s.pcount.toNat → j < 8 →
    (∀ i, i < j → ∃ b lo hi, s.pulseAt (start.toNat + 2 * i) = some lo ∧
      s.pulseAt (start.toNat + 2 * i + 1) = some hi ∧ CarriesBit s.cfg b lo hi) →
    (∃ lo hi, s.pulseAt (start.toNat + 2 * j) = some lo ∧ s.pulseAt (start.toNat + 2 * j + 1) = some hi ∧
      BadPair s.cfg lo hi) →
    ∃ b : Byte, exec (.bdByte start) s =
      .next { s with errCode := some .protocolError, humX10 := 0, tempX10 := 0, phase := .done
                     locals := { s.locals with byte := b } }

/-- `30_encoding.md` R72 and `41_bit_byte_decoder.md` R106: with fewer than 16 pulses from `start` the selector is BD.SHORT,
else BD.BYTE, by a test that does not wrap; and both BD.SHORT and a byte decode asked for there raise RangeError (code 5)
before any pulse is read. -/
def Obligations.TooFewPulsesIsRangeError : Prop :=
  ∀ (s : State) (start : Half),
    exec (.bdShort start) s =
      .next { s with errCode := some .rangeError, humX10 := 0, tempX10 := 0, phase := .done } ∧
    (decode (byteWord s start) = .ok (.bdShort start) ↔ s.pcount.toNat < start.toNat + 16) ∧
    (decode (byteWord s start) = .ok (.bdByte start) ↔ start.toNat + 16 ≤ s.pcount.toNat) ∧
    (s.pcount.toNat < start.toNat + 16 → exec (.bdByte start) s = exec (.bdShort start) s)

/-- `41_bit_byte_decoder.md` R107, R108, R109: each of the three pair errors raises ProtocolError, with the writes of
`raise Err` and no other. -/
def Obligations.PairErrorsRaiseProtocolError : Prop :=
  ∀ (s : State) (i : Instr), i = .bdErrPolLow ∨ i = .bdErrPolHigh ∨ i = .bdErrWidth →
    exec i s = .next { s with errCode := some .protocolError, humX10 := 0, tempX10 := 0, phase := .done }

/-- `41_bit_byte_decoder.md` R110, R111, R112: BD.BIT0 and BD.BIT1 write bit `7 - i` of the byte, keep its other bits, and
write nothing else. -/
def Obligations.PairBitLandsMostSignificantFirst : Prop :=
  ∀ (s : State) (i : BitVec 3), ∃ z o : Byte,
    exec (.bdBit0 i) s = .next { s with locals := { s.locals with byte := z } } ∧
    exec (.bdBit1 i) s = .next { s with locals := { s.locals with byte := o } } ∧
    z.getLsbD (7 - i.toNat) = false ∧ o.getLsbD (7 - i.toNat) = true ∧
    ∀ k, k ≠ 7 - i.toNat → z.getLsbD k = s.locals.byte.getLsbD k ∧ o.getLsbD k = s.locals.byte.getLsbD k

/-- `30_encoding.md` R69, `41_bit_byte_decoder.md` R113: for two entries that hold values, the PAIR selector picks the
operation by the checks in their order, and the byte decode does at that pair what the operation does. -/
def Obligations.PairSelectorPicksTheFirstFailingCheck : Prop :=
  ∀ (s : State) (start : Half) (i : BitVec 3) (lo hi : Pulse),
    s.pulseAt (start.toNat + 2 * i.toNat) = some lo → s.pulseAt (start.toNat + 2 * i.toNat + 1) = some hi →
    ∃ op : Instr, decode (pairWord s.cfg lo hi i) = .ok op ∧ exec op s = (bdPair start i s).outcome ∧
      op = if lo.level = true then .bdErrPolLow
           else if hi.level = false then .bdErrPolHigh
           else if s.cfg.highMaxUs < hi.dur.toNat then .bdErrWidth
           else if s.cfg.bitThresholdUs < hi.dur.toNat then .bdBit1 i
           else .bdBit0 i

/-! ## The frame decoder -/

/-- `42_frame_decoder.md` R116, R117: for `n = pcount` the LEN selector picks FD.TRIM exactly for 82 to 85, with
`base = n - 82` and nothing else written, and FD.LENERR for every other count, which raises FrameLengthError (code 3) with
the writes of `raise Err` and no other (`fb` kept, no pulse read). -/
def Obligations.LengthDecidesTrimOrFrameLengthError : Prop :=
  ∀ (s : State) (n : Half),
    (82 ≤ n.toNat ∧ n.toNat ≤ 85 → decode (lenWord n) = .ok (.fdTrim n) ∧
      ∃ base : Half, base.toNat = n.toNat - 82 ∧
        exec (.fdTrim n) s = .next { s with locals := { s.locals with base := base } }) ∧
    (n.toNat < 82 ∨ 85 < n.toNat → decode (lenWord n) = .ok (.fdLenErr n)) ∧
    exec (.fdLenErr n) s =
      .next { s with errCode := some .frameLengthError, humX10 := 0, tempX10 := 0, phase := .done }

/-- `42_frame_decoder.md` R118: when the eighty pulses from `base` carry five bytes, FD.BYTES writes them to `fb[0..4]` in
order and nothing else but the value inside the decode. -/
def Obligations.FrameBytesAreTheCarriedBytes : Prop :=
  ∀ (s : State) (f : FrameBytes), s.locals.base.toNat + 80 ≤ s.pcount.toNat →
    (∀ k : Fin 5, s.CarriesByteAt (f.get k) (s.locals.base.toNat + 16 * k.val)) →
    exec .fdBytes s = .next { s with fb := f, locals := { s.locals with byte := f.b4 } }

/-- `42_frame_decoder.md` R118, `60_exceptions.md` R157: when bytes 0 to k-1 are carried and a pair of byte `k` is bad,
ProtocolError is raised with `fb[0..k-1]` decoded and `fb[k..4]` as they were. -/
def Obligations.ByteErrorKeepsTheBytesBefore : Prop :=
  ∀ (s : State) (f : FrameBytes) (k : Fin 5) (j : Nat), s.locals.base.toNat + 80 ≤ s.pcount.toNat → j < 8 →
    (∀ m : Fin 5, m < k → s.CarriesByteAt (f.get m) (s.locals.base.toNat + 16 * m.val)) →
    (∀ i, i < j → ∃ b lo hi, s.pulseAt (s.locals.base.toNat + 16 * k.val + 2 * i) = some lo ∧
      s.pulseAt (s.locals.base.toNat + 16 * k.val + 2 * i + 1) = some hi ∧ CarriesBit s.cfg b lo hi) →
    (∃ lo hi, s.pulseAt (s.locals.base.toNat + 16 * k.val + 2 * j) = some lo ∧
      s.pulseAt (s.locals.base.toNat + 16 * k.val + 2 * j + 1) = some hi ∧
      BadPair s.cfg lo hi) →
    ∃ t, exec .fdBytes s = .next t ∧ t.errCode = some .protocolError ∧ t.phase = .done ∧
      t.humX10 = 0 ∧ t.tempX10 = 0 ∧
      (∀ m : Fin 5, t.fb.get m = if m < k then f.get m else s.fb.get m) ∧
      { t with errCode := s.errCode, phase := s.phase, humX10 := s.humX10, tempX10 := s.tempX10
               fb := s.fb, locals := s.locals } = s

/-- `42_frame_decoder.md` R119: FD.CSUM passes without a change when `fb[4]` is the sum of the other four modulo 256, and
raises ChecksumError (code 4), with `fb` kept, when it is not. -/
def Obligations.ChecksumIsTheSumModulo256 : Prop :=
  ∀ s : State,
    (s.fb.b4.toNat = (s.fb.b0.toNat + s.fb.b1.toNat + s.fb.b2.toNat + s.fb.b3.toNat) % 256 →
      exec .fdCsum s = .next s) ∧
    (s.fb.b4.toNat ≠ (s.fb.b0.toNat + s.fb.b1.toNat + s.fb.b2.toNat + s.fb.b3.toNat) % 256 →
      exec .fdCsum s =
        .next { s with errCode := some .checksumError, humX10 := 0, tempX10 := 0, phase := .done })

/-- `42_frame_decoder.md` R119: changing any one of the five bytes of a passing frame makes it fail. -/
def Obligations.OneMutatedByteFailsTheChecksum : Prop :=
  ∀ (s : State) (k : Fin 5) (v : Byte), exec .fdCsum s = .next s → s.errCode = none → v ≠ s.fb.get k →
    exec .fdCsum { s with fb := s.fb.set k v } =
      .next { s with fb := s.fb.set k v, errCode := some .checksumError, humX10 := 0, tempX10 := 0, phase := .done }

/-- `42_frame_decoder.md` R120: Variant A's conversion in exact integers; `fb[1]` and `fb[3]` are not read, nothing else
is written, and the STEP selector picks it for `variant_q = 0`. -/
def Obligations.VariantAConvertsTwoBytes : Prop :=
  ∀ s : State, ∃ h t : Half, exec .fdConvA s = .next { s with humX10 := h, tempX10 := t } ∧
    h.toNat = s.fb.b0.toNat * 10 ∧ t.toInt = s.fb.b2.toNat * 10 ∧
    decode (stepWord 4 .a) = .ok .fdConvA

/-- `42_frame_decoder.md` R121: Variant B's conversion in exact integers: a 16-bit humidity, a sign-and-magnitude
temperature, negative zero giving 0; nothing else is written, and the STEP selector picks it for `variant_q = 1`. -/
def Obligations.VariantBConvertsSignAndMagnitude : Prop :=
  ∀ s : State, ∃ h t : Half, exec .fdConvB s = .next { s with humX10 := h, tempX10 := t } ∧
    h.toNat = s.fb.b0.toNat * 256 + s.fb.b1.toNat ∧
    (t.toInt = if 128 ≤ s.fb.b2.toNat
      then -((s.fb.b2.toNat - 128 : Nat) * 256 + s.fb.b3.toNat : Int)
      else (s.fb.b2.toNat : Int) * 256 + s.fb.b3.toNat) ∧
    decode (stepWord 4 .b) = .ok .fdConvB

/-- `42_frame_decoder.md` R122: FD.RANGE passes without a change up to exactly 100.0 percent and raises RangeError above
it, clearing the results. -/
def Obligations.HumidityAboveHundredIsRangeError : Prop :=
  ∀ s : State,
    (s.humX10.toNat ≤ 1000 → exec .fdRange s = .next s) ∧
    (1000 < s.humX10.toNat →
      exec .fdRange s = .next { s with errCode := some .rangeError, humX10 := 0, tempX10 := 0, phase := .done })

/-- `42_frame_decoder.md` R124: FD.COMMIT writes `err_code <- 0` and `phase <- DONE`, keeps the Reading, and `valid` and
`done` are 1 after it. -/
def Obligations.CommitPublishesTheReading : Prop :=
  ∀ s : State, exec .fdCommit s = .next { s with errCode := none, phase := .done } ∧
    ∀ t, exec .fdCommit s = .next t → t.isDone = true ∧ t.valid = true ∧ t.humX10 = s.humX10 ∧ t.tempX10 = s.tempX10

/-- `42_frame_decoder.md` R115, `60_exceptions.md` R155 item 3: a decode is its operations run one by one in their order,
each selected by its LEN or STEP word, to the end when it goes through and up to the one that raises when it is ended;
the kind of the error is that operation's; and a bad pair anywhere in a payload of legal length is ProtocolError, whatever
the checksum and the humidity. -/
def Obligations.FrameDecodeIsItsStepsInOrder : Prop :=
  (∀ s t : State, frameDecode s = .go t →
    ∃ s1 s2 s3 s4 s5 conv, decode (lenWord s.pcount) = .ok (.fdTrim s.pcount) ∧
      exec (.fdTrim s.pcount) s = .next s1 ∧
      decode (stepWord 2 s.variantQ) = .ok .fdBytes ∧ exec .fdBytes s1 = .next s2 ∧
      decode (stepWord 3 s.variantQ) = .ok .fdCsum ∧ exec .fdCsum s2 = .next s3 ∧
      decode (stepWord 4 s.variantQ) = .ok conv ∧ exec conv s3 = .next s4 ∧
      decode (stepWord 5 s.variantQ) = .ok .fdRange ∧ exec .fdRange s4 = .next s5 ∧
      decode (stepWord 6 s.variantQ) = .ok .fdCommit ∧ exec .fdCommit s5 = .next t) ∧
  (∀ s t : State, frameDecode s = .ended t →
    (decode (lenWord s.pcount) = .ok (.fdLenErr s.pcount) ∧ exec (.fdLenErr s.pcount) s = .next t ∧
      t.errCode = some .frameLengthError) ∨
    ∃ s1, decode (lenWord s.pcount) = .ok (.fdTrim s.pcount) ∧ exec (.fdTrim s.pcount) s = .next s1 ∧
      ((exec .fdBytes s1 = .next t ∧ t.errCode = some .protocolError) ∨
        ∃ s2, exec .fdBytes s1 = .next s2 ∧ s2.errCode = s.errCode ∧
          ((exec .fdCsum s2 = .next t ∧ t.errCode = some .checksumError) ∨
            ∃ s3 s4 conv, exec .fdCsum s2 = .next s3 ∧ s3.errCode = s.errCode ∧
              decode (stepWord 4 s.variantQ) = .ok conv ∧ exec conv s3 = .next s4 ∧ s4.errCode = s.errCode ∧
              exec .fdRange s4 = .next t ∧ t.errCode = some .rangeError))) ∧
  (∀ (c : Config) (v : Variant) (ps : List Pulse) (j : Nat) (lo hi : Pulse), 82 ≤ ps.length → ps.length ≤ 85 → j < 40 →
    ps[ps.length - 82 + 2 * j]? = some lo → ps[ps.length - 82 + 2 * j + 1]? = some hi → BadPair c lo hi →
    decodeFrame c v ps = .error .protocolError)

/-- D0's properties E1, E4 to E7 (`42_frame_decoder.md` R115 to R127): a train of 82 to 85 pulses whose payload carries five
bytes gives the Reading of those bytes, or ChecksumError, or RangeError, as exact arithmetic says, whatever the preamble,
the tail, the low durations and the parameters. -/
def Obligations.WellFormedTrainGivesTheReadingItCarries : Prop :=
  ∀ (c : Config) (v : Variant) (f : FrameBytes) (ps : List Pulse), 82 ≤ ps.length → ps.length ≤ 85 →
    CarriesFrame c f ps (ps.length - 82) → (decodeFrame c v ps).reading = some (readingOf v f)

/-- `42_frame_decoder.md` R127: the decode does not look at the preamble, at the tail, nor at the duration of any low pulse
of the payload: two trains of legal lengths whose payloads agree in every level and in every odd entry's duration have the
same outcome. -/
def Obligations.PreambleTailAndLowDurationsAreNotLookedAt : Prop :=
  ∀ (c : Config) (v : Variant) (ps qs : List Pulse),
    82 ≤ ps.length → ps.length ≤ 85 → 82 ≤ qs.length → qs.length ≤ 85 →
    (∀ (i : Nat) (p q : Pulse), i < 80 → ps[ps.length - 82 + i]? = some p → qs[qs.length - 82 + i]? = some q →
      p.level = q.level ∧ (i % 2 = 1 → p.dur = q.dur)) →
    decodeFrame c v ps = decodeFrame c v qs

/-- `42_frame_decoder.md` R117, `60_exceptions.md` R149: any other pulse count is FrameLengthError, whatever the pulses. -/
def Obligations.OtherPulseCountsAreFrameLengthError : Prop :=
  ∀ (c : Config) (v : Variant) (ps : List Pulse), ps.length ≤ 65535 → ps.length < 82 ∨ 85 < ps.length →
    decodeFrame c v ps = .error .frameLengthError

/-- `42_frame_decoder.md` R128: on alternating pulses the outcome can be a polarity error only through the first pulse of the
payload: if that is high it is ProtocolError, and if it is low and no payload high pulse is too long it is not. -/
def Obligations.AlternatingTrainFailsPolarityOnlyAtItsFirstPair : Prop :=
  ∀ (c : Config) (v : Variant) (ps : List Pulse) (first : Pulse), 82 ≤ ps.length → ps.length ≤ 85 →
    (∀ i p q, ps[i]? = some p → ps[i + 1]? = some q → p.level ≠ q.level) →
    ps[ps.length - 82]? = some first →
    (first.level = true → decodeFrame c v ps = .error .protocolError) ∧
    (first.level = false →
      (∀ i p, i < 80 → i % 2 = 1 → ps[ps.length - 82 + i]? = some p → p.dur.toNat ≤ c.highMaxUs) →
      decodeFrame c v ps ≠ .error .protocolError)

/-- `10_state.md` R29: a Reading is in bounds: humidity 0 to 1000 tenths, temperature -32767 to 32767 tenths. -/
def Obligations.ReadingStaysInBounds : Prop :=
  ∀ (c : Config) (v : Variant) (ps : List Pulse) (h t : Half), decodeFrame c v ps = .ok h t →
    h.toNat ≤ 1000 ∧ -32767 ≤ t.toInt ∧ t.toInt ≤ 32767

/-! ## Errors, flags, ports, the whole machine -/

/-- `60_exceptions.md` R156, R157: whatever operation raises an error from an error-free state, the error entry is the same:
results 0, DONE, and the configuration, the open pulse, the parameters and the inputs kept. -/
def Obligations.EveryErrorEntryIsAllOrNothing : Prop :=
  ∀ (i : Instr) (s t : State) (k : ErrKind), exec i s = .next t → s.errCode = none → t.errCode = some k →
    t.phase = .done ∧ t.humX10 = 0 ∧ t.tempX10 = 0 ∧ t.busy = false ∧ t.isDone = true ∧ t.valid = false ∧
    t.variantQ = s.variantQ ∧ t.timeoutUsQ = s.timeoutUsQ ∧ t.curLevel = s.curLevel ∧ t.pulseStart = s.pulseStart ∧
    t.cfg = s.cfg ∧ t.inputs = s.inputs

/-- `10_state.md` R30, R31: the three flags are the stated functions of `phase` and `err_code`, and the fields of STATUS
stand at their bits. -/
def Obligations.FlagsAndStatusFollowPhaseAndErrorCode : Prop :=
  ∀ s : State, (s.busy = true ↔ s.phase = .armed ∨ s.phase = .capture) ∧ s.busy = s.phase.bits.getLsbD 1 ∧
    (s.isDone = true ↔ s.phase = .done) ∧ (s.valid = true ↔ s.phase = .done ∧ errBits s.errCode = 0) ∧
    s.statusWord.getLsbD 0 = s.busy ∧ s.statusWord.getLsbD 1 = s.isDone ∧ s.statusWord.getLsbD 2 = s.valid ∧
    s.statusWord.extractLsb' 3 3 = errBits s.errCode ∧ s.statusWord.extractLsb' 6 2 = s.phase.bits

/-- `60_exceptions.md` R160: the debug port shows the entry at `dbg_addr` when `dbg_addr < pcount`, and the model gives no
value otherwise; the memory below `pcount` being filled (`20_memory.md` R48). -/
def Obligations.DebugPortShowsClosedPulses : Prop :=
  ∀ (s : State) (a : Half), s.Filled →
    (a.toNat < s.pcount.toNat → ∃ p, s.dbgPort a = some p ∧ s.pulseMem.get a.toNat = some p) ∧
    (s.pcount.toNat ≤ a.toNat → s.dbgPort a = none)

/-- `43_control_ops.md` R138: from every state, a step made by a clock edge (or by none) changes `phase` only as the table
says, by the operation the table names, and with the error code it names. -/
def Obligations.PhaseChangesOnlyByTheTable : Prop :=
  ∀ s t : State, (∀ x ∈ s.inputs, x.isClock = true) → step s = .next t →
    (fetch s = .ok .reset ∧ t.phase = .idle) ∨
    ((∃ v ms, fetch s = .ok (.startGo v ms)) ∧ (s.phase = .idle ∨ s.phase = .done) ∧ t.phase = .armed) ∨
    (∃ l ts, fetch s = .ok (.sample l ts) ∧ decode (smpWord s l ts) = .ok (.prFirst l ts) ∧ s.phase = .armed ∧
      t.phase = .capture) ∨
    (∃ l ts, fetch s = .ok (.sample l ts) ∧ decode (smpWord s l ts) = .ok (.prOverflow l ts) ∧ s.phase = .capture ∧
      t.phase = .done ∧ t.errCode = some .capacityError) ∨
    (∃ l ts, fetch s = .ok (.sample l ts) ∧ decode (smpWord s l ts) = .ok (.prTimeout l ts) ∧ s.phase = .capture ∧
      t.phase = .done ∧ t.errCode ≠ some .ioError ∧ t.errCode ≠ some .capacityError) ∨
    (fetch s = .ok .ioerrBusy ∧ (s.phase = .armed ∨ s.phase = .capture) ∧ t.phase = .done ∧
      t.errCode = some .ioError) ∨
    (t.phase = s.phase ∧ fetch s ≠ .ok .reset ∧ (∀ v ms, fetch s ≠ .ok (.startGo v ms)) ∧ fetch s ≠ .ok .ioerrBusy ∧
      ∀ l ts, fetch s = .ok (.sample l ts) → decode (smpWord s l ts) ≠ .ok (.prFirst l ts) ∧
        decode (smpWord s l ts) ≠ .ok (.prOverflow l ts) ∧ decode (smpWord s l ts) ≠ .ok (.prTimeout l ts))

/-- `43_control_ops.md` R140, `20_memory.md` R60: in DONE, a clock edge that is neither RESET nor START changes nothing at
all: the outcome, the frame bytes and the pulses stay readable. -/
def Obligations.OutcomeIsHeldUntilStartOrReset : Prop :=
  ∀ (s : State) (p : Ports) (rest : List Input), s.inputs = .clock p :: rest → s.phase = .done →
    p.rst = false → (p.start = true → p.ioErr = true) → step s = .next { s with inputs := rest }

/-- `20_memory.md` R59, `70_reset_and_hazards.md` R174, `00_scope.md` R6: `variant_q` and `timeout_us_q` change only at
START.GO and RESET; no operation changes a parameter, and none touches the inputs still to come; the parameters of the
build are those of its reset state, and no step changes one. -/
def Obligations.ConfigurationIsLatchedAtStart : Prop :=
  (∀ (i : Instr) (s t : State), exec i s = .next t →
    t.cfg = s.cfg ∧ t.inputs = s.inputs ∧
    (i ≠ .reset → (∀ v ms, i ≠ .startGo v ms) → t.variantQ = s.variantQ ∧ t.timeoutUsQ = s.timeoutUsQ)) ∧
  (∀ c : Config, (State.resetOf c).cfg = c ∧ (machineOf c).reset = State.resetOf c) ∧
  (∀ s t : State, step s = .next t → t.cfg = s.cfg)

/-- The model's two stops (log entries 7, 8; `20_memory.md` R45, R48): an append where no entry exists, and a byte decode's
read of an entry that holds no value, after pairs that carry bits. No state that meets `State.Inv` reaches one. -/
def Obligations.AccessToNoEntryStops : Prop :=
  (∀ (s : State) (l : Level) (ts : Stamp), s.cfg.maxPulses ≤ s.pcount.toNat →
    exec (.prEdge l ts) s = .fault (.pulseWriteOutside s.pcount.toNat) ∧
    exec (.prTimeout l ts) s = .fault (.pulseWriteOutside s.pcount.toNat)) ∧
  (∀ (s : State) (start : Half) (j : Nat), start.toNat + 16 ≤ s.pcount.toNat → j < 8 →
    (∀ i, i < j → ∃ b lo hi, s.pulseAt (start.toNat + 2 * i) = some lo ∧
      s.pulseAt (start.toNat + 2 * i + 1) = some hi ∧ CarriesBit s.cfg b lo hi) →
    (s.pulseAt (start.toNat + 2 * j) = none →
      exec (.bdByte start) s = .fault (.pulseReadNoValue (start.toNat + 2 * j))) ∧
    (∀ lo, s.pulseAt (start.toNat + 2 * j) = some lo → lo.level = false →
      s.pulseAt (start.toNat + 2 * j + 1) = none →
      exec (.bdByte start) s = .fault (.pulseReadNoValue (start.toNat + 2 * j + 1))))

/-- `20_memory.md` R49: the only writes of the pulse memory are appends at `pcount`, one at most per operation, made by
PR.EDGE and PR.TIMEOUT (and SAMPLE through them), with `pcount` one higher after it; every other entry reads as before, and
`pcount` changes at nothing else but START.GO and RESET, so no entry is written twice in one acquisition. -/
def Obligations.PulseMemoryIsOnlyAppendedTo : Prop :=
  ∀ (i : Instr) (s t : State), exec i s = .next t →
    (t.pulseMem = s.pulseMem ∧ (t.pcount = s.pcount ∨ i = .reset ∨ ∃ v ms, i = .startGo v ms)) ∨
    ((∃ l ts, i = .prEdge l ts ∨ i = .prTimeout l ts ∨ i = .sample l ts) ∧
      s.pcount.toNat < s.cfg.maxPulses ∧ t.pcount = s.pcount + 1 ∧
      (∃ p, t.pulseMem.get s.pcount.toNat = some p ∧ p.level = s.curLevel) ∧
      ∀ a, a ≠ s.pcount.toNat → t.pulseMem.get a = s.pulseMem.get a)

/-- The invariants of `10_state.md` R38 hold at reset, of the default build and of every build with legal parameters
(`00_scope.md` R6). -/
def Obligations.InvariantsHoldAtReset : Prop :=
  State.reset.Inv ∧ ∀ c : Config, c.wf = true → (State.resetOf c).Inv

/-- `10_state.md` R38: from every state that meets the invariants, a step keeps them. -/
def Obligations.EveryStepKeepsTheInvariants : Prop :=
  ∀ s t : State, s.Inv → step s = .next t → t.Inv

/-- `43_control_ops.md` R130, R138: from every state that meets the invariants, a step completes: no fault, no refusal, so
no access outside the pulse memory and no read of an entry without a value (`20_memory.md` R48). -/
def Obligations.EveryStepCompletesUnderTheInvariants : Prop :=
  ∀ s : State, s.Inv → ∃ t, step s = .next t

/-- `20_memory.md` R61: under the invariants the levels alternate: entry `i` has the level of entry 0 flipped `i` times. -/
def Obligations.LevelsAlternateFromEntryZero : Prop :=
  ∀ (s : State) (i : Nat) (p q : Pulse), s.Inv → s.pulseAt 0 = some p → s.pulseAt i = some q →
    q.level = (p.level != decide (i % 2 = 1))

/-! ## Encodings -/

/-- `30_encoding.md` R67 to R72: decode and encode agree, for every well-formed operation and every operand value. -/
def Obligations.DecodeOfEncodeIsTheOperation : Prop :=
  ∀ i : Instr, i.wf = true → decode (encode i) = .ok i

/-- Whatever a selector word decodes to is well formed: a legal count for FD.TRIM, an illegal one for FD.LENERR
(`30_encoding.md` R70). -/
def Obligations.DecodedOperationsAreWellFormed : Prop :=
  ∀ (w : OpWord) (i : Instr), decode w = .ok i → i.wf = true

/-- `30_encoding.md` R67 to R72: no word of a format fits two rows, but for LEN, whose last row every count fits (R70);
every word of SMP, BYTE and PAIR fits one; a CMD word fits one unless it is a START or IOERR, which `busy` splits (2 to 7),
a CMDB word fits one exactly if it is a START or IOERR (4 to 15), and a STEP word exactly if its step is 2 to 6 (step 1 is
LEN's, 0 and 7 do not occur); and every setting of the strobes and `busy` selects an operation. -/
def Obligations.SelectorPatternsAreDisjointAndCover : Prop :=
  (∀ w : Half, w.toNat < 64 → (opcodeTable.filter fun r => r.fmt == .smp && r.hits w).length = 1) ∧
  (∀ w : Half, w.toNat < 2 → (opcodeTable.filter fun r => r.fmt == .byte && r.hits w).length = 1) ∧
  (∀ w : Half, w.toNat < 16 → (opcodeTable.filter fun r => r.fmt == .pair && r.hits w).length = 1) ∧
  (∀ w : Half, w.toNat < 16 → (opcodeTable.filter fun r => r.fmt == .cmd && r.hits w).length =
    if 2 ≤ w.toNat ∧ w.toNat ≤ 7 then 0 else 1) ∧
  (∀ w : Half, w.toNat < 32 → (opcodeTable.filter fun r => r.fmt == .cmdb && r.hits w).length =
    if 4 ≤ w.toNat ∧ w.toNat ≤ 15 then 1 else 0) ∧
  (∀ w : Half, w.toNat < 16 → (opcodeTable.filter fun r => r.fmt == .step && r.hits w).length =
    if 4 ≤ w.toNat ∧ w.toNat ≤ 13 then 1 else 0) ∧
  (∀ w : Half, (opcodeTable.filter fun r => r.fmt == .len && r.hits w).length =
    if 82 ≤ w.toNat ∧ w.toNat ≤ 85 then 2 else 1) ∧
  (∀ (p : Ports) (busy : Bool), ∃ i, selectCommand p busy = .ok i)

/-- Words written out from the patterns of `30_encoding.md` R67 to R71 decode to the operations they stand for; and STEP 7,
which R71 and R82 say does not occur, decodes to none (the model's choice, log entry 14). -/
def Obligations.WordsFromTheSpecDecode : Prop :=
  decode ⟨.cmd, 0b1011, .zero⟩ = .ok .reset ∧
  decode ⟨.cmdb, 0b00110, .ofStart .b 0xFFFF⟩ = .ok (.startGo .b 0xFFFF) ∧
  decode ⟨.cmdb, 0b01111, .zero⟩ = .ok .ioerrBusy ∧
  decode ⟨.smp, 0b111011, .ofSample true 0x3E8⟩ = .ok (.prEdge true 0x3E8) ∧
  decode ⟨.smp, 0b110111, .ofSample false 7⟩ = .ok (.prTimeout false 7) ∧
  decode ⟨.pair, 0b0110, .ofBit 3⟩ = .ok .bdErrWidth ∧
  decode ⟨.pair, 0b0101, .ofBit 3⟩ = .ok (.bdBit1 3) ∧
  decode ⟨.len, 0x0055, .zero⟩ = .ok (.fdTrim 0x0055) ∧
  decode ⟨.len, 0x0056, .zero⟩ = .ok (.fdLenErr 0x0056) ∧
  decode ⟨.step, 0b1001, .zero⟩ = .ok .fdConvB ∧
  decode ⟨.step, 0b1110, .zero⟩ = .error .reservedStep

/-- `30_encoding.md` R84: each trace line puts on the ports the strobes and operands that select its command. -/
def Obligations.TraceLinesSelectTheirCommands : Prop :=
  ∀ (v : Variant) (ms : Half) (l : Level) (ts : Stamp) (busy : Bool),
    selectCommand TraceLine.reset.ports busy = .ok .reset ∧
    selectCommand (TraceLine.start v ms).ports busy =
      .ok (if busy then .startDrop v ms else .startGo v ms) ∧
    selectCommand (TraceLine.s l ts).ports busy = .ok (.sample l ts) ∧
    selectCommand TraceLine.ioerr.ports busy = .ok (if busy then .ioerrBusy else .ioerrDrop) ∧
    selectCommand TraceLine.nop.ports busy = .ok .nop

/-! ## The host's side -/

/-- `60_exceptions.md` R164, R165 (software of the host): when attempts 0 to n-1 fail and attempt n gives a Reading,
`read_with_retry` returns it with `retries_used = n` if `max_retries` is at least n; and when every attempt its budget
allows fails, whatever a later one would give, it returns the error of the last, and no later attempt plays a part. -/
def Obligations.RetryReturnsTheFirstReadingOrTheLastError : Prop :=
  (∀ (attempt : Nat → Except ErrKind Reading) (n maxRetries : Nat) (r : Reading),
    (∀ j, j < n → ∃ k, attempt j = .error k) → attempt n = .ok r → n ≤ maxRetries →
    readWithRetry attempt maxRetries = .ok (r, n)) ∧
  (∀ (attempt : Nat → Except ErrKind Reading) (maxRetries : Nat) (k : ErrKind),
    (∀ j, j ≤ maxRetries → ∃ e, attempt j = .error e) → attempt maxRetries = .error k →
    readWithRetry attempt maxRetries = .error k) ∧
  (∀ (a b : Nat → Except ErrKind Reading) (maxRetries : Nat),
    (∀ j, j ≤ maxRetries → a j = b j) → readWithRetry a maxRetries = readWithRetry b maxRetries)
end

