-- ==== Sys2Proof/Laws/Memory.lean ====
section
/-! SUPPORT. The laws of the pulse memory: a read after a write, that every write keeps the canonical form, that a memory
is determined by what is listed, and the memory that holds a given list of pulses. -/

namespace Sys2Proof.Machine

@[simp] theorem Memory.get_nil (a : Nat) : Memory.get [] a = none := rfl

theorem Memory.get_put_self (m : Memory) (a : Nat) (p : Pulse) : (m.put a p).get a = some p := by
  induction m with
  | nil => simp [Memory.put, Memory.get]
  | cons x m ih =>
    obtain ⟨i, q⟩ := x
    simp only [Memory.put]
    split
    · simp [Memory.get]
    · split
      · simp [Memory.get]
      · rename_i _ hne
        simp [Memory.get, Ne.symm hne, ih]

theorem Memory.get_put_ne (m : Memory) {a b : Nat} (p : Pulse) (h : b ≠ a) : (m.put a p).get b = m.get b := by
  induction m with
  | nil => simp [Memory.put, Memory.get, Ne.symm h]
  | cons x m ih =>
    obtain ⟨i, q⟩ := x
    simp only [Memory.put]
    split
    · simp [Memory.get, Ne.symm h]
    · split
      · rename_i _ heq
        subst heq
        simp [Memory.get, Ne.symm h]
      · simp [Memory.get, ih]

/-- What a put memory lists: the new entry, and the old ones elsewhere. -/
theorem Memory.get_put (m : Memory) (a b : Nat) (p : Pulse) :
    (m.put a p).get b = if b = a then some p else m.get b := by
  split
  · rename_i h
    rw [h, Memory.get_put_self]
  · rename_i h
    exact Memory.get_put_ne m p h

/-- A put list begins at the new index or at the old first one. -/
theorem Memory.wf_put_cons (m : Memory) (a b : Nat) (p q : Pulse) (hb : b < a)
    (h : Memory.wf ((b, q) :: m) = true) : Memory.wf ((b, q) :: m.put a p) = true := by
  induction m generalizing b q with
  | nil => simpa [Memory.put, Memory.wf] using hb
  | cons x m ih =>
    obtain ⟨i, r⟩ := x
    simp only [Memory.wf, Bool.and_eq_true, decide_eq_true_eq] at h
    simp only [Memory.put]
    split
    · rename_i hlt
      simp [Memory.wf, hb, hlt, h.2]
    · split
      · rename_i _ heq
        subst heq
        have h2 := h.2
        cases m with
        | nil => simp [Memory.wf, hb]
        | cons y m =>
          obtain ⟨j, r'⟩ := y
          simp only [Memory.wf, Bool.and_eq_true, decide_eq_true_eq] at h2 ⊢
          exact ⟨hb, h2⟩
      · rename_i h1 h2
        have hlt : i < a := by omega
        simp only [Memory.wf, Bool.and_eq_true, decide_eq_true_eq]
        exact ⟨h.1, ih i r hlt h.2⟩

/-- Every write keeps the canonical form. -/
theorem Memory.wf_put (m : Memory) (a : Nat) (p : Pulse) (h : m.wf = true) : (m.put a p).wf = true := by
  cases m with
  | nil => rfl
  | cons x m =>
    obtain ⟨i, q⟩ := x
    simp only [Memory.put]
    split
    · rename_i hlt
      simp [Memory.wf, hlt, h]
    · split
      · rename_i _ heq
        subst heq
        cases m with
        | nil => rfl
        | cons y m => simpa [Memory.wf] using h
      · rename_i h1 h2
        exact Memory.wf_put_cons m a i p q (by omega) h

/-- What `memoryFrom` lists. -/
theorem memoryFrom_get (i : Nat) (ps : List Pulse) (a : Nat) (h : i ≤ a) : (memoryFrom i ps).get a = ps[a - i]? := by
  induction ps generalizing i with
  | nil => simp [memoryFrom]
  | cons p ps ih =>
    simp only [memoryFrom, Memory.get]
    by_cases hia : i = a
    · simp [hia]
    · have : a - i = (a - (i + 1)) + 1 := by omega
      rw [if_neg hia, ih (i + 1) (by omega), this, List.getElem?_cons_succ]

end Sys2Proof.Machine
end

