-- ==== Sys2Proof/Laws/State.lean ====
section
/-! SUPPORT. One lemma per field for each named update of the state, and the small laws of the frame bytes, so that no
later proof unfolds a record update. -/

namespace Sys2Proof.Machine

/-! ## The error entry -/

section withError
variable (s : State) (k : ErrKind)
@[simp] theorem withError_cfg : (s.withError k).cfg = s.cfg := rfl
@[simp] theorem withError_phase : (s.withError k).phase = .done := rfl
@[simp] theorem withError_errCode : (s.withError k).errCode = some k := rfl
@[simp] theorem withError_variantQ : (s.withError k).variantQ = s.variantQ := rfl
@[simp] theorem withError_timeoutUsQ : (s.withError k).timeoutUsQ = s.timeoutUsQ := rfl
@[simp] theorem withError_curLevel : (s.withError k).curLevel = s.curLevel := rfl
@[simp] theorem withError_pulseStart : (s.withError k).pulseStart = s.pulseStart := rfl
@[simp] theorem withError_pollCnt : (s.withError k).pollCnt = s.pollCnt := rfl
@[simp] theorem withError_pcount : (s.withError k).pcount = s.pcount := rfl
@[simp] theorem withError_pulseMem : (s.withError k).pulseMem = s.pulseMem := rfl
@[simp] theorem withError_fb : (s.withError k).fb = s.fb := rfl
@[simp] theorem withError_humX10 : (s.withError k).humX10 = 0 := rfl
@[simp] theorem withError_tempX10 : (s.withError k).tempX10 = 0 := rfl
@[simp] theorem withError_locals : (s.withError k).locals = s.locals := rfl
@[simp] theorem withError_inputs : (s.withError k).inputs = s.inputs := rfl
@[simp] theorem withError_pulseAt (i : Nat) : (s.withError k).pulseAt i = s.pulseAt i := rfl
end withError

/-! ## Using up an input -/

section consume
variable (s : State)
@[simp] theorem consume_cfg : s.consume.cfg = s.cfg := rfl
@[simp] theorem consume_phase : s.consume.phase = s.phase := rfl
@[simp] theorem consume_errCode : s.consume.errCode = s.errCode := rfl
@[simp] theorem consume_variantQ : s.consume.variantQ = s.variantQ := rfl
@[simp] theorem consume_timeoutUsQ : s.consume.timeoutUsQ = s.timeoutUsQ := rfl
@[simp] theorem consume_curLevel : s.consume.curLevel = s.curLevel := rfl
@[simp] theorem consume_pulseStart : s.consume.pulseStart = s.pulseStart := rfl
@[simp] theorem consume_pollCnt : s.consume.pollCnt = s.pollCnt := rfl
@[simp] theorem consume_pcount : s.consume.pcount = s.pcount := rfl
@[simp] theorem consume_pulseMem : s.consume.pulseMem = s.pulseMem := rfl
@[simp] theorem consume_fb : s.consume.fb = s.fb := rfl
@[simp] theorem consume_humX10 : s.consume.humX10 = s.humX10 := rfl
@[simp] theorem consume_tempX10 : s.consume.tempX10 = s.tempX10 := rfl
@[simp] theorem consume_locals : s.consume.locals = s.locals := rfl
@[simp] theorem consume_inputs : s.consume.inputs = s.inputs.tail := rfl
@[simp] theorem consume_pulseAt (i : Nat) : s.consume.pulseAt i = s.pulseAt i := rfl
end consume

/-- The inputs after an input at the head is used up. -/
theorem consume_of_cons {s : State} {x : Input} {rest : List Input} (h : s.inputs = x :: rest) :
    s.consume = { s with inputs := rest } := by
  simp [State.consume, h]

/-- With no input there is nothing to use up. -/
theorem consume_of_nil {s : State} (h : s.inputs = []) : s.consume = s := by
  obtain ⟨_⟩ := s
  simp only at h
  subst h
  rfl

/-! ## The flags (`10_state.md` R30) -/

theorem busy_iff {s : State} : s.busy = true ↔ s.phase = .armed ∨ s.phase = .capture := by
  unfold State.busy
  cases s.phase <;> decide

theorem busy_eq_false_iff {s : State} : s.busy = false ↔ s.phase = .idle ∨ s.phase = .done := by
  unfold State.busy
  cases s.phase <;> decide

theorem isDone_iff {s : State} : s.isDone = true ↔ s.phase = .done := by
  unfold State.isDone
  cases s.phase <;> decide

theorem isDone_eq_false_iff {s : State} : s.isDone = false ↔ s.phase ≠ .done := by
  unfold State.isDone
  cases s.phase <;> decide

theorem valid_iff {s : State} : s.valid = true ↔ s.phase = .done ∧ s.errCode = none := by
  simp [State.valid]

theorem valid_eq_false_iff {s : State} : s.valid = false ↔ s.phase ≠ .done ∨ s.errCode ≠ none := by
  rw [← Bool.not_eq_true, valid_iff, not_and_or]

/-! ## The frame bytes -/

@[simp] theorem FrameBytes.get_set_self (f : FrameBytes) (k : Fin 5) (v : Byte) : (f.set k v).get k = v := by
  fin_cases k <;> rfl

theorem FrameBytes.get_set_ne (f : FrameBytes) {k m : Fin 5} (v : Byte) (h : m ≠ k) :
    (f.set k v).get m = f.get m := by
  fin_cases k <;> fin_cases m <;> first | rfl | exact absurd rfl h

/-! ## The reset state of a build (`00_scope.md` R6) -/

@[simp] theorem resetOf_cfg (c : Config) : (State.resetOf c).cfg = c := rfl
@[simp] theorem resetOf_default : State.resetOf .default = State.reset := rfl
@[simp] theorem machineOf_reset (c : Config) : (machineOf c).reset = State.resetOf c := rfl
theorem core_eq_machineOf : core = machineOf .default := rfl

/-- Five equal bytes make equal frames. -/
theorem FrameBytes.ext_get {f g : FrameBytes} (h : ∀ k : Fin 5, f.get k = g.get k) : f = g := by
  obtain ⟨a0, a1, a2, a3, a4⟩ := f
  obtain ⟨c0, c1, c2, c3, c4⟩ := g
  have e0 := h 0
  have e1 := h 1
  have e2 := h 2
  have e3 := h 3
  have e4 := h 4
  simp only [FrameBytes.get] at e0 e1 e2 e3 e4
  rw [e0, e1, e2, e3, e4]

end Sys2Proof.Machine
end

