-- ==== Sys2Proof/Laws/Flow.lean ====
section
/-! SUPPORT. The laws of sequencing (`Flow`), and for each shared operation one lemma that says everything it can do. -/

namespace Sys2Proof.Machine

/-! ## Sequencing -/

@[simp] theorem Flow.go_andThen (s : State) (g : State → Flow) : (Flow.go s).andThen g = g s := rfl
@[simp] theorem Flow.ended_andThen (s : State) (g : State → Flow) : (Flow.ended s).andThen g = .ended s := rfl
@[simp] theorem Flow.stop_andThen (f : Fault) (g : State → Flow) : (Flow.stop f).andThen g = .stop f := rfl
@[simp] theorem Flow.go_outcome (s : State) : (Flow.go s).outcome = .next s := rfl
@[simp] theorem Flow.ended_outcome (s : State) : (Flow.ended s).outcome = .next s := rfl
@[simp] theorem Flow.stop_outcome (f : Fault) : (Flow.stop f).outcome = .fault f := rfl
@[simp] theorem Flow.go_map (s : State) (g : State → State) : (Flow.go s).map g = .go (g s) := rfl
@[simp] theorem Flow.ended_map (s : State) (g : State → State) : (Flow.ended s).map g = .ended (g s) := rfl
@[simp] theorem Flow.stop_map (f : Fault) (g : State → State) : (Flow.stop f).map g = .stop f := rfl
@[simp] theorem Flow.each_nil {α : Type} (g : α → State → Flow) (s : State) : Flow.each g [] s = .go s := rfl
@[simp] theorem Flow.each_cons {α : Type} (g : α → State → Flow) (x : α) (xs : List α) (s : State) :
    Flow.each g (x :: xs) s = (g x s).andThen (Flow.each g xs) := rfl

/-- A flow never refuses: its outcome is a next state or a fault. -/
theorem Flow.outcome_eq_next {r : Flow} {t : State} (h : r.outcome = .next t) : r = .go t ∨ r = .ended t := by
  cases r <;> simp_all [Flow.outcome]

/-- A flow that goes on or has ended in a state related by `P`; a stop is related to nothing and allowed. -/
def Flow.Leads (P : State → Prop) : Flow → Prop
  | .go s => P s
  | .ended s => P s
  | .stop _ => True

/-- A flow that does not stop. -/
def Flow.Runs : Flow → Prop
  | .go _ => True
  | .ended _ => True
  | .stop _ => False

theorem Flow.Leads.andThen {P : State → Prop} {r : Flow} {g : State → Flow} (h : r.Leads P)
    (hg : ∀ t, r = .go t → P t → (g t).Leads P) : (r.andThen g).Leads P := by
  cases r with
  | go t => exact hg t rfl h
  | ended t => exact h
  | stop f => trivial

theorem Flow.Leads.mono {P Q : State → Prop} {r : Flow} (h : r.Leads P) (hpq : ∀ t, P t → Q t) : r.Leads Q := by
  cases r with
  | go t => exact hpq t h
  | ended t => exact hpq t h
  | stop f => trivial

theorem Flow.Leads.of_outcome {P : State → Prop} {r : Flow} {t : State} (h : r.Leads P) (ht : r.outcome = .next t) :
    P t := by
  rcases Flow.outcome_eq_next ht with rfl | rfl <;> exact h

theorem Flow.Runs.exists_next {r : Flow} (h : r.Runs) : ∃ t, r.outcome = .next t := by
  cases r with
  | go t => exact ⟨t, rfl⟩
  | ended t => exact ⟨t, rfl⟩
  | stop f => exact absurd h id

theorem Flow.Runs.map {r : Flow} {g : State → State} (h : r.Runs) : (r.map g).Runs := by
  cases r <;> simp_all [Flow.Runs, Flow.map]

theorem Flow.Leads.map {P Q : State → Prop} {r : Flow} {g : State → State} (h : r.Leads P)
    (hg : ∀ t, P t → Q (g t)) : (r.map g).Leads Q := by
  cases r with
  | go t => exact hg t h
  | ended t => exact hg t h
  | stop f => trivial

/-- A property every step keeps is kept by all of them in order. -/
theorem Flow.Leads.each {α : Type} {P : State → Prop} {g : α → State → Flow} (hg : ∀ x t, P t → (g x t).Leads P)
    (xs : List α) (s : State) (hs : P s) : (Flow.each g xs s).Leads P := by
  induction xs generalizing s with
  | nil => exact hs
  | cons x xs ih => exact (hg x s hs).andThen fun t _ ht => ih t ht

/-- Steps that run under a property every step keeps run in order. -/
theorem Flow.Runs.each {α : Type} {P : State → Prop} {g : α → State → Flow} (hg : ∀ x t, P t → (g x t).Leads P)
    (hr : ∀ x t, P t → (g x t).Runs) (xs : List α) (s : State) (hs : P s) : (Flow.each g xs s).Runs := by
  induction xs generalizing s with
  | nil => trivial
  | cons x xs ih =>
    have h1 := hg x s hs
    have h2 := hr x s hs
    rw [Flow.each_cons]
    cases hgx : g x s with
    | go t => rw [hgx] at h1; exact ih t h1
    | ended t => trivial
    | stop f => rw [hgx] at h2; exact absurd h2 id

/-! ## The shared operations -/

@[simp] theorem raiseErr_eq (s : State) (k : ErrKind) : raiseErr s k = .ended (s.withError k) := rfl

/-- A read of an entry that holds a value hands it on. -/
theorem pulseRead_of_some {s : State} {i : Nat} {p : Pulse} (h : s.pulseAt i = some p) (use : Pulse → Flow) :
    pulseRead s i use = use p := by
  simp [pulseRead, h]

/-- A read of an entry that holds no value stops. -/
theorem pulseRead_of_none {s : State} {i : Nat} (h : s.pulseAt i = none) (use : Pulse → Flow) :
    pulseRead s i use = .stop (.pulseReadNoValue i) := by
  simp [pulseRead, h]

/-- Everything a read can do: hand on the entry, or stop. -/
theorem pulseRead_leads {P : State → Prop} {s : State} {i : Nat} {use : Pulse → Flow}
    (h : ∀ p, s.pulseAt i = some p → (use p).Leads P) : (pulseRead s i use).Leads P := by
  cases hp : s.pulseAt i with
  | none => rw [pulseRead_of_none hp]; trivial
  | some p => rw [pulseRead_of_some hp]; exact h p hp

/-- Entry `i` holds a value exactly when `i < pcount`, in a filled memory (`20_memory.md` R48). -/
theorem State.Filled_pulseAt {s : State} (h : ∀ i, i < s.pcount.toNat → ∃ p, s.pulseMem.get i = some p) {i : Nat}
    (hi : i < s.pcount.toNat) : ∃ p, s.pulseAt i = some p := by
  obtain ⟨p, hp⟩ := h i hi
  exact ⟨p, by simp [State.pulseAt, hi, hp]⟩

theorem State.pulseAt_of_le {s : State} {i : Nat} (h : s.pcount.toNat ≤ i) : s.pulseAt i = none := by
  simp [State.pulseAt, Nat.not_lt.mpr h]

theorem State.lt_of_pulseAt {s : State} {i : Nat} {p : Pulse} (h : s.pulseAt i = some p) : i < s.pcount.toNat := by
  by_contra hn
  rw [State.pulseAt_of_le (Nat.not_lt.mp hn)] at h
  exact absurd h (by simp)

theorem State.get_of_pulseAt {s : State} {i : Nat} {p : Pulse} (h : s.pulseAt i = some p) :
    s.pulseMem.get i = some p := by
  have hi := State.lt_of_pulseAt h
  simpa [State.pulseAt, hi] using h

/-- The state after an append. -/
def State.appended (s : State) (l : Level) (d : Stamp) : State :=
  { s with pulseMem := s.pulseMem.put s.pcount.toNat ⟨l, d⟩, pcount := s.pcount + 1 }

/-- An append with room. -/
theorem pulseAppend_of_lt {s : State} (l : Level) (d : Stamp) (h : s.pcount.toNat < s.cfg.maxPulses) :
    pulseAppend s l d = .go (s.appended l d) := by
  simp [pulseAppend, h, State.appended]

/-- An append without room stops. -/
theorem pulseAppend_of_le {s : State} (l : Level) (d : Stamp) (h : s.cfg.maxPulses ≤ s.pcount.toNat) :
    pulseAppend s l d = .stop (.pulseWriteOutside s.pcount.toNat) := by
  simp [pulseAppend, Nat.not_lt.mpr h]

/-- Everything an append can do: with room it goes on in the appended state, without room it stops. -/
theorem pulseAppend_cases (s : State) (l : Level) (d : Stamp) :
    (s.pcount.toNat < s.cfg.maxPulses ∧ pulseAppend s l d = .go (s.appended l d)) ∨
    (s.cfg.maxPulses ≤ s.pcount.toNat ∧ pulseAppend s l d = .stop (.pulseWriteOutside s.pcount.toNat)) := by
  by_cases h : s.pcount.toNat < s.cfg.maxPulses
  · exact .inl ⟨h, pulseAppend_of_lt l d h⟩
  · exact .inr ⟨Nat.not_lt.mp h, pulseAppend_of_le l d (Nat.not_lt.mp h)⟩

section appended
variable (s : State) (l : Level) (d : Stamp)
@[simp] theorem appended_cfg : (s.appended l d).cfg = s.cfg := rfl
@[simp] theorem appended_phase : (s.appended l d).phase = s.phase := rfl
@[simp] theorem appended_errCode : (s.appended l d).errCode = s.errCode := rfl
@[simp] theorem appended_variantQ : (s.appended l d).variantQ = s.variantQ := rfl
@[simp] theorem appended_timeoutUsQ : (s.appended l d).timeoutUsQ = s.timeoutUsQ := rfl
@[simp] theorem appended_curLevel : (s.appended l d).curLevel = s.curLevel := rfl
@[simp] theorem appended_pulseStart : (s.appended l d).pulseStart = s.pulseStart := rfl
@[simp] theorem appended_pollCnt : (s.appended l d).pollCnt = s.pollCnt := rfl
@[simp] theorem appended_pcount : (s.appended l d).pcount = s.pcount + 1 := rfl
@[simp] theorem appended_pulseMem :
    (s.appended l d).pulseMem = s.pulseMem.put s.pcount.toNat ⟨l, d⟩ := rfl
@[simp] theorem appended_fb : (s.appended l d).fb = s.fb := rfl
@[simp] theorem appended_humX10 : (s.appended l d).humX10 = s.humX10 := rfl
@[simp] theorem appended_tempX10 : (s.appended l d).tempX10 = s.tempX10 := rfl
@[simp] theorem appended_locals : (s.appended l d).locals = s.locals := rfl
@[simp] theorem appended_inputs : (s.appended l d).inputs = s.inputs := rfl
end appended

/-- The parameters' constraints as inequalities. -/
theorem Config.wf_iff (c : Config) :
    c.wf = true ↔ 1 ≤ c.maxPulses ∧ c.maxPulses ≤ 65535 ∧ 1 ≤ c.pollN := by
  simp [Config.wf, and_assoc]

/-- `pcount` does not wrap at an append (`00_scope.md` R15). -/
theorem pcount_succ {s : State} (hc : s.cfg.wf = true) (h : s.pcount.toNat < s.cfg.maxPulses) :
    (s.pcount + 1).toNat = s.pcount.toNat + 1 := by
  have := (Config.wf_iff _).1 hc
  rw [BitVec.toNat_add]
  simp only [BitVec.ofNat_eq_ofNat, BitVec.toNat_ofNat]
  omega

/-- What an appended state holds at each index. -/
theorem appended_pulseAt {s : State} (l : Level) (d : Stamp) (hc : s.cfg.wf = true)
    (h : s.pcount.toNat < s.cfg.maxPulses) (i : Nat) :
    (s.appended l d).pulseAt i = if i = s.pcount.toNat then some ⟨l, d⟩ else s.pulseAt i := by
  have hp := pcount_succ hc h
  simp only [State.pulseAt, appended_pcount, hp, appended_pulseMem, Memory.get_put]
  by_cases hi : i = s.pcount.toNat
  · simp [hi]
  · have : i < s.pcount.toNat + 1 ↔ i < s.pcount.toNat := by omega
    simp [hi, this]

end Sys2Proof.Machine
end

