-- ==== Sys2Proof/Laws/BitByte.lean ====
section
/-! SUPPORT. What the bit/byte decoder can do: one pair, one byte, a byte that is carried, a bad pair. -/

namespace Sys2Proof.Machine

theorem Flow.each_append {α : Type} (g : α → State → Flow) (xs ys : List α) (s : State) :
    Flow.each g (xs ++ ys) s = (Flow.each g xs s).andThen (Flow.each g ys) := by
  induction xs generalizing s with
  | nil => rfl
  | cons x xs ih =>
    simp only [List.cons_append, Flow.each_cons]
    cases g x s with
    | go t => simp [ih]
    | ended t => rfl
    | stop f => rfl

/-- The state with the byte under assembly set. -/
def State.withByte (s : State) (b : Byte) : State := { s with locals := { s.locals with byte := b } }

section withByte
variable (s : State) (b c : Byte)
@[simp] theorem withByte_cfg : (s.withByte b).cfg = s.cfg := rfl
@[simp] theorem withByte_phase : (s.withByte b).phase = s.phase := rfl
@[simp] theorem withByte_errCode : (s.withByte b).errCode = s.errCode := rfl
@[simp] theorem withByte_variantQ : (s.withByte b).variantQ = s.variantQ := rfl
@[simp] theorem withByte_timeoutUsQ : (s.withByte b).timeoutUsQ = s.timeoutUsQ := rfl
@[simp] theorem withByte_curLevel : (s.withByte b).curLevel = s.curLevel := rfl
@[simp] theorem withByte_pulseStart : (s.withByte b).pulseStart = s.pulseStart := rfl
@[simp] theorem withByte_pollCnt : (s.withByte b).pollCnt = s.pollCnt := rfl
@[simp] theorem withByte_pcount : (s.withByte b).pcount = s.pcount := rfl
@[simp] theorem withByte_pulseMem : (s.withByte b).pulseMem = s.pulseMem := rfl
@[simp] theorem withByte_fb : (s.withByte b).fb = s.fb := rfl
@[simp] theorem withByte_humX10 : (s.withByte b).humX10 = s.humX10 := rfl
@[simp] theorem withByte_tempX10 : (s.withByte b).tempX10 = s.tempX10 := rfl
@[simp] theorem withByte_inputs : (s.withByte b).inputs = s.inputs := rfl
@[simp] theorem withByte_base : (s.withByte b).locals.base = s.locals.base := rfl
@[simp] theorem withByte_byte : (s.withByte b).locals.byte = b := rfl
@[simp] theorem withByte_pulseAt (i : Nat) : (s.withByte b).pulseAt i = s.pulseAt i := rfl
@[simp] theorem withByte_withByte : (s.withByte b).withByte c = s.withByte c := rfl
end withByte

theorem bdBit_eq (i : BitVec 3) (v : Bool) (s : State) :
    bdBit i v s = .go (s.withByte (setWireBit s.locals.byte i v)) := rfl

/-- `byte[7 - i] <- v`: the bit written, and every other bit kept (`41_bit_byte_decoder.md` R112). -/
theorem setWireBit_getLsbD (b : Byte) (i : BitVec 3) (v : Bool) (k : Nat) (hk : k < 8) :
    (setWireBit b i v).getLsbD k = if k = 7 - i.toNat then v else b.getLsbD k := by
  have hi : i.toNat < 8 := i.isLt
  unfold setWireBit
  cases v <;> generalize i.toNat = n at hi ⊢ <;> interval_cases k <;> interval_cases n <;> simp

/-- One pair whose two entries hold values: the checks in their order (`41_bit_byte_decoder.md` R105, R113). -/
theorem bdPair_of_some {s : State} {start : Half} {i : BitVec 3} {lo hi : Pulse}
    (hl : s.pulseAt (lowIndex start i) = some lo) (hh : s.pulseAt (highIndex start i) = some hi) :
    bdPair start i s =
      if lo.level = true ∨ hi.level = false ∨ s.cfg.highMaxUs < hi.dur.toNat then .ended (s.withError .protocolError)
      else .go (s.withByte (setWireBit s.locals.byte i (decide (s.cfg.bitThresholdUs < hi.dur.toNat)))) := by
  rw [bdPair, pulseRead_of_some hl]
  cases hlv : lo.level with
  | true => simp [bdErrPolLow]
  | false =>
    rw [if_neg (by simp), pulseRead_of_some hh]
    cases hhv : hi.level with
    | false => simp [bdErrPolHigh]
    | true =>
      by_cases hm : s.cfg.highMaxUs < hi.dur.toNat
      · simp [gtMax, hm, bdErrWidth]
      · by_cases ht : s.cfg.bitThresholdUs < hi.dur.toNat <;> simp [gtMax, gtThr, hm, ht, bdBit_eq]

/-- A pair that carries a bit writes it (`30_encoding.md` R74). -/
theorem bdPair_of_carries {s : State} {start : Half} {i : BitVec 3} {b : Bool} {lo hi : Pulse}
    (hl : s.pulseAt (lowIndex start i) = some lo) (hh : s.pulseAt (highIndex start i) = some hi)
    (hc : CarriesBit s.cfg b lo hi) :
    bdPair start i s = .go (s.withByte (setWireBit s.locals.byte i b)) := by
  obtain ⟨h1, h2, h3, h4⟩ := hc
  rw [bdPair_of_some hl hh, if_neg (by simp [h1, h2, h3])]
  have : decide (s.cfg.bitThresholdUs < hi.dur.toNat) = b := by
    cases b <;> simp_all
  rw [this]

/-- Everything one pair can do: write one bit of the byte, raise ProtocolError, or stop at an entry that holds no
value. -/
theorem bdPair_cases (start : Half) (i : BitVec 3) (s : State) :
    (∃ b, bdPair start i s = .go (s.withByte b)) ∨
    bdPair start i s = .ended (s.withError .protocolError) ∨
    (∃ a, bdPair start i s = .stop (.pulseReadNoValue a)) := by
  cases hl : s.pulseAt (lowIndex start i) with
  | none => exact .inr (.inr ⟨_, by rw [bdPair, pulseRead_of_none hl]⟩)
  | some lo =>
    cases hlv : lo.level with
    | true => exact .inr (.inl (by rw [bdPair, pulseRead_of_some hl]; simp [hlv, bdErrPolLow]))
    | false =>
      cases hh : s.pulseAt (highIndex start i) with
      | none =>
        exact .inr (.inr ⟨_, by rw [bdPair, pulseRead_of_some hl, if_neg (by simp [hlv]), pulseRead_of_none hh]⟩)
      | some hi =>
        rw [bdPair_of_some hl hh]
        split
        · exact .inr (.inl rfl)
        · exact .inl ⟨_, rfl⟩

/-- Everything the pairs of a list can do. -/
theorem bdPairs_cases (start : Half) (is : List (BitVec 3)) (s : State) :
    (∃ b, Flow.each (bdPair start) is s = .go (s.withByte b)) ∨
    (∃ b, Flow.each (bdPair start) is s = .ended ((s.withByte b).withError .protocolError)) ∨
    (∃ a, Flow.each (bdPair start) is s = .stop (.pulseReadNoValue a)) := by
  induction is generalizing s with
  | nil => exact .inl ⟨s.locals.byte, rfl⟩
  | cons i is ih =>
    rw [Flow.each_cons]
    rcases bdPair_cases start i s with ⟨b, h⟩ | h | ⟨a, h⟩
    · rw [h, Flow.go_andThen]
      simpa using ih (s.withByte b)
    · exact .inr (.inl ⟨s.locals.byte, by rw [h]; rfl⟩)
    · exact .inr (.inr ⟨a, by rw [h]; rfl⟩)

/-- Everything a byte decode can do (`41_bit_byte_decoder.md` R105): return a byte, raise RangeError before any read when
too few pulses remain, raise ProtocolError, or stop at an entry that holds no value. -/
theorem bdByte_cases (start : Half) (s : State) :
    (∃ b, bdByte start s = .go (s.withByte b)) ∨
    (s.pcount.toNat < start.toNat + 16 ∧ bdByte start s = .ended (s.withError .rangeError)) ∨
    (∃ b, bdByte start s = .ended ((s.withByte b).withError .protocolError)) ∨
    (∃ a, bdByte start s = .stop (.pulseReadNoValue a)) := by
  by_cases h : s.pcount.toNat < start.toNat + 16
  · exact .inr (.inl ⟨h, by simp [bdByte, shortFrom, h, bdShort]⟩)
  · have he : bdByte start s = Flow.each (bdPair start) bitOrder (s.withByte 0) := by
      simp [bdByte, shortFrom, h, State.withByte]
    rw [he]
    rcases bdPairs_cases start bitOrder (s.withByte 0) with ⟨b, hb⟩ | ⟨b, hb⟩ | ha
    · exact .inl ⟨b, by simpa using hb⟩
    · exact .inr (.inr (.inl ⟨b, by simpa using hb⟩))
    · exact .inr (.inr (.inr ha))

/-- With enough pulses, a byte decode is its eight pairs in order. -/
theorem bdByte_of_le {start : Half} {s : State} (h : start.toNat + 16 ≤ s.pcount.toNat) :
    bdByte start s = Flow.each (bdPair start) bitOrder (s.withByte 0) := by
  simp [bdByte, shortFrom, Nat.not_lt.mpr h, State.withByte]

/-- A byte decode with too few pulses raises RangeError before any read (`41_bit_byte_decoder.md` R106). -/
theorem bdByte_of_short {start : Half} {s : State} (h : s.pcount.toNat < start.toNat + 16) :
    bdByte start s = .ended (s.withError .rangeError) := by
  simp [bdByte, shortFrom, h, bdShort]

/-- Pairs that carry bits are gone through. -/
theorem bdPairs_of_carries (start : Half) (is : List (BitVec 3)) (s : State)
    (h : ∀ i ∈ is, ∃ b lo hi, s.pulseAt (lowIndex start i) = some lo ∧ s.pulseAt (highIndex start i) = some hi ∧
      CarriesBit s.cfg b lo hi) :
    ∃ b, Flow.each (bdPair start) is s = .go (s.withByte b) := by
  induction is generalizing s with
  | nil => exact ⟨s.locals.byte, rfl⟩
  | cons i is ih =>
    obtain ⟨b, lo, hi, hl, hh, hc⟩ := h i (by simp)
    rw [Flow.each_cons, bdPair_of_carries hl hh hc, Flow.go_andThen]
    simpa using ih (s.withByte (setWireBit s.locals.byte i b)) fun j hj => h j (by simp [hj])

/-- Sixteen pulses that carry a byte decode to it (`41_bit_byte_decoder.md` R105, R112). -/
theorem bdByte_of_carries {s : State} {start : Half} {v : Byte} (hp : start.toNat + 16 ≤ s.pcount.toNat)
    (h : s.CarriesByteAt v start.toNat) : bdByte start s = .go (s.withByte v) := by
  have step : ∀ (t : State) (i : BitVec 3), (∀ a, t.pulseAt a = s.pulseAt a) → t.cfg = s.cfg →
      bdPair start i t = .go (t.withByte (setWireBit t.locals.byte i (v.getLsbD (7 - i.toNat)))) := by
    intro t i hat hcfg
    obtain ⟨lo, hi, hl, hh, hc⟩ := h i.toNat i.isLt
    exact bdPair_of_carries (lo := lo) (hi := hi) (by rw [hat]; exact hl) (by rw [hat]; exact hh) (by rw [hcfg]; exact hc)
  rw [bdByte_of_le hp, bitOrder]
  iterate 8 rw [Flow.each_cons, step _ _ (by simp) (by simp), Flow.go_andThen]
  rw [Flow.each_nil]
  simp only [withByte_withByte, withByte_byte]
  congr 2
  apply BitVec.eq_of_getLsbD_eq
  intro k hk
  repeat rw [setWireBit_getLsbD _ _ _ _ hk]
  interval_cases k <;> simp

/-- The pairs before a pair, and the pair. -/
theorem bitOrder_split (j : Nat) (h : j < 8) : ∃ b a, bitOrder = b ++ BitVec.ofNat 3 j :: a ∧ ∀ i ∈ b, i.toNat < j := by
  interval_cases j
  · exact ⟨[], [1, 2, 3, 4, 5, 6, 7], by decide, by decide⟩
  · exact ⟨[0], [2, 3, 4, 5, 6, 7], by decide, by decide⟩
  · exact ⟨[0, 1], [3, 4, 5, 6, 7], by decide, by decide⟩
  · exact ⟨[0, 1, 2], [4, 5, 6, 7], by decide, by decide⟩
  · exact ⟨[0, 1, 2, 3], [5, 6, 7], by decide, by decide⟩
  · exact ⟨[0, 1, 2, 3, 4], [6, 7], by decide, by decide⟩
  · exact ⟨[0, 1, 2, 3, 4, 5], [7], by decide, by decide⟩
  · exact ⟨[0, 1, 2, 3, 4, 5, 6], [], by decide, by decide⟩

/-- The first bad pair of a byte raises ProtocolError, whichever check it fails (`41_bit_byte_decoder.md` R113). -/
theorem bdByte_of_bad_pair {s : State} {start : Half} {before after : List (BitVec 3)} {j : BitVec 3}
    (hp : start.toNat + 16 ≤ s.pcount.toNat) (hsplit : bitOrder = before ++ j :: after)
    (hgood : ∀ i ∈ before, ∃ b lo hi, s.pulseAt (lowIndex start i) = some lo ∧
      s.pulseAt (highIndex start i) = some hi ∧ CarriesBit s.cfg b lo hi)
    {lo hi : Pulse} (hl : s.pulseAt (lowIndex start j) = some lo) (hh : s.pulseAt (highIndex start j) = some hi)
    (hbad : lo.level = true ∨ hi.level = false ∨ s.cfg.highMaxUs < hi.dur.toNat) :
    ∃ b, bdByte start s = .ended ((s.withByte b).withError .protocolError) := by
  obtain ⟨b, hb⟩ := bdPairs_of_carries start before (s.withByte 0) (by simpa using hgood)
  refine ⟨b, ?_⟩
  rw [bdByte_of_le hp, hsplit, Flow.each_append, hb, Flow.go_andThen, Flow.each_cons,
    bdPair_of_some (lo := lo) (hi := hi) (by simpa using hl) (by simpa using hh), if_pos (by simpa using hbad)]
  simp

end Sys2Proof.Machine
end

