-- ==== Sys2Proof/Laws/Convert.lean ====
section
/-! SUPPORT. The conversions of the frame decoder in exact integers (`spec/42_frame_decoder.md` R120, R121). -/

namespace Sys2Proof.Machine

variable (f : FrameBytes)

theorem humA_toNat : (humA f).toNat = f.b0.toNat * 10 := by
  have := f.b0.isLt
  simp [humA]
  omega

theorem tempA_toNat : (tempA f).toNat = f.b2.toNat * 10 := by
  have := f.b2.isLt
  simp [tempA]
  omega

theorem tempA_toInt : (tempA f).toInt = (f.b2.toNat * 10 : Nat) := by
  have := f.b2.isLt
  rw [BitVec.toInt_eq_toNat_cond, tempA_toNat, if_pos (by omega)]

theorem humB_toNat : (humB f).toNat = f.b0.toNat * 256 + f.b1.toNat := by
  have := f.b0.isLt
  have := f.b1.isLt
  simp [humB]
  omega

/-- `fb[2] & 0x7F` is `fb[2]` modulo 128. -/
theorem low_seven_bits (b : Byte) : (b &&& 0x7F).toNat = b.toNat % 128 := by
  simp only [BitVec.toNat_and]
  exact Nat.and_two_pow_sub_one_eq_mod b.toNat 7

theorem magB_toNat : (magB f).toNat = f.b2.toNat % 128 * 256 + f.b3.toNat := by
  have := f.b2.isLt
  have := f.b3.isLt
  rw [magB, BitVec.toNat_add, BitVec.toNat_mul, BitVec.toNat_setWidth, BitVec.toNat_setWidth, low_seven_bits]
  simp
  omega

/-- `fb[2][7]` says whether `fb[2]` is 128 or more. -/
theorem top_bit (b : Byte) : b.getLsbD 7 = decide (128 ≤ b.toNat) := by
  have h := BitVec.msb_eq_decide b
  simpa [BitVec.msb_eq_getLsbD_last] using h

/-- `neg_16` of a magnitude is its negative (`00_scope.md` R15). -/
theorem neg16_toInt (v : Half) (h : v.toNat ≤ 32767) : (neg16 v).toInt = -(v.toNat : Int) := by
  rw [neg16, BitVec.toInt_eq_toNat_cond, BitVec.toNat_sub]
  have : (0 : Half).toNat = 0 := rfl
  rw [this]
  by_cases h0 : v.toNat = 0
  · rw [h0]
    decide
  · have e : (2 ^ 16 - v.toNat + 0) % 2 ^ 16 = 2 ^ 16 - v.toNat := by omega
    rw [e, if_neg (by omega)]
    omega

theorem tempB_toInt : (tempB f).toInt =
    if 128 ≤ f.b2.toNat then -(((f.b2.toNat - 128) * 256 + f.b3.toNat : Nat) : Int)
    else ((f.b2.toNat * 256 + f.b3.toNat : Nat) : Int) := by
  have h2 := f.b2.isLt
  have h3 := f.b3.isLt
  have hm := magB_toNat f
  rw [tempB, top_bit]
  by_cases h : 128 ≤ f.b2.toNat
  · have e : f.b2.toNat % 128 = f.b2.toNat - 128 := by omega
    rw [if_pos (by simpa using h), if_pos h, neg16_toInt _ (by omega), hm, e]
  · have e : f.b2.toNat % 128 = f.b2.toNat := by omega
    rw [if_neg (by simpa using h), if_neg h, BitVec.toInt_eq_toNat_cond, if_pos (by omega), hm, e]

end Sys2Proof.Machine
end

