-- ==== Sys2Proof/Laws/Decode.lean ====
section
/-! SUPPORT. The decoder by row numbers: which row answers a word is a closed computation, and what the row builds is a
projection, so a proof about a word with any operands is two small steps. -/

namespace Sys2Proof

/-- The number of the row that answers a selector word. -/
def rowNumber (f : Format) (w : Half) : Option Nat := opcodeTable.findIdx? fun r => r.fmt == f && r.hits w

/-- A word decodes to what the row of its number builds (`30_encoding.md` R67 to R72). -/
theorem decode_of_row {f : Format} {w : Half} {n : Nat} {r : Row} (o : Operands) (hw : w.toNat < 2 ^ f.width)
    (hn : rowNumber f w = some n) (hr : opcodeTable[n]? = some r) : decode ⟨f, w, o⟩ = .ok (r.build w o) := by
  rw [rowNumber, List.findIdx?_eq_some_iff_findIdx_eq] at hn
  have hf : opcodeTable.find? (fun r => r.fmt == f && r.hits w) = some r := by
    have := List.find?_eq_some_iff_getElem (xs := opcodeTable) (p := fun r => r.fmt == f && r.hits w) (b := r)
    rw [this]
    have hlt := hn.1
    have hidx := hn.2
    have hget : opcodeTable[n] = r := by
      rw [List.getElem?_eq_getElem hlt] at hr
      exact Option.some.inj hr
    refine ⟨?_, n, hlt, hget, ?_⟩
    · have h1 := List.findIdx_getElem (p := fun r : Row => r.fmt == f && r.hits w) (xs := opcodeTable)
        (w := by rw [hidx]; exact hlt)
      simp only [hidx, hget] at h1
      exact h1
    · intro j hj
      have h2 := List.not_of_lt_findIdx (p := fun r : Row => r.fmt == f && r.hits w) (xs := opcodeTable) (i := j)
        (by rw [hidx]; exact hj)
      simpa [imp_iff_not_or] using h2
  simp only [decode, hw, if_true, hf]

/-- LEN: the four rows of FD.TRIM, then FD.LENERR for every other count (`30_encoding.md` R70). -/
theorem decode_len (n : Half) (o : Operands) :
    decode ⟨.len, n, o⟩ = .ok (if legalLength n then .fdTrim n else .fdLenErr n) := by
  by_cases h : n = 82#16 ∨ n = 83#16 ∨ n = 84#16 ∨ n = 85#16
  · rcases h with rfl | rfl | rfl | rfl
    · exact decode_of_row (n := 21) o (by decide) (by decide) rfl
    · exact decode_of_row (n := 22) o (by decide) (by decide) rfl
    · exact decode_of_row (n := 23) o (by decide) (by decide) rfl
    · exact decode_of_row (n := 24) o (by decide) (by decide) rfl
  · have hl : legalLength n = false := by
      rw [← Bool.not_eq_true, legalLength, Bool.and_eq_true, decide_eq_true_eq, decide_eq_true_eq]
      intro hh
      apply h
      have : n.toNat = 82 ∨ n.toNat = 83 ∨ n.toNat = 84 ∨ n.toNat = 85 := by
        simp only [frameMin, frameMax] at hh; omega
      simpa [← BitVec.toNat_inj] using this
    have hf : opcodeTable.find? (fun r => r.fmt == .len && r.hits n) =
        some ⟨.len, 0x0000, 0x0000, fun n _ => .fdLenErr n⟩ := by
      have hs : opcodeTable =
          (controlRows ++ reconstructorRows ++ bitByteRows ++ frameRows.take 4) ++ frameRows.drop 4 := rfl
      rw [hs, List.find?_append]
      have h1 : (controlRows ++ reconstructorRows ++ bitByteRows ++ frameRows.take 4).find?
          (fun r => r.fmt == .len && r.hits n) = none := by
        rw [List.find?_append, List.find?_eq_none.2]
        · simp [frameRows, Row.hits]
          have ha : n &&& 65535#16 = n := by
            rw [show 65535#16 = BitVec.allOnes 16 from rfl, BitVec.and_allOnes]
          rw [ha]
          simpa only [not_or] using h
        · have : ∀ r ∈ controlRows ++ reconstructorRows ++ bitByteRows, (r.fmt == Format.len) = false := by decide
          intro r hr; simp [this r hr]
      rw [h1]
      simp [frameRows, Row.hits]
    simp [decode, Format.width, hf, hl, n.isLt]

namespace Machine

/-! ## CMD and CMDB -/

theorem rowNumber_cmd : ∀ a b c d : Bool, rowNumber .cmd (wordOfBits [a, b, c, d]) =
    if a then some 0 else if b || c then none else if d then some 4 else some 1 := by decide

theorem rowNumber_cmdb : ∀ c d e : Bool, rowNumber .cmdb (wordOfBits [false, true, c, d, e]) = some (if e then 5 else 6) ∧
    rowNumber .cmdb (wordOfBits [false, false, true, d, e]) = some (if e then 3 else 2) := by decide

/-- No row of CMD answers a word of START or IOERR. -/
theorem decode_cmd_split {w : Half} (o : Operands) (hw : w.toNat < 2 ^ Format.cmd.width)
    (hn : rowNumber .cmd w = none) : decode ⟨.cmd, w, o⟩ = .error .splitByBusy := by
  rw [rowNumber, List.findIdx?_eq_none_iff] at hn
  have hf : opcodeTable.find? (fun r => r.fmt == .cmd && r.hits w) = none := by
    rw [List.find?_eq_none]
    intro r hr
    simp [hn r hr]
  simp only [decode, hw, if_true, hf]
  rfl

theorem width_cmd : ∀ a b c d e : Bool, (wordOfBits [a, b, c, d]).toNat < 2 ^ Format.cmd.width ∧
    (wordOfBits [a, b, c, d, e]).toNat < 2 ^ Format.cmdb.width := by decide

/-- The command by the priority `rst > io_err > start > s_valid` (`30_encoding.md` R67). -/
theorem selectCommand_eq (p : Ports) (busy : Bool) :
    selectCommand p busy = .ok
      (if p.rst then .reset
       else if p.ioErr then (if busy then .ioerrBusy else .ioerrDrop)
       else if p.start then (if busy then .startDrop p.variant p.timeoutMs else .startGo p.variant p.timeoutMs)
       else if p.sValid then .sample p.sLevel p.sTs
       else .nop) := by
  obtain ⟨rst, io, st, v, ms, sv, l, ts, dbg⟩ := p
  have hw := width_cmd rst io st sv busy
  have hc := rowNumber_cmd rst io st sv
  simp only [selectCommand, cmdWord, cmdbWord]
  cases rst
  · cases io
    · cases st
      · cases sv <;> rw [decode_of_row _ hw.1 hc rfl] <;> rfl
      · rw [decode_cmd_split _ hw.1 hc]
        have hb := (rowNumber_cmdb true sv busy).2
        cases busy <;> exact decode_of_row _ hw.2 hb rfl
    · rw [decode_cmd_split _ hw.1 hc]
      have hb := (rowNumber_cmdb st sv busy).1
      cases busy <;> exact decode_of_row _ hw.2 hb rfl
  · rw [decode_of_row _ hw.1 hc rfl]
    rfl

/-! ## SMP -/

/-- The number of the row of the SMP table that answers `{phase, neq, full, poll_hit, expired}` (R68). -/
def smpRow (p : Phase) (neq full pollHit expired : Bool) : Nat :=
  match p with
  | .idle => 7
  | .done => 7
  | .armed => 8
  | .capture => if neq then (if full then 10 else 9) else if pollHit then (if expired then 13 else 12) else 11

theorem rowNumber_smp (p : Phase) : ∀ a b c d : Bool,
    rowNumber .smp (wordOfBits [p.bits.getLsbD 1, p.bits.getLsbD 0, a, b, c, d]) = some (smpRow p a b c d) := by
  cases p <;> decide

theorem width_smp (p : Phase) : ∀ a b c d : Bool,
    (wordOfBits [p.bits.getLsbD 1, p.bits.getLsbD 0, a, b, c, d]).toNat < 2 ^ Format.smp.width := by
  cases p <;> decide

/-- The operation a SAMPLE performs, by the conditions of `30_encoding.md` R68. -/
def sampleOp (s : State) (l : Level) (ts : Stamp) : Instr :=
  match s.phase with
  | .idle => .smpDrop l ts
  | .done => .smpDrop l ts
  | .armed => .prFirst l ts
  | .capture =>
    if neq s l then (if full s then .prOverflow l ts else .prEdge l ts)
    else if pollHit s then (if expired s ts then .prTimeout l ts else .prPoll l ts)
    else .prHold l ts

/-- The SMP word selects it. -/
theorem decode_smpWord (s : State) (l : Level) (ts : Stamp) : decode (smpWord s l ts) = .ok (sampleOp s l ts) := by
  unfold smpWord sampleOp
  have hr := rowNumber_smp s.phase (neq s l) (full s) (pollHit s) (expired s ts)
  have hw := width_smp s.phase (neq s l) (full s) (pollHit s) (expired s ts)
  generalize neq s l = a, full s = b, pollHit s = d, expired s ts = e at hr hw ⊢
  generalize s.phase = p at hr hw ⊢
  cases p with
  | idle => exact decode_of_row _ hw hr rfl
  | done => exact decode_of_row _ hw hr rfl
  | armed => exact decode_of_row _ hw hr rfl
  | capture =>
    cases a
    · cases d
      · exact decode_of_row _ hw hr rfl
      · cases e <;> exact decode_of_row _ hw hr rfl
    · cases b <;> exact decode_of_row _ hw hr rfl

/-- SAMPLE performs it. -/
theorem exec_sample (s : State) (l : Level) (ts : Stamp) : exec (.sample l ts) s = exec (sampleOp s l ts) s := by
  simp only [exec, execSample, sampleOp]
  cases s.phase <;> cases neq s l <;> cases full s <;> cases pollHit s <;> cases expired s ts <;> rfl

/-! ## BYTE, PAIR, LEN, STEP -/

theorem decode_byteWord (s : State) (start : Half) :
    decode (byteWord s start) = .ok (if s.pcount.toNat < start.toNat + 16 then .bdShort start else .bdByte start) := by
  have hr : ∀ a : Bool, rowNumber .byte (wordOfBits [a]) = some (if a then 15 else 14) := by decide
  have hw : ∀ a : Bool, (wordOfBits [a]).toNat < 2 ^ Format.byte.width := by decide
  by_cases h : s.pcount.toNat < start.toNat + 16
  · simp only [byteWord, shortFrom, h, decide_true, if_true]
    exact decode_of_row _ (hw true) (hr true) rfl
  · simp only [byteWord, shortFrom, h, decide_false, if_false]
    exact decode_of_row _ (hw false) (hr false) rfl

theorem decode_pairWord (c : Config) (lo hi : Pulse) (i : BitVec 3) :
    decode (pairWord c lo hi i) = .ok
      (if lo.level then .bdErrPolLow
       else if !hi.level then .bdErrPolHigh
       else if gtMax c hi.dur then .bdErrWidth
       else if gtThr c hi.dur then .bdBit1 i
       else .bdBit0 i) := by
  have hr : ∀ a b d e : Bool, rowNumber .pair (wordOfBits [a, b, d, e]) =
      some (if a then 16 else if !b then 17 else if d then 18 else if e then 20 else 19) := by decide
  have hw : ∀ a b d e : Bool, (wordOfBits [a, b, d, e]).toNat < 2 ^ Format.pair.width := by decide
  unfold pairWord
  have hr := hr lo.level hi.level (gtMax c hi.dur) (gtThr c hi.dur)
  have hw := hw lo.level hi.level (gtMax c hi.dur) (gtThr c hi.dur)
  generalize lo.level = a, hi.level = b, gtMax c hi.dur = d, gtThr c hi.dur = e at hr hw ⊢
  cases a
  · cases b
    · exact decode_of_row _ hw hr rfl
    · cases d
      · cases e <;> exact decode_of_row _ hw hr rfl
      · exact decode_of_row _ hw hr rfl
  · exact decode_of_row _ hw hr rfl

end Machine
end Sys2Proof
end

