-- ==== Sys2Proof/Laws/FrameDecoder.lean ====
section
/-! SUPPORT. What the frame decode can do: what it keeps, how it ends, that it runs on a filled memory, what it makes of a
carried frame, and that its outcome depends on the pulses, the variant and the parameters alone. -/

namespace Sys2Proof.Machine

/-! ## Going on and ending, separately -/

/-- A flow that goes on in a state with `Q`, or has ended in one with `P`, or stops. -/
def Flow.Splits (Q P : State → Prop) : Flow → Prop
  | .go s => Q s
  | .ended s => P s
  | .stop _ => True

theorem Flow.Splits.andThen {Q R P : State → Prop} {r : Flow} {g : State → Flow} (h : r.Splits Q P)
    (hg : ∀ t, Q t → (g t).Splits R P) : (r.andThen g).Splits R P := by
  cases r with
  | go t => exact hg t h
  | ended t => exact h
  | stop f => trivial

theorem Flow.Splits.mono {Q Q' P P' : State → Prop} {r : Flow} (h : r.Splits Q P) (hq : ∀ t, Q t → Q' t)
    (hp : ∀ t, P t → P' t) : r.Splits Q' P' := by
  cases r with
  | go t => exact hq t h
  | ended t => exact hp t h
  | stop f => trivial

theorem Flow.Splits.leads {P : State → Prop} {r : Flow} (h : r.Splits P P) : r.Leads P := by
  cases r <;> exact h

theorem Flow.Splits.each {α : Type} {Q P : State → Prop} {g : α → State → Flow}
    (hg : ∀ x t, Q t → (g x t).Splits Q P) (xs : List α) (s : State) (hs : Q s) : (Flow.each g xs s).Splits Q P := by
  induction xs generalizing s with
  | nil => exact hs
  | cons x xs ih => exact (hg x s hs).andThen fun t ht => ih t ht

/-! ## What the decode keeps -/

/-- Everything but `phase`, `err_code`, `fb`, the results and the values inside the decode is as before. -/
structure Kept (s t : State) : Prop where
  cfg : t.cfg = s.cfg
  variantQ : t.variantQ = s.variantQ
  timeoutUsQ : t.timeoutUsQ = s.timeoutUsQ
  curLevel : t.curLevel = s.curLevel
  pulseStart : t.pulseStart = s.pulseStart
  pollCnt : t.pollCnt = s.pollCnt
  pcount : t.pcount = s.pcount
  pulseMem : t.pulseMem = s.pulseMem
  inputs : t.inputs = s.inputs

theorem Kept.refl (s : State) : Kept s s := ⟨rfl, rfl, rfl, rfl, rfl, rfl, rfl, rfl, rfl⟩

theorem Kept.trans {s t u : State} (h : Kept s t) (k : Kept t u) : Kept s u :=
  ⟨k.cfg.trans h.cfg, k.variantQ.trans h.variantQ, k.timeoutUsQ.trans h.timeoutUsQ, k.curLevel.trans h.curLevel,
    k.pulseStart.trans h.pulseStart, k.pollCnt.trans h.pollCnt, k.pcount.trans h.pcount, k.pulseMem.trans h.pulseMem,
    k.inputs.trans h.inputs⟩

theorem Kept.withError (s : State) (k : ErrKind) : Kept s (s.withError k) :=
  ⟨rfl, rfl, rfl, rfl, rfl, rfl, rfl, rfl, rfl⟩

theorem Kept.withByte (s : State) (b : Byte) : Kept s (s.withByte b) :=
  ⟨rfl, rfl, rfl, rfl, rfl, rfl, rfl, rfl, rfl⟩

theorem Kept.pulseAt {s t : State} (h : Kept s t) (i : Nat) : t.pulseAt i = s.pulseAt i := by
  simp [State.pulseAt, h.pcount, h.pulseMem]

/-! ## How a decode ends -/

/-- The error entry of a decode: DONE, results 0, a kind that is neither IoError nor CapacityError
(`60_exceptions.md` R146, R155, R156). -/
structure DecodeFails (s t : State) : Prop where
  kept : Kept s t
  phase : t.phase = .done
  hum : t.humX10 = 0
  temp : t.tempX10 = 0
  kind : ∃ k, t.errCode = some k ∧ k ≠ .ioError ∧ k ≠ .capacityError

theorem DecodeFails.of_withError {s u : State} (h : Kept s u) (k : ErrKind) (h1 : k ≠ .ioError)
    (h2 : k ≠ .capacityError) : DecodeFails s (u.withError k) :=
  ⟨h.trans (Kept.withError u k), rfl, rfl, rfl, ⟨k, rfl, h1, h2⟩⟩

/-- Step 1 (`42_frame_decoder.md` R116, R117). -/
theorem fdLength_splits (s : State) :
    (fdLength s).Splits
      (fun t => legalLength s.pcount = true ∧
        t = { s with locals := { s.locals with base := trimBase s.pcount } })
      (fun t => legalLength s.pcount = false ∧ t = s.withError .frameLengthError) := by
  cases h : legalLength s.pcount <;> simp [fdLength, h, fdTrim, fdLenErr, Flow.Splits]

/-- One byte of step 2: `fb[k]` written, or an error with `fb` kept. -/
theorem fdByte_splits (k : Fin 5) (s : State) :
    (fdByte k s).Splits (fun t => ∃ b, t = { s.withByte b with fb := s.fb.set k b })
      (fun t => ∃ b, t = s.withError .rangeError ∨ t = (s.withByte b).withError .protocolError) := by
  rw [fdByte]
  rcases bdByte_cases (byteStart s.locals.base k) s with ⟨b, h⟩ | ⟨_, h⟩ | ⟨b, h⟩ | ⟨a, h⟩
  · rw [h]; exact ⟨b, rfl⟩
  · rw [h]; exact ⟨0, .inl rfl⟩
  · rw [h]; exact ⟨b, .inr rfl⟩
  · rw [h]; trivial

/-- Step 2 keeps everything but `fb` and the values inside the decode, or ends in a decode error
(`42_frame_decoder.md` R118). -/
theorem fdBytes_splits (s : State) :
    (fdBytes s).Splits
      (fun t => Kept s t ∧ t.phase = s.phase ∧ t.errCode = s.errCode ∧ t.humX10 = s.humX10 ∧ t.tempX10 = s.tempX10)
      (DecodeFails s) := by
  rw [fdBytes]
  refine Flow.Splits.each (Q := fun t => Kept s t ∧ t.phase = s.phase ∧ t.errCode = s.errCode ∧
    t.humX10 = s.humX10 ∧ t.tempX10 = s.tempX10) ?_ _ _ ⟨Kept.refl s, rfl, rfl, rfl, rfl⟩
  rintro k t ⟨hk, h1, h2, h3, h4⟩
  refine (fdByte_splits k t).mono ?_ ?_
  · rintro u ⟨b, rfl⟩
    exact ⟨hk.trans ⟨rfl, rfl, rfl, rfl, rfl, rfl, rfl, rfl, rfl⟩, h1, h2, h3, h4⟩
  · rintro u ⟨b, rfl | rfl⟩
    · exact .of_withError hk _ (by simp) (by simp)
    · exact .of_withError (hk.trans (Kept.withByte t b)) _ (by simp) (by simp)

/-- Step 3 (`42_frame_decoder.md` R119). -/
theorem fdCsum_eq (s : State) :
    fdCsum s = if s.fb.b4 = checksum s.fb then .go s else .ended (s.withError .checksumError) := by
  by_cases h : s.fb.b4 = checksum s.fb <;> simp [fdCsum, h]

/-- The checksum in integers (`42_frame_decoder.md` R119). -/
theorem checksum_toNat (f : FrameBytes) :
    (checksum f).toNat = (f.b0.toNat + f.b1.toNat + f.b2.toNat + f.b3.toNat) % 256 := by
  simp only [checksum, BitVec.toNat_add]
  omega

/-- Step 5 (`42_frame_decoder.md` R122). -/
theorem fdRange_eq (s : State) :
    fdRange s = if 1000 < s.humX10.toNat then .ended (s.withError .rangeError) else .go s := by
  by_cases h : 1000 < s.humX10.toNat <;> simp [fdRange, humOutOfRange, humMaxX10, h]

/-- A legal length in integers (`30_encoding.md` R70). -/
theorem legalLength_iff (n : Half) : legalLength n = true ↔ 82 ≤ n.toNat ∧ n.toNat ≤ 85 := by
  rw [legalLength, Bool.and_eq_true]
  exact and_congr decide_eq_true_iff decide_eq_true_iff

/-- `base = n - 82` in integers (`42_frame_decoder.md` R116). -/
theorem trimBase_toNat {n : Half} (h : 82 ≤ n.toNat) : (trimBase n).toNat = n.toNat - 82 := by
  have := n.isLt
  simp only [trimBase, frameMin, BitVec.toNat_sub, BitVec.toNat_ofNat]
  omega

/-- How a frame decode that goes through ends: a Reading, with a legal length, a matching checksum and a humidity in range
(`42_frame_decoder.md` R115, R124). -/
structure DecodeOk (s t : State) : Prop where
  kept : Kept s t
  phase : t.phase = .done
  errCode : t.errCode = none
  legal : 82 ≤ s.pcount.toNat ∧ s.pcount.toNat ≤ 85
  sum : t.fb.b4.toNat = (t.fb.b0.toNat + t.fb.b1.toNat + t.fb.b2.toNat + t.fb.b3.toNat) % 256
  range : t.humX10.toNat ≤ 1000

/-- Everything the frame decode can do: give a Reading, end in an error, or stop at an entry without a value. -/
theorem frameDecode_splits (s : State) : (frameDecode s).Splits (DecodeOk s) (DecodeFails s) := by
  have h1 : (fdLength s).Splits (fun t => Kept s t ∧ 82 ≤ s.pcount.toNat ∧ s.pcount.toNat ≤ 85) (DecodeFails s) := by
    refine (fdLength_splits s).mono ?_ ?_
    · rintro t ⟨hl, rfl⟩
      exact ⟨⟨rfl, rfl, rfl, rfl, rfl, rfl, rfl, rfl, rfl⟩, (legalLength_iff _).1 hl⟩
    · rintro t ⟨-, rfl⟩
      exact .of_withError (Kept.refl s) _ (by simp) (by simp)
  have h2 : ((fdLength s).andThen fdBytes).Splits
      (fun t => Kept s t ∧ 82 ≤ s.pcount.toNat ∧ s.pcount.toNat ≤ 85) (DecodeFails s) := by
    refine h1.andThen ?_
    rintro t ⟨hk, hl⟩
    refine (fdBytes_splits t).mono ?_ ?_
    · rintro u ⟨hu, -⟩
      exact ⟨hk.trans hu, hl⟩
    · rintro u ⟨hu, a, b, c, d⟩
      exact ⟨hk.trans hu, a, b, c, d⟩
  have h3 : (((fdLength s).andThen fdBytes).andThen fdCsum).Splits
      (fun t => Kept s t ∧ (82 ≤ s.pcount.toNat ∧ s.pcount.toNat ≤ 85) ∧ t.fb.b4 = checksum t.fb)
      (DecodeFails s) := by
    refine h2.andThen ?_
    rintro t ⟨hk, hl⟩
    rw [fdCsum_eq]
    split
    · rename_i hc
      exact ⟨hk, hl, hc⟩
    · exact .of_withError hk _ (by simp) (by simp)
  have h4 : ((((fdLength s).andThen fdBytes).andThen fdCsum).andThen fdConvert).Splits
      (fun t => Kept s t ∧ (82 ≤ s.pcount.toNat ∧ s.pcount.toNat ≤ 85) ∧ t.fb.b4 = checksum t.fb)
      (DecodeFails s) := by
    refine h3.andThen ?_
    rintro t ⟨hk, hl, hc⟩
    have hk' : ∀ h v : Half, Kept s { t with humX10 := h, tempX10 := v } := fun h v =>
      hk.trans ⟨rfl, rfl, rfl, rfl, rfl, rfl, rfl, rfl, rfl⟩
    rw [fdConvert]
    cases t.variantQ
    · exact ⟨hk' _ _, hl, hc⟩
    · exact ⟨hk' _ _, hl, hc⟩
  have h5 : (((((fdLength s).andThen fdBytes).andThen fdCsum).andThen fdConvert).andThen fdRange).Splits
      (fun t => Kept s t ∧ (82 ≤ s.pcount.toNat ∧ s.pcount.toNat ≤ 85) ∧ t.fb.b4 = checksum t.fb ∧
        t.humX10.toNat ≤ 1000) (DecodeFails s) := by
    refine h4.andThen ?_
    rintro t ⟨hk, hl, hc⟩
    rw [fdRange_eq]
    split
    · exact .of_withError hk _ (by simp) (by simp)
    · rename_i hr
      exact ⟨hk, hl, hc, Nat.not_lt.mp hr⟩
  refine h5.andThen ?_
  rintro t ⟨hk, hl, hc, hr⟩
  refine ⟨hk.trans ⟨rfl, rfl, rfl, rfl, rfl, rfl, rfl, rfl, rfl⟩, rfl, rfl, hl, ?_, hr⟩
  rw [← checksum_toNat]
  exact congrArg BitVec.toNat hc

/-! ## It runs on a filled memory -/

theorem bdPair_runs {s : State} {start : Half} {i : BitVec 3} (hf : ∀ a, a < s.pcount.toNat → ∃ p, s.pulseAt a = some p)
    (h : start.toNat + 16 ≤ s.pcount.toNat) : (bdPair start i s).Runs := by
  have hi := i.isLt
  obtain ⟨lo, hlo⟩ := hf (lowIndex start i) (by unfold lowIndex; omega)
  obtain ⟨hh, hhi⟩ := hf (highIndex start i) (by unfold highIndex; omega)
  rw [bdPair_of_some hlo hhi]
  split <;> trivial

theorem bdByte_runs {s : State} (start : Half) (hf : ∀ a, a < s.pcount.toNat → ∃ p, s.pulseAt a = some p) :
    (bdByte start s).Runs := by
  by_cases h : s.pcount.toNat < start.toNat + 16
  · rw [bdByte_of_short h]; trivial
  · rw [bdByte_of_le (Nat.not_lt.mp h)]
    refine Flow.Runs.each (P := fun t => t.pcount = s.pcount ∧ ∀ a, t.pulseAt a = s.pulseAt a) ?_ ?_ _ _ ⟨rfl, fun _ => rfl⟩
    · rintro i t ⟨h1, h2⟩
      rcases bdPair_cases start i t with ⟨b, hb⟩ | hb | ⟨a, hb⟩ <;> rw [hb]
      · exact ⟨h1, h2⟩
      · exact ⟨h1, h2⟩
      · trivial
    · rintro i t ⟨h1, h2⟩
      exact bdPair_runs (by simpa only [h1, h2] using hf) (by rw [h1]; omega)

theorem fdByte_runs {s : State} (k : Fin 5) (hf : ∀ a, a < s.pcount.toNat → ∃ p, s.pulseAt a = some p) :
    (fdByte k s).Runs := by
  have h := bdByte_runs (byteStart s.locals.base k) hf
  rw [fdByte]
  revert h
  cases bdByte (byteStart s.locals.base k) s with
  | go t => exact fun _ => trivial
  | ended t => exact fun _ => trivial
  | stop f => exact fun h => h

theorem fdBytes_runs {s : State} (hf : ∀ a, a < s.pcount.toNat → ∃ p, s.pulseAt a = some p) : (fdBytes s).Runs := by
  refine Flow.Runs.each (P := Kept s) ?_ ?_ _ _ (Kept.refl s)
  · intro k t hk
    refine (Flow.Splits.mono (fdByte_splits k t) ?_ ?_).leads
    · rintro u ⟨b, rfl⟩
      exact hk.trans ⟨rfl, rfl, rfl, rfl, rfl, rfl, rfl, rfl, rfl⟩
    · rintro u ⟨b, rfl | rfl⟩
      · exact hk.trans (Kept.withError _ _)
      · exact hk.trans ⟨rfl, rfl, rfl, rfl, rfl, rfl, rfl, rfl, rfl⟩
  · intro k t hk
    exact fdByte_runs k (by simpa only [hk.pcount, hk.pulseAt] using hf)

theorem Flow.Runs.andThen {r : Flow} {g : State → Flow} (h : r.Runs) (hg : ∀ t, r = .go t → (g t).Runs) :
    (r.andThen g).Runs := by
  cases r with
  | go t => exact hg t rfl
  | ended t => trivial
  | stop f => exact absurd h id

theorem fdCsum_runs (s : State) : (fdCsum s).Runs := by rw [fdCsum_eq]; split <;> trivial
theorem fdRange_runs (s : State) : (fdRange s).Runs := by rw [fdRange_eq]; split <;> trivial
theorem fdConvert_runs (s : State) : (fdConvert s).Runs := by rw [fdConvert]; cases s.variantQ <;> trivial
theorem fdCommit_runs (s : State) : (fdCommit s).Runs := trivial

/-- A frame decode on a filled memory never stops (`20_memory.md` R48: no operation reads an entry without a value). -/
theorem frameDecode_runs {s : State} (hf : ∀ a, a < s.pcount.toNat → ∃ p, s.pulseAt a = some p) :
    (frameDecode s).Runs := by
  have h1 : (fdLength s).Runs := by
    rw [fdLength]
    split <;> trivial
  have h2 : ((fdLength s).andThen fdBytes).Runs := by
    refine h1.andThen fun t ht => fdBytes_runs ?_
    have := fdLength_splits s
    rw [ht] at this
    obtain ⟨-, rfl⟩ := this
    exact hf
  exact (((h2.andThen fun t _ => fdCsum_runs t).andThen fun t _ => fdConvert_runs t).andThen
    fun t _ => fdRange_runs t).andThen fun t _ => fdCommit_runs t

end Sys2Proof.Machine
end

