-- ==== Sys2Proof/Laws/Step.lean ====
section
/-! SUPPORT. What a step selects and what each operation can do: the command of a clock edge, the operation of a SAMPLE, the
two operations that store a pulse, and one lemma for the frame of every operation. -/

namespace Sys2Proof.Machine

/-! ## One step -/

/-- A clock edge runs the command of the priority `rst > io_err > start > s_valid` (`30_encoding.md` R67). -/
theorem step_clock {s : State} {p : Ports} {rest : List Input} (h : s.inputs = .clock p :: rest) :
    step s = exec
      (if p.rst then .reset
       else if p.ioErr then (if s.busy then .ioerrBusy else .ioerrDrop)
       else if p.start then (if s.busy then .startDrop p.variant p.timeoutMs else .startGo p.variant p.timeoutMs)
       else if p.sValid then .sample p.sLevel p.sTs
       else .nop) { s with inputs := rest } := by
  simp only [step, fetch, h, selectCommand_eq, consume_of_cons h]

theorem step_alone {s : State} {w : OpWord} {rest : List Input} (h : s.inputs = .alone w :: rest) :
    step s = match decode w with
      | .ok i => exec i { s with inputs := rest }
      | .error e => .refused (.undecodable e) := by
  cases hd : decode w <;> simp [step, fetch, h, hd, consume_of_cons h]

theorem step_nil {s : State} (h : s.inputs = []) : step s = .next s := by
  simp only [step, fetch, h, selectCommand_eq, consume_of_nil h]
  rfl

/-! ## The conditions of the SMP word (`40_pulse_reconstructor.md` R94) -/

section conditions
variable (s : State) (l : Level) (ts : Stamp)
theorem neq_iff : neq s l = true ↔ l ≠ s.curLevel := by simp [neq]
theorem full_iff : full s = true ↔ s.cfg.maxPulses ≤ s.pcount.toNat + 1 := by simp [full]
theorem pollHit_iff : pollHit s = true ↔ s.pollCnt + 1 = s.cfg.pollN := by simp [pollHit]
theorem expired_iff : expired s ts = true ↔ s.timeoutUsQ.toNat < (ts - s.pulseStart).toNat := by
  exact decide_eq_true_iff
end conditions

/-! ## The operations that store a pulse -/

/-- The state after PR.EDGE with room (`40_pulse_reconstructor.md` R92). -/
def State.edged (s : State) (l : Level) (ts : Stamp) : State :=
  { s.appended s.curLevel (ts - s.pulseStart) with curLevel := l, pulseStart := ts, pollCnt := 0 }

theorem exec_prEdge {s : State} (l : Level) (ts : Stamp) (h : s.pcount.toNat < s.cfg.maxPulses) :
    exec (.prEdge l ts) s = .next (s.edged l ts) := by
  simp only [exec, execPrEdge, prEdge, elapsed, pulseAppend_of_lt _ _ h]
  rfl

/-- The state in which PR.TIMEOUT's frame decode begins (`40_pulse_reconstructor.md` R97). -/
def State.closed (s : State) : State := { s.appended s.curLevel s.timeoutUsQ with pollCnt := 0 }

section closed
variable (s : State)
@[simp] theorem closed_cfg : s.closed.cfg = s.cfg := rfl
@[simp] theorem closed_variantQ : s.closed.variantQ = s.variantQ := rfl
@[simp] theorem closed_timeoutUsQ : s.closed.timeoutUsQ = s.timeoutUsQ := rfl
@[simp] theorem closed_curLevel : s.closed.curLevel = s.curLevel := rfl
@[simp] theorem closed_pulseStart : s.closed.pulseStart = s.pulseStart := rfl
@[simp] theorem closed_pollCnt : s.closed.pollCnt = 0 := rfl
@[simp] theorem closed_pcount : s.closed.pcount = s.pcount + 1 := rfl
@[simp] theorem closed_pulseMem :
    s.closed.pulseMem = s.pulseMem.put s.pcount.toNat ⟨s.curLevel, s.timeoutUsQ⟩ := rfl
@[simp] theorem closed_inputs : s.closed.inputs = s.inputs := rfl
@[simp] theorem closed_pulseAt (i : Nat) :
    s.closed.pulseAt i = (s.appended s.curLevel s.timeoutUsQ).pulseAt i := rfl
end closed

/-- PR.TIMEOUT with room is the frame decode on the closed pulses. -/
theorem exec_prTimeout {s : State} (l : Level) (ts : Stamp) (h : s.pcount.toNat < s.cfg.maxPulses) :
    exec (.prTimeout l ts) s = ((frameDecode s.closed).map fun t => { t with locals := .zero }).outcome := by
  simp only [exec, execPrTimeout, prTimeout, pulseAppend_of_lt _ _ h]
  rfl

/-- A filled memory stays filled at an append. -/
theorem appended_filled {s : State} (l : Level) (d : Stamp) (hc : s.cfg.wf = true)
    (h : s.pcount.toNat < s.cfg.maxPulses) (hf : s.Filled) :
    ∀ i, i < (s.appended l d).pcount.toNat → ∃ p, (s.appended l d).pulseAt i = some p := by
  intro i hi
  rw [appended_pulseAt l d hc h]
  simp only [appended_pcount, pcount_succ hc h] at hi
  split
  · exact ⟨_, rfl⟩
  · exact State.Filled_pulseAt hf (by omega)

/-- Everything PR.TIMEOUT can end in, with room: a Reading or a decode error, DONE in both (`40_pulse_reconstructor.md` R97). -/
theorem exec_prTimeout_cases {s t : State} (l : Level) (ts : Stamp) (h : s.pcount.toNat < s.cfg.maxPulses)
    (ht : exec (.prTimeout l ts) s = .next t) :
    ∃ u, t = { u with locals := .zero } ∧ (DecodeOk s.closed u ∨ DecodeFails s.closed u) := by
  rw [exec_prTimeout l ts h] at ht
  have hs := frameDecode_splits s.closed
  revert hs ht
  generalize frameDecode s.closed = r
  cases r with
  | go u => intro ht hs; exact ⟨u, (Host.Outcome.next.inj ht).symm, .inl hs⟩
  | ended u => intro ht hs; exact ⟨u, (Host.Outcome.next.inj ht).symm, .inr hs⟩
  | stop f => intro ht; simp at ht

/-- PR.TIMEOUT with room on a filled memory completes. -/
theorem exec_prTimeout_runs {s : State} (l : Level) (ts : Stamp) (hc : s.cfg.wf = true)
    (h : s.pcount.toNat < s.cfg.maxPulses) (hf : s.Filled) : ∃ t, exec (.prTimeout l ts) s = .next t := by
  rw [exec_prTimeout l ts h]
  have hr : (frameDecode s.closed).Runs := frameDecode_runs fun i hi => by
    rw [closed_pulseAt]
    exact appended_filled _ _ hc h hf i hi
  exact Flow.Runs.exists_next (Flow.Runs.map hr)

/-- PR.TIMEOUT without room stops. -/
theorem exec_prTimeout_full {s : State} (l : Level) (ts : Stamp) (h : s.cfg.maxPulses ≤ s.pcount.toNat) :
    exec (.prTimeout l ts) s = .fault (.pulseWriteOutside s.pcount.toNat) := by
  simp only [exec, execPrTimeout, prTimeout, pulseAppend_of_le _ _ h]
  rfl

/-- PR.EDGE without room stops. -/
theorem exec_prEdge_full {s : State} (l : Level) (ts : Stamp) (h : s.cfg.maxPulses ≤ s.pcount.toNat) :
    exec (.prEdge l ts) s = .fault (.pulseWriteOutside s.pcount.toNat) := by
  simp only [exec, execPrEdge, prEdge, pulseAppend_of_le _ _ h]
  rfl

end Sys2Proof.Machine
end

