-- ==== Sys2Proof/Laws/Exec.lean ====
section
/-! SUPPORT. Everything an operation can do when it answers a next state, said once: a proof about every operation takes
`exec_effect` apart and never unfolds a meaning. -/

namespace Sys2Proof.Machine

/-- The state after RESET (`43_control_ops.md` R131). -/
def State.cleared (s : State) : State :=
  { s with phase := .idle, errCode := none, variantQ := .a, timeoutUsQ := 0, curLevel := false, pulseStart := 0
           pollCnt := 0, pcount := 0, fb := .zero, humX10 := 0, tempX10 := 0 }

/-- The state after START.GO (`43_control_ops.md` R133). -/
def State.started (s : State) (v : Variant) (ms : Half) : State :=
  { s with variantQ := v, timeoutUsQ := timeoutUs ms, phase := .armed, errCode := none, pcount := 0, pollCnt := 0
           fb := .zero, humX10 := 0, tempX10 := 0 }

/-- The state after PR.FIRST (`40_pulse_reconstructor.md` R91). -/
def State.opened (s : State) (l : Level) (ts : Stamp) : State :=
  { s with curLevel := l, pulseStart := ts, pollCnt := 0, phase := .capture }

/-- What an operation of the two decoders, run alone, can do: keep the control state, end in an error, or commit. -/
inductive UnitEffect (s : State) : State → Prop
  | goesOn {t : State} (k : Kept s t) (hp : t.phase = s.phase) (he : t.errCode = s.errCode) : UnitEffect s t
  | fails {t : State} (h : DecodeFails s t) : UnitEffect s t
  | commits {t : State} (k : Kept s t) (hp : t.phase = .done) (he : t.errCode = none) : UnitEffect s t

/-- The operations of the two decoders. -/
def inDecoders : Instr → Bool
  | .bdByte _ => true
  | .bdShort _ => true
  | .bdErrPolLow => true
  | .bdErrPolHigh => true
  | .bdErrWidth => true
  | .bdBit0 _ => true
  | .bdBit1 _ => true
  | .fdTrim _ => true
  | .fdLenErr _ => true
  | .fdBytes => true
  | .fdCsum => true
  | .fdConvA => true
  | .fdConvB => true
  | .fdRange => true
  | .fdCommit => true
  | _ => false

/-- What an operation can do. -/
inductive Effect (s : State) : Instr → State → Prop
  | reset : Effect s .reset s.cleared
  | start (v : Variant) (ms : Half) : Effect s (.startGo v ms) (s.started v ms)
  | same (i : Instr) : Effect s i s
  | ioError : Effect s .ioerrBusy (s.withError .ioError)
  | first (l : Level) (ts : Stamp) : Effect s (.prFirst l ts) (s.opened l ts)
  | edge (l : Level) (ts : Stamp) (h : s.pcount.toNat < s.cfg.maxPulses) : Effect s (.prEdge l ts) (s.edged l ts)
  | overflow (l : Level) (ts : Stamp) : Effect s (.prOverflow l ts) (s.withError .capacityError)
  | hold (l : Level) (ts : Stamp) : Effect s (.prHold l ts) { s with pollCnt := s.pollCnt + 1 }
  | poll (l : Level) (ts : Stamp) : Effect s (.prPoll l ts) { s with pollCnt := 0 }
  | timeout (l : Level) (ts : Stamp) (u : State) (h : s.pcount.toNat < s.cfg.maxPulses)
      (hu : DecodeOk s.closed u ∨ DecodeFails s.closed u) : Effect s (.prTimeout l ts) { u with locals := .zero }
  | sample (l : Level) (ts : Stamp) {t : State} (h : Effect s (sampleOp s l ts) t) : Effect s (.sample l ts) t
  | unit {i : Instr} {t : State} (h : UnitEffect s t) (hi : inDecoders i = true) : Effect s i t

/-- A flow that keeps the control state or ends in a decode error. -/
theorem UnitEffect.of_splits {s t : State} {r : Flow}
    (h : r.Splits (fun u => Kept s u ∧ u.phase = s.phase ∧ u.errCode = s.errCode) (DecodeFails s))
    (ht : r.outcome = .next t) : UnitEffect s t := by
  rcases Flow.outcome_eq_next ht with rfl | rfl
  · exact .goesOn h.1 h.2.1 h.2.2
  · exact .fails h

theorem bdByte_unit (start : Half) (s : State) :
    (bdByte start s).Splits (fun u => Kept s u ∧ u.phase = s.phase ∧ u.errCode = s.errCode) (DecodeFails s) := by
  rcases bdByte_cases start s with ⟨b, h⟩ | ⟨-, h⟩ | ⟨b, h⟩ | ⟨a, h⟩ <;> rw [h]
  · exact ⟨Kept.withByte s b, rfl, rfl⟩
  · exact .of_withError (Kept.refl s) _ (by simp) (by simp)
  · exact .of_withError (Kept.withByte s b) _ (by simp) (by simp)
  · trivial

/-- An error raised by an operation of the decoders. -/
theorem UnitEffect.of_raise (s : State) (k : ErrKind) (h1 : k ≠ .ioError) (h2 : k ≠ .capacityError) :
    UnitEffect s (s.withError k) := .fails (.of_withError (Kept.refl s) k h1 h2)

theorem prEdge_effect {s t : State} (l : Level) (ts : Stamp) (ht : exec (.prEdge l ts) s = .next t) :
    Effect s (.prEdge l ts) t := by
  by_cases hr : s.pcount.toNat < s.cfg.maxPulses
  · rw [exec_prEdge l ts hr] at ht
    cases ht
    exact .edge l ts hr
  · rw [exec_prEdge_full l ts (Nat.not_lt.mp hr)] at ht
    cases ht

theorem prTimeout_effect {s t : State} (l : Level) (ts : Stamp) (ht : exec (.prTimeout l ts) s = .next t) :
    Effect s (.prTimeout l ts) t := by
  by_cases hr : s.pcount.toNat < s.cfg.maxPulses
  · obtain ⟨u, rfl, hu⟩ := exec_prTimeout_cases l ts hr ht
    exact .timeout l ts u hr hu
  · rw [exec_prTimeout_full l ts (Nat.not_lt.mp hr)] at ht
    cases ht

/-- The seven cases of a SAMPLE with their conditions (`43_control_ops.md` R135). -/
theorem sampleOp_cases (s : State) (l : Level) (ts : Stamp) :
    ((s.phase = .idle ∨ s.phase = .done) ∧ sampleOp s l ts = .smpDrop l ts) ∨
    (s.phase = .armed ∧ sampleOp s l ts = .prFirst l ts) ∨
    (s.phase = .capture ∧ l ≠ s.curLevel ∧ s.pcount.toNat + 1 < s.cfg.maxPulses ∧ sampleOp s l ts = .prEdge l ts) ∨
    (s.phase = .capture ∧ l ≠ s.curLevel ∧ s.cfg.maxPulses ≤ s.pcount.toNat + 1 ∧
      sampleOp s l ts = .prOverflow l ts) ∨
    (s.phase = .capture ∧ l = s.curLevel ∧ s.pollCnt + 1 ≠ s.cfg.pollN ∧ sampleOp s l ts = .prHold l ts) ∨
    (s.phase = .capture ∧ l = s.curLevel ∧ s.pollCnt + 1 = s.cfg.pollN ∧
      (ts - s.pulseStart).toNat ≤ s.timeoutUsQ.toNat ∧ sampleOp s l ts = .prPoll l ts) ∨
    (s.phase = .capture ∧ l = s.curLevel ∧ s.pollCnt + 1 = s.cfg.pollN ∧
      s.timeoutUsQ.toNat < (ts - s.pulseStart).toNat ∧ sampleOp s l ts = .prTimeout l ts) := by
  have hn' : neq s l = false ↔ l = s.curLevel := by rw [← Bool.not_eq_true, neq_iff, not_not]
  have hf' : full s = false ↔ s.pcount.toNat + 1 < s.cfg.maxPulses := by rw [← Bool.not_eq_true, full_iff, not_le]
  have hp' : pollHit s = false ↔ s.pollCnt + 1 ≠ s.cfg.pollN := by rw [← Bool.not_eq_true, pollHit_iff]
  have he' : expired s ts = false ↔ (ts - s.pulseStart).toNat ≤ s.timeoutUsQ.toNat := by
    rw [← Bool.not_eq_true, expired_iff, not_lt]
  rw [← neq_iff, ← full_iff, ← hf', ← expired_iff, ← he', ← hp', ← pollHit_iff, ← hn']
  unfold sampleOp
  cases s.phase <;> cases neq s l <;> cases full s <;> cases pollHit s <;> cases expired s ts <;> simp

theorem sampleOp_effect {s t : State} (l : Level) (ts : Stamp) (ht : exec (sampleOp s l ts) s = .next t) :
    Effect s (sampleOp s l ts) t := by
  rcases sampleOp_cases s l ts with ⟨-, e⟩ | ⟨-, e⟩ | ⟨-, -, -, e⟩ | ⟨-, -, -, e⟩ | ⟨-, -, -, e⟩ | ⟨-, -, -, -, e⟩ |
    ⟨-, -, -, -, e⟩ <;> rw [e] at ht ⊢
  · cases ht; exact .same _
  · cases ht; exact .first l ts
  · exact prEdge_effect l ts ht
  · cases ht; exact .overflow l ts
  · cases ht; exact .hold l ts
  · cases ht; exact .poll l ts
  · exact prTimeout_effect l ts ht

/-- Everything an operation can do when it answers a next state. -/
theorem exec_effect {i : Instr} {s t : State} (h : exec i s = .next t) : Effect s i t := by
  cases i with
  | reset => cases h; exact .reset
  | nop => cases h; exact .same _
  | startGo v ms => cases h; exact .start v ms
  | startDrop v ms => cases h; exact .same _
  | sample l ts => rw [exec_sample] at h; exact .sample l ts (sampleOp_effect l ts h)
  | ioerrBusy => cases h; exact .ioError
  | ioerrDrop => cases h; exact .same _
  | smpDrop l ts => cases h; exact .same _
  | prFirst l ts => cases h; exact .first l ts
  | prEdge l ts => exact prEdge_effect l ts h
  | prOverflow l ts => cases h; exact .overflow l ts
  | prHold l ts => cases h; exact .hold l ts
  | prPoll l ts => cases h; exact .poll l ts
  | prTimeout l ts => exact prTimeout_effect l ts h
  | bdByte start => exact .unit (.of_splits (bdByte_unit start s) h) rfl
  | bdShort start => cases h; exact .unit (.of_raise s _ (by simp) (by simp)) rfl
  | bdErrPolLow => cases h; exact .unit (.of_raise s _ (by simp) (by simp)) rfl
  | bdErrPolHigh => cases h; exact .unit (.of_raise s _ (by simp) (by simp)) rfl
  | bdErrWidth => cases h; exact .unit (.of_raise s _ (by simp) (by simp)) rfl
  | bdBit0 i => cases h; exact .unit (.goesOn (Kept.withByte s _) rfl rfl) rfl
  | bdBit1 i => cases h; exact .unit (.goesOn (Kept.withByte s _) rfl rfl) rfl
  | fdTrim n =>
    cases h
    exact .unit (.goesOn ⟨rfl, rfl, rfl, rfl, rfl, rfl, rfl, rfl, rfl⟩ rfl rfl) rfl
  | fdLenErr n => cases h; exact .unit (.of_raise s _ (by simp) (by simp)) rfl
  | fdBytes =>
    refine .unit (.of_splits ((fdBytes_splits s).mono (fun u hu => ⟨hu.1, hu.2.1, hu.2.2.1⟩) fun u hu => hu) h)
      rfl
  | fdCsum =>
    refine .unit (.of_splits ?_ (show (fdCsum s).outcome = _ from h)) rfl
    rw [fdCsum_eq]
    split
    · exact ⟨Kept.refl s, rfl, rfl⟩
    · exact .of_withError (Kept.refl s) _ (by simp) (by simp)
  | fdConvA =>
    cases h
    exact .unit (.goesOn ⟨rfl, rfl, rfl, rfl, rfl, rfl, rfl, rfl, rfl⟩ rfl rfl) rfl
  | fdConvB =>
    cases h
    exact .unit (.goesOn ⟨rfl, rfl, rfl, rfl, rfl, rfl, rfl, rfl, rfl⟩ rfl rfl) rfl
  | fdRange =>
    refine .unit (.of_splits ?_ (show (fdRange s).outcome = _ from h)) rfl
    rw [fdRange_eq]
    split
    · exact .of_withError (Kept.refl s) _ (by simp) (by simp)
    · exact ⟨Kept.refl s, rfl, rfl⟩
  | fdCommit =>
    cases h
    exact .unit (.commits ⟨rfl, rfl, rfl, rfl, rfl, rfl, rfl, rfl, rfl⟩ rfl rfl) rfl

end Sys2Proof.Machine
end

