-- ==== Sys2Proof/Laws/Payload.lean ====
section
/-! SUPPORT. The outcome of a frame decode depends on the variant, the parameters, and of the eighty payload pulses on the
levels and the durations of the high ones alone: two decodes side by side. -/

namespace Sys2Proof.Machine

/-- The result a frame decode ends with. -/
def Flow.result : Flow → FrameResult
  | .go t => t.outcome
  | .ended t => t.outcome
  | .stop (.pulseReadNoValue i) => .noValue i
  | .stop (.pulseWriteOutside i) => .noValue i

theorem decodeFrame_eq (c : Config) (v : Variant) (ps : List Pulse) :
    decodeFrame c v ps = (frameDecode (frameState c v ps)).result := by
  unfold decodeFrame
  cases frameDecode (frameState c v ps) with
  | go t => rfl
  | ended t => rfl
  | stop f => cases f <;> rfl

/-- Two flows that go on together in related states, or have ended with the same error. -/
def Flow.Rel (G : State → State → Prop) : Flow → Flow → Prop
  | .go t, .go t' => G t t'
  | .ended t, .ended t' => ∃ k, t.errCode = some k ∧ t'.errCode = some k
  | _, _ => False

theorem Flow.Rel.andThen {G H : State → State → Prop} {r r' : Flow} {g g' : State → Flow} (h : r.Rel G r')
    (hg : ∀ t t', G t t' → (g t).Rel H (g' t')) : (r.andThen g).Rel H (r'.andThen g') := by
  cases r <;> cases r' <;> first | exact hg _ _ h | exact h | exact h.elim

theorem Flow.Rel.mono {G H : State → State → Prop} {r r' : Flow} (h : r.Rel G r') (hg : ∀ t t', G t t' → H t t') :
    r.Rel H r' := by
  cases r <;> cases r' <;> first | exact hg _ _ h | exact h

theorem Flow.Rel.each {α : Type} {G : State → State → Prop} {g g' : α → State → Flow} (xs : List α)
    (hg : ∀ x ∈ xs, ∀ t t', G t t' → (g x t).Rel G (g' x t')) {s s' : State} (hs : G s s') :
    (Flow.each g xs s).Rel G (Flow.each g' xs s') := by
  induction xs generalizing s s' with
  | nil => exact hs
  | cons x xs ih => exact (hg x (by simp) s s' hs).andThen fun t t' ht => ih (fun y hy => hg y (by simp [hy])) ht

theorem Flow.Rel.result {r r' : Flow} (h : r.Rel (fun t t' => t.outcome = t'.outcome) r') : r.result = r'.result := by
  cases r with
  | go t => cases r' <;> first | exact h | exact h.elim
  | ended t =>
    cases r' with
    | ended t' =>
      obtain ⟨k, h1, h2⟩ := h
      simp [Flow.result, State.outcome, h1, h2]
    | go t' => exact h.elim
    | stop f => exact h.elim
  | stop f => cases r' <;> exact h.elim

/-- The eighty payload pulses of two states agree in every level and in every high pulse's duration. -/
structure SamePayload (t t' : State) : Prop where
  cfg : t.cfg = t'.cfg
  room : t.locals.base.toNat + 80 ≤ t.pcount.toNat
  room' : t'.locals.base.toNat + 80 ≤ t'.pcount.toNat
  pulses : ∀ i, i < 80 → ∃ p q, t.pulseAt (t.locals.base.toNat + i) = some p ∧
    t'.pulseAt (t'.locals.base.toNat + i) = some q ∧ p.level = q.level ∧ (i % 2 = 1 → p.dur = q.dur)

/-- What `SamePayload` looks at. -/
theorem SamePayload.congr {t t' u u' : State} (h : SamePayload t t') (h1 : u.cfg = t.cfg) (h2 : u.pcount = t.pcount)
    (h3 : u.pulseMem = t.pulseMem) (h4 : u.locals.base = t.locals.base) (h1' : u'.cfg = t'.cfg)
    (h2' : u'.pcount = t'.pcount) (h3' : u'.pulseMem = t'.pulseMem) (h4' : u'.locals.base = t'.locals.base) :
    SamePayload u u' where
  cfg := by rw [h1, h1', h.cfg]
  room := by rw [h2, h4]; exact h.room
  room' := by rw [h2', h4']; exact h.room'
  pulses := by
    intro i hi
    simpa only [State.pulseAt, h2, h3, h4, h2', h3', h4'] using h.pulses i hi

/-- The index where byte `k` begins does not wrap (`00_scope.md` R15). -/
theorem byteStart_toNat {base : Half} {n : Nat} (k : Fin 5) (h : base.toNat + 80 ≤ n) (hn : n < 65536) :
    (byteStart base k).toNat = base.toNat + 16 * k.val := by
  have := k.isLt
  rw [byteStart, BitVec.toNat_add, BitVec.toNat_ofNat]
  omega

/-- The state after one byte of a frame is written. -/
def State.stored (s : State) (k : Fin 5) (v : Byte) : State := { s.withByte v with fb := s.fb.set k v }

/-- A byte that is carried is written (`42_frame_decoder.md` R118). -/
theorem fdByte_of_carries {s : State} {k : Fin 5} {v : Byte} (h : s.locals.base.toNat + 80 ≤ s.pcount.toNat)
    (hc : s.CarriesByteAt v (s.locals.base.toNat + 16 * k.val)) :
    fdByte k s = .go (s.stored k v) := by
  have hk := byteStart_toNat k h s.pcount.isLt
  have := k.isLt
  rw [fdByte, bdByte_of_carries (v := v) (by rw [hk]; omega) (by rw [hk]; exact hc)]
  rfl

/-- The bytes before a byte, and the byte. -/
theorem byteOrder_split (k : Fin 5) : ∃ b a, byteOrder = b ++ k :: a ∧ ∀ m, m ∈ b ↔ m < k := by
  fin_cases k
  · exact ⟨[], [1, 2, 3, 4], by decide, by decide⟩
  · exact ⟨[0], [2, 3, 4], by decide, by decide⟩
  · exact ⟨[0, 1], [3, 4], by decide, by decide⟩
  · exact ⟨[0, 1, 2], [4], by decide, by decide⟩
  · exact ⟨[0, 1, 2, 3], [], by decide, by decide⟩

/-- Carried bytes are written in order, and no other byte is touched. -/
theorem fdBytes_prefix {s : State} {f : FrameBytes} (ms : List (Fin 5))
    (h : s.locals.base.toNat + 80 ≤ s.pcount.toNat)
    (hc : ∀ m ∈ ms, s.CarriesByteAt (f.get m) (s.locals.base.toNat + 16 * m.val)) :
    ∃ fb b, Flow.each fdByte ms s = .go { s.withByte b with fb := fb } ∧
      (∀ m, fb.get m = if m ∈ ms then f.get m else s.fb.get m) := by
  induction ms generalizing s with
  | nil => exact ⟨s.fb, s.locals.byte, rfl, by simp⟩
  | cons m ms ih =>
    rw [Flow.each_cons, fdByte_of_carries h (hc m (by simp)), Flow.go_andThen]
    obtain ⟨fb, b, h1, h2⟩ := ih (s := s.stored m (f.get m)) h
      (fun m' hm' => hc m' (by simp [hm']))
    refine ⟨fb, b, h1, ?_⟩
    intro m'
    rw [h2]
    show (if m' ∈ ms then f.get m' else (s.fb.set m (f.get m)).get m') = _
    by_cases e : m' = m
    · subst e; simp
    · simp [e, FrameBytes.get_set_ne]

/-- One pair, side by side. -/
theorem bdPair_same {t t' : State} (k : Fin 5) (i : BitVec 3) (h : SamePayload t t')
    (hb : t.locals.byte = t'.locals.byte) :
    (bdPair (byteStart t.locals.base k) i t).Rel
      (fun u u' => ∃ b, u = t.withByte b ∧ u' = t'.withByte b) (bdPair (byteStart t'.locals.base k) i t') := by
  have hk := k.isLt
  have hi := i.isLt
  have e := byteStart_toNat k h.room t.pcount.isLt
  have e' := byteStart_toNat k h.room' t'.pcount.isLt
  obtain ⟨lo, lo', l1, l2, l3, -⟩ := h.pulses (16 * k.val + 2 * i.toNat) (by omega)
  obtain ⟨up, up', u1, u2, u3, u4⟩ := h.pulses (16 * k.val + 2 * i.toNat + 1) (by omega)
  have u4 := u4 (by omega)
  rw [bdPair_of_some (lo := lo) (hi := up) (by rw [lowIndex, e, ← l1]; congr 1; omega)
      (by rw [highIndex, e, ← u1]; congr 1; omega),
    bdPair_of_some (lo := lo') (hi := up') (by rw [lowIndex, e', ← l2]; congr 1; omega)
      (by rw [highIndex, e', ← u2]; congr 1; omega), ← l3, ← u3, ← u4, ← h.cfg, ← hb]
  split
  · exact ⟨_, rfl, rfl⟩
  · exact ⟨_, rfl, rfl⟩

/-- One byte, side by side. -/
theorem fdByte_same {t t' : State} (k : Fin 5) (h : SamePayload t t') :
    (fdByte k t).Rel (fun u u' => SamePayload u u' ∧ u.variantQ = t.variantQ ∧ u'.variantQ = t'.variantQ ∧
      ∃ b, u.fb = t.fb.set k b ∧ u'.fb = t'.fb.set k b) (fdByte k t') := by
  have e := byteStart_toNat k h.room t.pcount.isLt
  have e' := byteStart_toNat k h.room' t'.pcount.isLt
  have hk := k.isLt
  have r := h.room
  have r' := h.room'
  rw [fdByte, fdByte, bdByte_of_le (by omega), bdByte_of_le (by omega)]
  refine Flow.Rel.andThen (G := fun u u' => ∃ b, u = t.withByte b ∧ u' = t'.withByte b) ?_ ?_
  · refine Flow.Rel.each _ ?_ ⟨0, rfl, rfl⟩
    rintro i - u u' ⟨b, rfl, rfl⟩
    refine (bdPair_same (t := t.withByte b) (t' := t'.withByte b) k i
      (h.congr rfl rfl rfl rfl rfl rfl rfl rfl) rfl).mono ?_
    rintro v v' ⟨b', rfl, rfl⟩
    exact ⟨b', by simp, by simp⟩
  · rintro u u' ⟨b, rfl, rfl⟩
    exact ⟨h.congr rfl rfl rfl rfl rfl rfl rfl rfl, rfl, rfl, b, rfl, rfl⟩

/-- The five bytes, side by side: where they go through, all five are the same. -/
theorem fdBytes_same {t t' : State} (h : SamePayload t t') :
    (fdBytes t).Rel (fun u u' => u.variantQ = t.variantQ ∧ u'.variantQ = t'.variantQ ∧ u.fb = u'.fb) (fdBytes t') := by
  have key : ∀ (ms : List (Fin 5)) (done : List (Fin 5)) (u u' : State), SamePayload u u' →
      (∀ m ∈ done, u.fb.get m = u'.fb.get m) →
      (Flow.each fdByte ms u).Rel (fun w w' => w.variantQ = u.variantQ ∧ w'.variantQ = u'.variantQ ∧
        ∀ m, m ∈ done ∨ m ∈ ms → w.fb.get m = w'.fb.get m) (Flow.each fdByte ms u') := by
    intro ms
    induction ms with
    | nil => exact fun done u u' _ hd => ⟨rfl, rfl, fun m hm => hd m (by simpa using hm)⟩
    | cons m ms ih =>
      intro done u u' hu hd
      refine (fdByte_same m hu).andThen ?_
      rintro w w' ⟨hw, v1, v2, b, f1, f2⟩
      refine (ih (m :: done) w w' hw ?_).mono ?_
      · intro j hj
        rw [f1, f2]
        by_cases hjm : j = m
        · rw [hjm, FrameBytes.get_set_self, FrameBytes.get_set_self]
        · rw [FrameBytes.get_set_ne _ _ hjm, FrameBytes.get_set_ne _ _ hjm]
          exact hd j (by simpa [hjm] using hj)
      · rintro z z' ⟨z1, z2, z3⟩
        refine ⟨z1.trans v1, z2.trans v2, fun j hj => z3 j ?_⟩
        simpa [or_assoc, or_left_comm] using hj
  refine (key byteOrder [] t t' h (by simp)).mono ?_
  rintro w w' ⟨w1, w2, w3⟩
  exact ⟨w1, w2, FrameBytes.ext_get fun k => w3 k (.inr (by fin_cases k <;> decide))⟩

/-- What follows the five bytes: checksum, conversion, range, commit. -/
def frameTail (u : State) : Flow := (((fdCsum u).andThen fdConvert).andThen fdRange).andThen fdCommit

/-- The result of the tail depends on the variant and the five bytes alone. -/
theorem frameTail_same {u u' : State} (h : u.variantQ = u'.variantQ) (hf : u.fb = u'.fb) :
    (frameTail u).Rel (fun t t' => t.outcome = t'.outcome) (frameTail u') := by
  rw [frameTail, frameTail, fdCsum_eq, fdCsum_eq, ← hf]
  split
  · rw [Flow.go_andThen, Flow.go_andThen, fdConvert, fdConvert, ← h]
    cases u.variantQ
    · simp only [fdConvA, Flow.go_andThen, fdRange_eq, ← hf]
      split
      · exact ⟨_, rfl, rfl⟩
      · rfl
    · simp only [fdConvB, Flow.go_andThen, fdRange_eq, ← hf]
      split
      · exact ⟨_, rfl, rfl⟩
      · rfl
  · exact ⟨_, rfl, rfl⟩

/-- What the tail makes of five bytes (`42_frame_decoder.md` R119 to R123). -/
theorem frameTail_reading (u : State) : (frameTail u).result.reading = some (readingOf u.variantQ u.fb) := by
  have hc : u.fb.b4 = checksum u.fb ↔
      u.fb.b4.toNat = (u.fb.b0.toNat + u.fb.b1.toNat + u.fb.b2.toNat + u.fb.b3.toNat) % 256 := by
    rw [← checksum_toNat, BitVec.toNat_inj]
  rw [frameTail, fdCsum_eq]
  by_cases h : u.fb.b4 = checksum u.fb
  · rw [if_pos h, Flow.go_andThen, fdConvert]
    unfold readingOf
    rw [if_neg (by rw [not_not]; exact hc.1 h)]
    cases hv : u.variantQ with
    | a =>
      simp only [fdConvA, Flow.go_andThen, fdRange_eq]
      rw [humA_toNat]
      split
      · rfl
      · simp [fdCommit, Flow.result, FrameResult.reading, State.outcome, Reading.ofRegs, humA_toNat, tempA_toInt]
    | b =>
      simp only [fdConvB, Flow.go_andThen, fdRange_eq]
      rw [humB_toNat]
      split
      · rfl
      · show some (Except.ok (⟨(humB u.fb).toNat, (tempB u.fb).toInt⟩ : Reading)) = _
        rw [humB_toNat, tempB_toInt]
        split <;> rfl
  · rw [if_neg h]
    unfold readingOf
    rw [if_pos (fun h' => h (hc.2 h'))]
    rfl

theorem frameDecode_eq_tail (s : State) :
    frameDecode s = ((fdLength s).andThen fdBytes).andThen frameTail := by
  rw [frameDecode]
  cases (fdLength s).andThen fdBytes <;> rfl

/-- Where the payload begins. -/
def State.trimmed (s : State) : State := { s with locals := { s.locals with base := trimBase s.pcount } }

theorem fdLength_of_legal {s : State} (h : legalLength s.pcount = true) : fdLength s = .go s.trimmed := by
  simp [fdLength, h, fdTrim, State.trimmed]

/-- Two frame decodes of legal lengths with the same payload have the same result (`42_frame_decoder.md` R127). -/
theorem frameDecode_same {s s' : State} (h1 : legalLength s.pcount = true) (h2 : legalLength s'.pcount = true)
    (hv : s.variantQ = s'.variantQ) (h : SamePayload s.trimmed s'.trimmed) :
    (frameDecode s).result = (frameDecode s').result := by
  apply Flow.Rel.result
  rw [frameDecode_eq_tail, frameDecode_eq_tail, fdLength_of_legal h1, fdLength_of_legal h2]
  refine (fdBytes_same h).andThen ?_
  rintro u u' ⟨v1, v2, hf⟩
  exact frameTail_same (by rw [v1, v2]; exact hv) hf

/-- What the pulse memory of `DecodeFrame` holds. -/
theorem frameState_pulseAt (c : Config) (v : Variant) (ps : List Pulse) (h : ps.length < 65536) (i : Nat) :
    (frameState c v ps).pulseAt i = ps[i]? := by
  have hp : (frameState c v ps).pcount.toNat = ps.length := by
    simp [frameState]
    omega
  rw [State.pulseAt, hp]
  split
  · simpa [frameState] using memoryFrom_get 0 ps i (Nat.zero_le _)
  · rw [List.getElem?_eq_none (by omega)]

theorem frameState_pcount (c : Config) (v : Variant) (ps : List Pulse) (h : ps.length < 65536) :
    (frameState c v ps).pcount.toNat = ps.length := by
  simp [frameState]
  omega

/-- The closed pulses of a filled memory, as a list. -/
theorem pulses_getElem? {s : State} (hf : ∀ i, i < s.pcount.toNat → ∃ p, s.pulseAt i = some p) :
    s.pulses.length = s.pcount.toNat ∧ ∀ i, s.pulses[i]? = s.pulseAt i := by
  have key : ∀ (l : List Nat), (∀ i ∈ l, i < s.pcount.toNat) →
      l.filterMap s.pulseAt = l.map fun i => (s.pulseAt i).getD ⟨false, 0⟩ := by
    intro l
    induction l with
    | nil => simp
    | cons a l ih =>
      intro hl
      obtain ⟨p, hp⟩ := hf a (hl a (by simp))
      rw [List.filterMap_cons, hp, List.map_cons, ih (fun i hi => hl i (by simp [hi])), hp]
      rfl
  have e := key (List.range s.pcount.toNat) (by simp)
  refine ⟨by rw [State.pulses, e]; simp, fun i => ?_⟩
  rw [State.pulses, e]
  by_cases hi : i < s.pcount.toNat
  · obtain ⟨p, hp⟩ := hf i hi
    simp [hi, hp]
  · rw [State.pulseAt_of_le (Nat.not_lt.mp hi)]
    simpa using hi

/-- The frame decode of a filled memory has the result `DecodeFrame` gives for its pulses (`42_frame_decoder.md` R126). -/
theorem frameDecode_result {s : State} (hf : ∀ i, i < s.pcount.toNat → ∃ p, s.pulseAt i = some p) :
    (frameDecode s).result = decodeFrame s.cfg s.variantQ s.pulses := by
  obtain ⟨hlen, hget⟩ := pulses_getElem? hf
  have hlt : s.pulses.length < 65536 := by rw [hlen]; exact s.pcount.isLt
  have hpc : (frameState s.cfg s.variantQ s.pulses).pcount = s.pcount :=
    BitVec.eq_of_toNat_eq (by rw [frameState_pcount _ _ _ hlt, hlen])
  rw [decodeFrame_eq]
  cases hl : legalLength s.pcount with
  | true =>
    refine frameDecode_same hl (by rw [hpc]; exact hl) rfl ?_
    obtain ⟨l1, l2⟩ := (legalLength_iff _).1 hl
    have hb := trimBase_toNat l1
    refine ⟨rfl, ?_, ?_, ?_⟩
    · show (trimBase s.pcount).toNat + 80 ≤ s.pcount.toNat
      omega
    · show (trimBase (frameState s.cfg s.variantQ s.pulses).pcount).toNat + 80 ≤
        (frameState s.cfg s.variantQ s.pulses).pcount.toNat
      rw [hpc]
      omega
    · intro i hi
      obtain ⟨p, hp⟩ := hf ((trimBase s.pcount).toNat + i) (by omega)
      refine ⟨p, p, hp, ?_, rfl, fun _ => rfl⟩
      show (frameState s.cfg s.variantQ s.pulses).pulseAt
        ((trimBase (frameState s.cfg s.variantQ s.pulses).pcount).toNat + i) = some p
      rw [hpc, frameState_pulseAt _ _ _ hlt, hget, hp]
  | false =>
    have h1 : frameDecode s = .ended (s.withError .frameLengthError) := by
      simp [frameDecode, fdLength, hl, fdLenErr]
    have h2 : frameDecode (frameState s.cfg s.variantQ s.pulses) =
        .ended ((frameState s.cfg s.variantQ s.pulses).withError .frameLengthError) := by
      simp [frameDecode, fdLength, hpc, hl, fdLenErr]
    rw [h1, h2]
    rfl

end Sys2Proof.Machine
end

