-- ==== Sys2Proof/Laws/FrameBytes.lean ====
section
/-! SUPPORT. A bad pair anywhere in a payload ends the frame decode with ProtocolError; what `fb` holds after a frame
decode, however it ended. -/

namespace Sys2Proof.Machine

/-- Steps of which one always ends: where none of them stops, the whole ends, in a state every ended step has. -/
theorem Flow.each_ended {α : Type} {Q P : State → Prop} {g : α → State → Flow} {xs : List α} {x : α} (hx : x ∈ xs)
    (hg : ∀ y t, Q t → (g y t).Splits Q P) (hr : ∀ y t, Q t → (g y t).Runs)
    (he : ∀ t, Q t → ∃ u, g x t = .ended u) (s : State) (hs : Q s) : ∃ u, Flow.each g xs s = .ended u ∧ P u := by
  induction xs generalizing s with
  | nil => cases hx
  | cons y ys ih =>
    have h1 := hg y s hs
    have h2 := hr y s hs
    rw [Flow.each_cons]
    cases e : g y s with
    | go t =>
      rw [e] at h1
      rcases List.mem_cons.1 hx with rfl | hy
      · obtain ⟨u, hu⟩ := he s hs
        rw [hu] at e
        cases e
      · exact ih hy t h1
    | ended t =>
      rw [e] at h1
      exact ⟨t, rfl, h1⟩
    | stop f =>
      rw [e] at h2
      exact h2.elim

theorem mem_bitOrder (i : BitVec 3) : i ∈ bitOrder := by revert i; decide

theorem mem_byteOrder (k : Fin 5) : k ∈ byteOrder := by revert k; decide

/-- The eighty payload pulses of a state hold values. -/
def State.PayloadThere (s : State) : Prop :=
  s.locals.base.toNat + 80 ≤ s.pcount.toNat ∧ ∀ i, i < 80 → ∃ p, s.pulseAt (s.locals.base.toNat + i) = some p

/-- On sixteen entries that hold values, any bad pair ends the byte with ProtocolError (`41_bit_byte_decoder.md` R113). -/
theorem bdByte_of_any_bad_pair {s : State} {start : Half} (j : BitVec 3) {lo hi : Pulse}
    (hp : start.toNat + 16 ≤ s.pcount.toNat) (hv : ∀ a, a < 16 → ∃ p, s.pulseAt (start.toNat + a) = some p)
    (hl : s.pulseAt (lowIndex start j) = some lo) (hh : s.pulseAt (highIndex start j) = some hi)
    (hbad : BadPair s.cfg lo hi) : ∃ b, bdByte start s = .ended ((s.withByte b).withError .protocolError) := by
  rw [bdByte_of_le hp]
  obtain ⟨u, h1, b, rfl⟩ := Flow.each_ended (x := j) (xs := bitOrder) (g := bdPair start)
    (Q := fun t => ∃ b, t = s.withByte b) (P := fun t => ∃ b, t = (s.withByte b).withError .protocolError)
    (mem_bitOrder j)
    (by
      rintro i _ ⟨b, rfl⟩
      rcases bdPair_cases start i (s.withByte b) with ⟨c, h⟩ | h | ⟨a, h⟩
      · rw [h]; exact ⟨c, rfl⟩
      · rw [h]; exact ⟨b, rfl⟩
      · rw [h]; trivial)
    (by
      rintro i _ ⟨b, rfl⟩
      have hi8 := i.isLt
      obtain ⟨l, e1⟩ := hv (2 * i.toNat) (by omega)
      obtain ⟨h, e2⟩ := hv (2 * i.toNat + 1) (by omega)
      rw [bdPair_of_some (s := s.withByte b) (lo := l) (hi := h) e1 e2]
      split <;> trivial)
    (by
      rintro _ ⟨b, rfl⟩
      exact ⟨_, (bdPair_of_some (s := s.withByte b) hl hh).trans (if_pos hbad)⟩)
    (s.withByte 0) ⟨0, rfl⟩
  exact ⟨b, h1⟩

/-- One byte of a payload with room never raises RangeError: it is written, or ends with ProtocolError and `fb` kept. -/
theorem fdByte_splits_of_room {s : State} (k : Fin 5) (h : s.locals.base.toNat + 80 ≤ s.pcount.toNat) :
    (fdByte k s).Splits (fun t => ∃ b, t = s.stored k b)
      (fun t => ∃ b, t = (s.withByte b).withError .protocolError) := by
  have e := byteStart_toNat k h s.pcount.isLt
  have hk := k.isLt
  rw [fdByte]
  rcases bdByte_cases (byteStart s.locals.base k) s with ⟨b, hb⟩ | ⟨hs, -⟩ | ⟨b, hb⟩ | ⟨a, hb⟩
  · rw [hb]; exact ⟨b, rfl⟩
  · omega
  · rw [hb]; exact ⟨b, rfl⟩
  · rw [hb]; trivial

/-- One byte of a payload that is there does not stop. -/
theorem fdByte_runs_of_there {s : State} (k : Fin 5) (h : s.PayloadThere) : (fdByte k s).Runs := by
  have e := byteStart_toNat k h.1 s.pcount.isLt
  have hk := k.isLt
  have hr : (bdByte (byteStart s.locals.base k) s).Runs := by
    rw [bdByte_of_le (by have := h.1; omega)]
    refine Flow.Runs.each (P := fun t => ∀ a, t.pulseAt a = s.pulseAt a) ?_ ?_ _ _ fun _ => rfl
    · intro i t ht
      rcases bdPair_cases (byteStart s.locals.base k) i t with ⟨c, h⟩ | h | ⟨a, h⟩ <;> rw [h]
      · exact ht
      · exact ht
      · trivial
    · intro i t ht
      have hi8 := i.isLt
      obtain ⟨l, e1⟩ := h.2 (16 * k.val + 2 * i.toNat) (by omega)
      obtain ⟨u, e2⟩ := h.2 (16 * k.val + 2 * i.toNat + 1) (by omega)
      rw [bdPair_of_some (lo := l) (hi := u) (by rw [lowIndex, e, ht, ← e1]; congr 1; omega)
        (by rw [highIndex, e, ht, ← e2]; congr 1; omega)]
      split <;> trivial
  rw [fdByte]
  exact hr.andThen fun _ _ => trivial

/-- A payload that is there stays there. -/
theorem State.PayloadThere.congr {s t : State} (h : s.PayloadThere) (hk : Kept s t)
    (hb : t.locals.base = s.locals.base) : t.PayloadThere := by
  simpa only [State.PayloadThere, hk.pulseAt, hk.pcount, hb] using h

/-- A byte with a bad pair ends with ProtocolError, `fb` kept. -/
theorem fdByte_of_bad_pair {s : State} {k : Fin 5} {j : Nat} {lo hi : Pulse} (h : s.PayloadThere) (hj : j < 8)
    (hl : s.pulseAt (s.locals.base.toNat + 16 * k.val + 2 * j) = some lo)
    (hh : s.pulseAt (s.locals.base.toNat + 16 * k.val + 2 * j + 1) = some hi) (hbad : BadPair s.cfg lo hi) :
    ∃ b, fdByte k s = .ended ((s.withByte b).withError .protocolError) := by
  have e := byteStart_toNat k h.1 s.pcount.isLt
  have hk := k.isLt
  have hjn : (BitVec.ofNat 3 j).toNat = j := by simp; omega
  obtain ⟨b, hb⟩ := bdByte_of_any_bad_pair (s := s) (start := byteStart s.locals.base k) (BitVec.ofNat 3 j)
    (by have := h.1; omega)
    (fun a ha => by
      obtain ⟨p, hp⟩ := h.2 (16 * k.val + a) (by omega)
      exact ⟨p, by rw [← hp, e]; congr 1; omega⟩)
    (by rw [lowIndex, e, hjn]; exact hl) (by rw [highIndex, e, hjn]; exact hh) hbad
  exact ⟨b, by rw [fdByte, hb]; rfl⟩

/-- What step 2 keeps inside a payload that is there. -/
theorem State.stored_kept (s : State) (k : Fin 5) (b : Byte) : Kept s (s.stored k b) :=
  ⟨rfl, rfl, rfl, rfl, rfl, rfl, rfl, rfl, rfl⟩

/-- Step 2 on a payload with room ends with ProtocolError only. -/
theorem fdBytes_splits_of_room {s : State} (h : s.locals.base.toNat + 80 ≤ s.pcount.toNat) :
    (fdBytes s).Splits (fun _ => True) (fun t => t.errCode = some .protocolError) := by
  refine (Flow.Splits.each (Q := fun t => Kept s t ∧ t.locals.base = s.locals.base) ?_ _ _ ⟨Kept.refl s, rfl⟩).mono
    (fun _ _ => trivial) fun _ h => h
  rintro k t ⟨hk, hb⟩
  refine (fdByte_splits_of_room k (by rw [hb, hk.pcount]; exact h)).mono ?_ ?_
  · rintro _ ⟨b, rfl⟩
    exact ⟨hk.trans (t.stored_kept k b), hb⟩
  · rintro _ ⟨b, rfl⟩
    rfl

/-- A bad pair anywhere in the payload ends step 2 with ProtocolError (`60_exceptions.md` R155). -/
theorem fdBytes_of_any_bad_pair {s : State} (k : Fin 5) {j : Nat} {lo hi : Pulse} (h : s.PayloadThere) (hj : j < 8)
    (hl : s.pulseAt (s.locals.base.toNat + 16 * k.val + 2 * j) = some lo)
    (hh : s.pulseAt (s.locals.base.toNat + 16 * k.val + 2 * j + 1) = some hi) (hbad : BadPair s.cfg lo hi) :
    ∃ t, fdBytes s = .ended t ∧ t.errCode = some .protocolError := by
  refine Flow.each_ended (x := k) (Q := fun t => Kept s t ∧ t.locals.base = s.locals.base) (mem_byteOrder k)
    ?_ ?_ ?_ s ⟨Kept.refl s, rfl⟩
  · rintro m t ⟨hk, hb⟩
    refine (fdByte_splits_of_room m (h.congr hk hb).1).mono ?_ ?_
    · rintro _ ⟨b, rfl⟩
      exact ⟨hk.trans (t.stored_kept m b), hb⟩
    · rintro _ ⟨b, rfl⟩
      rfl
  · rintro m t ⟨hk, hb⟩
    exact fdByte_runs_of_there m (h.congr hk hb)
  · rintro t ⟨hk, hb⟩
    obtain ⟨b, e⟩ := fdByte_of_bad_pair (h.congr hk hb) hj (by rw [hb, hk.pulseAt]; exact hl)
      (by rw [hb, hk.pulseAt]; exact hh) (by rw [hk.cfg]; exact hbad)
    exact ⟨_, e⟩

/-- Step 2 with carried bytes before a byte that has a bad pair: those are in `fb`, the others are as they were
(`60_exceptions.md` R157). -/
theorem fdBytes_fb_of_bad_pair {s : State} {f : FrameBytes} {k : Fin 5} {j : Nat} {lo hi : Pulse} (h : s.PayloadThere)
    (hj : j < 8) (hc : ∀ m : Fin 5, m < k → s.CarriesByteAt (f.get m) (s.locals.base.toNat + 16 * m.val))
    (hl : s.pulseAt (s.locals.base.toNat + 16 * k.val + 2 * j) = some lo)
    (hh : s.pulseAt (s.locals.base.toNat + 16 * k.val + 2 * j + 1) = some hi) (hbad : BadPair s.cfg lo hi) :
    ∃ t, fdBytes s = .ended t ∧ ∀ m, t.fb.get m = if m < k then f.get m else s.fb.get m := by
  obtain ⟨before, after, hsplit, hmem⟩ := byteOrder_split k
  obtain ⟨fb, b, h1, h2⟩ := fdBytes_prefix (f := f) before h.1 fun m hm => hc m ((hmem m).1 hm)
  obtain ⟨c, h3⟩ := fdByte_of_bad_pair (s := { s.withByte b with fb := fb }) h hj hl hh hbad
  refine ⟨_, by rw [fdBytes, hsplit, Flow.each_append, h1, Flow.go_andThen, Flow.each_cons, h3]; rfl, fun m => ?_⟩
  show fb.get m = _
  rw [h2 m]
  exact if_congr (hmem m) rfl rfl

/-! ## The whole decode -/

/-- What follows the five bytes keeps them. -/
theorem frameTail_fb (u : State) : (frameTail u).Leads (fun t => t.fb = u.fb) := by
  rw [frameTail, fdCsum_eq]
  split
  · rw [Flow.go_andThen, fdConvert]
    cases u.variantQ
    · simp only [fdConvA, Flow.go_andThen, fdRange_eq]
      split <;> rfl
    · simp only [fdConvB, Flow.go_andThen, fdRange_eq]
      split <;> rfl
  · rfl

/-- A decode of an illegal length is its error entry alone (`42_frame_decoder.md` R117). -/
theorem frameDecode_of_illegal {s : State} (h : legalLength s.pcount = false) :
    frameDecode s = .ended (s.withError .frameLengthError) := by
  simp [frameDecode, fdLength, h, fdLenErr]

/-- The payload of a filled memory of a legal length is there (`42_frame_decoder.md` R116). -/
theorem State.trimmed_there {s : State} (h : legalLength s.pcount = true)
    (hf : ∀ i, i < s.pcount.toNat → ∃ p, s.pulseAt i = some p) :
    s.trimmed.PayloadThere ∧ s.trimmed.locals.base.toNat = s.pcount.toNat - 82 := by
  obtain ⟨h1, h2⟩ := (legalLength_iff _).1 h
  have hb : s.trimmed.locals.base.toNat = s.pcount.toNat - 82 := trimBase_toNat h1
  have hp : s.trimmed.pcount = s.pcount := rfl
  refine ⟨⟨by rw [hb, hp]; omega, fun i hi => ?_⟩, hb⟩
  obtain ⟨p, e⟩ := hf (s.trimmed.locals.base.toNat + i) (by omega)
  exact ⟨p, e⟩

/-- A decode whose five bytes are carried leaves them in `fb`, whatever the checksum and the range say
(`42_frame_decoder.md` R118, `60_exceptions.md` R157). -/
theorem frameDecode_fb_of_carries {s : State} {f : FrameBytes} (h : legalLength s.pcount = true)
    (hr : s.trimmed.locals.base.toNat + 80 ≤ s.pcount.toNat)
    (hc : ∀ k : Fin 5, s.trimmed.CarriesByteAt (f.get k) (s.trimmed.locals.base.toNat + 16 * k.val)) :
    (frameDecode s).Leads (fun t => t.fb = f) := by
  obtain ⟨fb, b, h1, h2⟩ := fdBytes_prefix (s := s.trimmed) (f := f) byteOrder hr fun m _ => hc m
  have hfb : fb = f := FrameBytes.ext_get fun m => by rw [h2, if_pos (mem_byteOrder m)]
  rw [frameDecode_eq_tail, fdLength_of_legal h, Flow.go_andThen, fdBytes, h1, Flow.go_andThen, ← hfb]
  exact frameTail_fb _

/-- A decode that ends in its payload ends as step 2 does. -/
theorem frameDecode_of_bytes_ended {s t : State} (h : legalLength s.pcount = true)
    (ht : fdBytes s.trimmed = .ended t) : frameDecode s = .ended t := by
  rw [frameDecode_eq_tail, fdLength_of_legal h, Flow.go_andThen, ht]
  rfl

end Sys2Proof.Machine
end

