-- ==== Sys2Proof/Laws/PerInstr.lean ====
section
/-! SUPPORT. One lemma per operation: its encoding decodes to it (`spec/30_encoding.md` R67 to R72). -/

namespace Sys2Proof.Laws.RoundTrip

/-- A well-formed operation is read back from its encoding. -/
def Statement (i : Instr) : Prop := i.wf = true → decode (encode i) = .ok i

theorem reset : Statement .reset := fun _ => decode_of_row (n := 0) _ (by decide) (by decide) rfl
theorem nop : Statement .nop := fun _ => decode_of_row (n := 1) _ (by decide) (by decide) rfl
theorem startGo (v : Variant) (t : Half) : Statement (.startGo v t) :=
  fun _ => decode_of_row (n := 2) _ (by decide) (by decide) rfl
theorem startDrop (v : Variant) (t : Half) : Statement (.startDrop v t) :=
  fun _ => decode_of_row (n := 3) _ (by decide) (by decide) rfl
theorem sample (l : Level) (ts : Stamp) : Statement (.sample l ts) :=
  fun _ => decode_of_row (n := 4) _ (by decide) (by decide) rfl
theorem ioerrBusy : Statement .ioerrBusy := fun _ => decode_of_row (n := 5) _ (by decide) (by decide) rfl
theorem ioerrDrop : Statement .ioerrDrop := fun _ => decode_of_row (n := 6) _ (by decide) (by decide) rfl
theorem smpDrop (l : Level) (ts : Stamp) : Statement (.smpDrop l ts) :=
  fun _ => decode_of_row (n := 7) _ (by decide) (by decide) rfl
theorem prFirst (l : Level) (ts : Stamp) : Statement (.prFirst l ts) :=
  fun _ => decode_of_row (n := 8) _ (by decide) (by decide) rfl
theorem prEdge (l : Level) (ts : Stamp) : Statement (.prEdge l ts) :=
  fun _ => decode_of_row (n := 9) _ (by decide) (by decide) rfl
theorem prOverflow (l : Level) (ts : Stamp) : Statement (.prOverflow l ts) :=
  fun _ => decode_of_row (n := 10) _ (by decide) (by decide) rfl
theorem prHold (l : Level) (ts : Stamp) : Statement (.prHold l ts) :=
  fun _ => decode_of_row (n := 11) _ (by decide) (by decide) rfl
theorem prPoll (l : Level) (ts : Stamp) : Statement (.prPoll l ts) :=
  fun _ => decode_of_row (n := 12) _ (by decide) (by decide) rfl
theorem prTimeout (l : Level) (ts : Stamp) : Statement (.prTimeout l ts) :=
  fun _ => decode_of_row (n := 13) _ (by decide) (by decide) rfl
theorem bdByte (start : Half) : Statement (.bdByte start) :=
  fun _ => decode_of_row (n := 14) _ (by decide) (by decide) rfl
theorem bdShort (start : Half) : Statement (.bdShort start) :=
  fun _ => decode_of_row (n := 15) _ (by decide) (by decide) rfl
theorem bdErrPolLow : Statement .bdErrPolLow := fun _ => decode_of_row (n := 16) _ (by decide) (by decide) rfl
theorem bdErrPolHigh : Statement .bdErrPolHigh := fun _ => decode_of_row (n := 17) _ (by decide) (by decide) rfl
theorem bdErrWidth : Statement .bdErrWidth := fun _ => decode_of_row (n := 18) _ (by decide) (by decide) rfl
theorem bdBit0 (i : BitVec 3) : Statement (.bdBit0 i) :=
  fun _ => decode_of_row (n := 19) _ (by decide) (by decide) rfl
theorem bdBit1 (i : BitVec 3) : Statement (.bdBit1 i) :=
  fun _ => decode_of_row (n := 20) _ (by decide) (by decide) rfl
theorem fdTrim (n : Half) : Statement (.fdTrim n) := fun h => by
  have hl : legalLength n = true := h
  simp only [encode, decode_len, hl, if_true]
theorem fdLenErr (n : Half) : Statement (.fdLenErr n) := fun h => by
  have hl : legalLength n = false := by simpa [Instr.wf] using h
  simp [encode, decode_len, hl]
theorem fdBytes : Statement .fdBytes := fun _ => decode_of_row (n := 26) _ (by decide) (by decide) rfl
theorem fdCsum : Statement .fdCsum := fun _ => decode_of_row (n := 27) _ (by decide) (by decide) rfl
theorem fdConvA : Statement .fdConvA := fun _ => decode_of_row (n := 28) _ (by decide) (by decide) rfl
theorem fdConvB : Statement .fdConvB := fun _ => decode_of_row (n := 29) _ (by decide) (by decide) rfl
theorem fdRange : Statement .fdRange := fun _ => decode_of_row (n := 30) _ (by decide) (by decide) rfl
theorem fdCommit : Statement .fdCommit := fun _ => decode_of_row (n := 31) _ (by decide) (by decide) rfl

end Sys2Proof.Laws.RoundTrip
end

