-- ==== Sys2Proof/Laws/Sequence.lean ====
section
/-! SUPPORT. What a host can make the next step run, what an append does to the list of pulses, and samples fed after the
end of a capture. -/

namespace Sys2Proof.Machine

/-- With clock edges only, a step runs one of the seven host commands. -/
theorem fetch_clock {s : State} (hx : ∀ x ∈ s.inputs, x.isClock = true) : ∃ i, fetch s = .ok i ∧
    (i = .reset ∨ (∃ v ms, i = .startGo v ms ∧ s.busy = false) ∨ (∃ l ts, i = .sample l ts) ∨
      (i = .ioerrBusy ∧ s.busy = true) ∨ i = .nop ∨ i = .ioerrDrop ∨ ∃ v ms, i = .startDrop v ms) := by
  have hf : ∃ p, fetch s = selectCommand p s.busy := by
    unfold fetch
    cases hi : s.inputs with
    | nil => exact ⟨_, rfl⟩
    | cons x r => cases x with
      | clock p => exact ⟨_, rfl⟩
      | alone w => have := hx (.alone w) (by simp [hi]); cases this
  obtain ⟨p, hp⟩ := hf
  rw [selectCommand_eq] at hp
  refine ⟨_, hp, ?_⟩
  split_ifs <;> simp_all

/-- Samples outside a capture are dropped. -/
theorem feed_done (samples : List Sample) (s : State) (h : s.phase = .done ∨ s.phase = .idle) : feed samples s = .next s := by
  induction samples with
  | nil => rfl
  | cons x r ih =>
    have : exec (.sample x.level x.ts) s = .next s := by
      rw [exec_sample]
      unfold sampleOp
      rcases h with h | h <;> rw [h] <;> rfl
    rw [feed, this]; exact ih

/-- An append adds one pulse at the end of the list. -/
theorem pulses_append {s t : State} (hf : s.Filled) (hc : s.cfg.wf = true)
    (hr : s.pcount.toNat < s.cfg.maxPulses) {d : Stamp} (h1 : t.pcount = s.pcount + 1)
    (hpa : ∀ i, t.pulseAt i = (s.appended s.curLevel d).pulseAt i) :
    t.pulses = s.pulses ++ [⟨s.curLevel, d⟩] := by
  have hf' : ∀ i, i < t.pcount.toNat → ∃ p, t.pulseAt i = some p := fun i hi => by
    rw [hpa]; exact appended_filled _ _ hc hr hf i (by rw [h1] at hi; exact hi)
  obtain ⟨hl1, hg1⟩ := pulses_getElem? hf'
  obtain ⟨hl0, hg0⟩ := pulses_getElem? (s := s) (fun i hi => State.Filled_pulseAt hf hi)
  apply List.ext_getElem?
  intro i
  rw [hg1, hpa, appended_pulseAt _ _ hc hr]
  by_cases hi : i = s.pcount.toNat
  · rw [hi, List.getElem?_append_right (by omega), hl0]; simp
  · by_cases hi2 : i < s.pcount.toNat
    · rw [List.getElem?_append_left (by omega), hg0, if_neg hi]
    · rw [if_neg hi, State.pulseAt_of_le (by omega), List.getElem?_eq_none (by simp; omega)]

end Sys2Proof.Machine
end

