-- ==== Sys2Proof/Tests/Slice0.lean ====
section
/-! SUPPORT. The model's own tests. Expected values are the spec's: worked examples of `spec/40_*` to `spec/43_*` and the
vectors of `spec/95_test_vectors.md`, or hand calculation from a rule. The witnesses at the end meet the hypotheses of the
statements. -/

namespace Sys2Proof.Tests

open Sys2Proof.Machine

/-! ## Helpers -/

/-- The next state, when there is one. -/
def nextOf : Host.Outcome State Fault Refusal → Option State
  | .next s => some s
  | .fault _ => none
  | .refused _ => none

/-- A test of the next state; false when there is none. -/
def after (r : Host.Outcome State Fault Refusal) (p : State → Bool) : Bool :=
  match r with
  | .next s => p s
  | .fault _ => false
  | .refused _ => false

/-- A capture with the default parameters and one open high pulse begun at 5000, timeout 10 ms. -/
def capturing : State :=
  { State.reset with phase := .capture, curLevel := true, pulseStart := 5000, timeoutUsQ := 10000 }

/-- A capture in a memory of four entries, polled every third sample: three closed pulses, the open one low. -/
def nearlyFull : State :=
  { State.reset with
    cfg := ⟨4, 3, 47, 97⟩, phase := .capture, curLevel := false, pulseStart := 100, timeoutUsQ := 1000, pcount := 3
    pulseMem := [(0, ⟨true, 5⟩), (1, ⟨false, 6⟩), (2, ⟨true, 7⟩)] }

/-- The pair of pulses of one bit, as the spec's examples write them: `L50 H26` and `L50 H70`. -/
def bitPulses (b : Bool) : List Pulse := [⟨false, 50⟩, ⟨true, if b then 70 else 26⟩]

/-- The sixteen pulses of a byte, most significant bit first. -/
def bytePulses (v : Byte) : List Pulse := [7, 6, 5, 4, 3, 2, 1, 0].flatMap fun i => bitPulses (v.getLsbD i)

/-- The eighty pulses of a frame. -/
def framePulses (f : FrameBytes) : List Pulse :=
  bytePulses f.b0 ++ bytePulses f.b1 ++ bytePulses f.b2 ++ bytePulses f.b3 ++ bytePulses f.b4

/-- A memory that holds exactly these pulses. -/
def holding (ps : List Pulse) : State :=
  { State.reset with pulseMem := memoryFrom 0 ps, pcount := BitVec.ofNat 16 ps.length }

/-- Two pulses as a preamble or a tail. -/
def lowHigh : List Pulse := [⟨false, 80⟩, ⟨true, 80⟩]

/-- The frame of `42_frame_decoder.md` R121's example, and of R118's. -/
def frameB : FrameBytes := ⟨0x01, 0x2C, 0x80, 0xF6, 0xA3⟩
def frameA : FrameBytes := ⟨0x2D, 0x00, 0x17, 0x00, 0x44⟩

/-- The state with these bytes in `fb`. -/
def withBytes (f : FrameBytes) : State := { State.reset with fb := f }

/-- A clock edge with a sample. -/
def sampleEdge (l : Level) (ts : Stamp) : Ports := { Ports.quiet with sValid := true, sLevel := l, sTs := ts }

/-! ## WellFormed: an ill-formed term for each check -/

theorem test_wf_refuses_trim_of_81 : (Instr.fdTrim 81).wf = false := by decide
theorem test_wf_refuses_trim_of_86 : (Instr.fdTrim 86).wf = false := by decide
theorem test_wf_refuses_lenerr_of_82 : (Instr.fdLenErr 82).wf = false := by decide
theorem test_wf_refuses_lenerr_of_85 : (Instr.fdLenErr 85).wf = false := by decide
theorem test_wf_takes_trim_of_82 : (Instr.fdTrim 82).wf = true := by decide
theorem test_cfg_refuses_no_entries : Config.wf ⟨0, 20, 47, 97⟩ = false := by decide
theorem test_cfg_refuses_65536_entries : Config.wf ⟨65536, 20, 47, 97⟩ = false := by decide
theorem test_cfg_refuses_poll_0 : Config.wf ⟨16000, 0, 47, 97⟩ = false := by decide
theorem test_cfg_takes_the_defaults : Config.default.wf = true := by decide

/-! ## Decoding: the words written out from `30_encoding.md` R67 to R72, one for every operation, don't-care bits set
where the pattern has one -/

theorem test_decode_reset : decode ⟨.cmd, 0b1111, .zero⟩ = .ok .reset := rfl
theorem test_decode_nop : decode ⟨.cmd, 0b0000, .zero⟩ = .ok .nop := rfl
theorem test_decode_sample : decode ⟨.cmd, 0b0001, .ofSample true 1000⟩ = .ok (.sample true 1000) := rfl
theorem test_decode_start_go : decode ⟨.cmdb, 0b00110, .ofStart .b 10⟩ = .ok (.startGo .b 10) := rfl
theorem test_decode_start_drop : decode ⟨.cmdb, 0b00111, .ofStart .a 5⟩ = .ok (.startDrop .a 5) := rfl
theorem test_decode_ioerr_busy : decode ⟨.cmdb, 0b01111, .zero⟩ = .ok .ioerrBusy := rfl
theorem test_decode_ioerr_drop : decode ⟨.cmdb, 0b01110, .zero⟩ = .ok .ioerrDrop := rfl
theorem test_decode_smp_drop : decode ⟨.smp, 0b011111, .ofSample false 123⟩ = .ok (.smpDrop false 123) := rfl
theorem test_decode_pr_first : decode ⟨.smp, 0b101111, .ofSample true 1⟩ = .ok (.prFirst true 1) := rfl
theorem test_decode_pr_edge : decode ⟨.smp, 0b111011, .ofSample true 2⟩ = .ok (.prEdge true 2) := rfl
theorem test_decode_pr_overflow : decode ⟨.smp, 0b111111, .ofSample true 3⟩ = .ok (.prOverflow true 3) := rfl
theorem test_decode_pr_hold : decode ⟨.smp, 0b110101, .ofSample true 4⟩ = .ok (.prHold true 4) := rfl
theorem test_decode_pr_poll : decode ⟨.smp, 0b110110, .ofSample true 5⟩ = .ok (.prPoll true 5) := rfl
theorem test_decode_pr_timeout : decode ⟨.smp, 0b110111, .ofSample true 6⟩ = .ok (.prTimeout true 6) := rfl
theorem test_decode_bd_byte : decode ⟨.byte, 0b0, .ofIndex 7⟩ = .ok (.bdByte 7) := rfl
theorem test_decode_bd_short : decode ⟨.byte, 0b1, .ofIndex 8⟩ = .ok (.bdShort 8) := rfl
theorem test_decode_bd_err_pol_low : decode ⟨.pair, 0b1111, .zero⟩ = .ok .bdErrPolLow := rfl
theorem test_decode_bd_err_pol_high : decode ⟨.pair, 0b0011, .zero⟩ = .ok .bdErrPolHigh := rfl
theorem test_decode_bd_err_width : decode ⟨.pair, 0b0111, .zero⟩ = .ok .bdErrWidth := rfl
theorem test_decode_bd_bit0 : decode ⟨.pair, 0b0100, .ofBit 2⟩ = .ok (.bdBit0 2) := rfl
theorem test_decode_bd_bit1 : decode ⟨.pair, 0b0101, .ofBit 7⟩ = .ok (.bdBit1 7) := rfl
theorem test_decode_fd_trim_82 : decode ⟨.len, 0x0052, .zero⟩ = .ok (.fdTrim 82) := rfl
theorem test_decode_fd_trim_85 : decode ⟨.len, 0x0055, .zero⟩ = .ok (.fdTrim 85) := rfl
theorem test_decode_fd_lenerr_81 : decode ⟨.len, 0x0051, .zero⟩ = .ok (.fdLenErr 81) := rfl
theorem test_decode_fd_lenerr_86 : decode ⟨.len, 0x0056, .zero⟩ = .ok (.fdLenErr 86) := rfl
theorem test_decode_fd_bytes : decode ⟨.step, 0b0101, .zero⟩ = .ok .fdBytes := rfl
theorem test_decode_fd_csum : decode ⟨.step, 0b0111, .zero⟩ = .ok .fdCsum := rfl
theorem test_decode_fd_conv_a : decode ⟨.step, 0b1000, .zero⟩ = .ok .fdConvA := rfl
theorem test_decode_fd_conv_b : decode ⟨.step, 0b1001, .zero⟩ = .ok .fdConvB := rfl
theorem test_decode_fd_range : decode ⟨.step, 0b1011, .zero⟩ = .ok .fdRange := rfl
theorem test_decode_fd_commit : decode ⟨.step, 0b1101, .zero⟩ = .ok .fdCommit := rfl

/-- What no row answers is refused by name (R67, R71, R82). -/
theorem test_decode_refuses : decode ⟨.cmd, 0b0100, .zero⟩ = .error .splitByBusy ∧
    decode ⟨.cmdb, 0b00001, .zero⟩ = .error .notStartOrIoerr ∧ decode ⟨.step, 0b0010, .zero⟩ = .error .splitByLength ∧
    decode ⟨.step, 0b0001, .zero⟩ = .error .reservedStep ∧ decode ⟨.step, 0b1111, .zero⟩ = .error .reservedStep ∧
    decode ⟨.byte, 0b10, .zero⟩ = .error .outsideFormat := ⟨rfl, rfl, rfl, rfl, rfl, rfl⟩

/-- Bare table words, and one presented as the first thing after reset. -/
theorem test_table_words : decodeTableWord 16 0x0052 = some (.fdTrim 82) ∧ decodeTableWord 8 0x38 = some (.prEdge false 0) ∧
    decodeTableWord 16 0x0000 = some (.fdLenErr 0) := ⟨rfl, rfl, rfl⟩
theorem test_fetch_word_runs : after (step (State.reset.withFetchWord 16 0x0051)) (fun t =>
    t.errCode == some .frameLengthError && t.phase == .done && t.inputs == []) = true := by decide

/-! ## Host commands (`43_control_ops.md`) -/

theorem test_reset : after (exec .reset { capturing with pcount := 40 }) (fun t =>
    t.phase == .idle && t.pcount == 0 && t.timeoutUsQ == 0 && t.cfg == .default) = true := by decide
theorem test_nop : nextOf (exec .nop capturing) = some capturing := by decide
theorem test_start_go : after (exec (.startGo .b 10) { State.reset with phase := .done, errCode := some .checksumError })
    (fun t => t.variantQ == .b && t.timeoutUsQ == 10000 && t.phase == .armed && t.errCode == none && t.pcount == 0) =
    true := by decide
/-- The largest timeout does not wrap: 65535 * 1000 = 65535000 (`00_scope.md` R15). -/
theorem test_start_go_largest_timeout : after (exec (.startGo .a 0xFFFF) State.reset)
    (fun t => t.timeoutUsQ.toNat == 65535000) = true := by decide
theorem test_start_drop : nextOf (exec (.startDrop .a 5) { capturing with pcount := 12 }) =
    some { capturing with pcount := 12 } := by decide
theorem test_start_beats_sample : after (step { State.reset with inputs := [.clock { sampleEdge true 7 with start := true }] })
    (fun t => t.phase == .armed) = true := by decide
theorem test_sample_when_armed : after (step { State.reset with phase := .armed, inputs := [.clock (sampleEdge true 1000)] })
    (fun t => t.phase == .capture && t.curLevel && t.pulseStart == 1000) = true := by decide
theorem test_sample_edge_beats_timeout : after (exec (.sample false 99999) { capturing with pollCnt := 19 })
    (fun t => t.phase == .capture && t.pcount == 1 && t.pulseMem.get 0 == some ⟨true, 94999⟩) = true := by decide
theorem test_ioerr_busy : after (exec .ioerrBusy { capturing with pcount := 30 }) (fun t =>
    errBits t.errCode == 1 && t.phase == .done && t.pcount == 30) = true := by decide
theorem test_ioerr_drop : after (step
      { State.reset with phase := .done, humX10 := 450, inputs := [.clock { Ports.quiet with ioErr := true }] })
    (fun t => t.phase == .done && t.errCode == none && t.humX10 == 450) = true := by decide

/-! ## Pulse reconstructor (`40_pulse_reconstructor.md`) -/

theorem test_smp_drop : after (exec (.sample false 123) { State.reset with phase := .done, humX10 := 450 })
    (fun t => t == { State.reset with phase := .done, humX10 := 450 }) = true := by decide
theorem test_pr_first : after (exec (.prFirst true 1000) { State.reset with phase := .armed }) (fun t =>
    t.curLevel && t.pulseStart == 1000 && t.pollCnt == 0 && t.pcount == 0 && t.phase == .capture) = true := by decide
theorem test_pr_edge : after (exec (.prEdge false 1030) { capturing with pulseStart := 1000 }) (fun t =>
    t.pulseMem.get 0 == some ⟨true, 30⟩ && t.pcount == 1 && !t.curLevel && t.pulseStart == 1030) = true := by decide
/-- The timestamp wraps between the two samples: from 2^32 - 10 to 20 are 30 microseconds (`00_scope.md` R15). -/
theorem test_pr_edge_wraps : after (exec (.prEdge false 20) { capturing with pulseStart := 0xFFFFFFF6 }) (fun t =>
    t.pulseMem.get 0 == some ⟨true, 30⟩) = true := by decide
theorem test_pr_overflow : after (exec (.sample true 200) nearlyFull) (fun t =>
    errBits t.errCode == 6 && t.phase == .done && t.pcount == 3) = true := by decide
theorem test_pr_hold : after (exec (.sample true 999999) { capturing with pollCnt := 4 }) (fun t =>
    t.pollCnt == 5 && t.phase == .capture) = true := by decide
theorem test_pr_poll : after (exec (.sample true 15000) { capturing with pollCnt := 19 }) (fun t =>
    t.pollCnt == 0 && t.phase == .capture) = true := by decide
/-- One microsecond later the capture ends; with no transition at all that is a FrameLengthError (R97, corner case b). -/
theorem test_pr_timeout_no_transition : after (exec (.sample true 15001) { capturing with pollCnt := 19 }) (fun t =>
    t.phase == .done && errBits t.errCode == 3 && t.pcount == 1 && t.pulseMem.get 0 == some ⟨true, 10000⟩) =
    true := by decide
/-- R97's example with a Variant B frame in the memory: 84 pulses and the final one make 85, the Reading is 30.0 percent
and -24.6 degrees (`42_frame_decoder.md` R121). -/
theorem test_pr_timeout_frame : after (exec (.prTimeout true 15001)
    { holding (lowHigh ++ [⟨true, 1⟩] ++ framePulses frameB ++ [⟨false, 50⟩]) with
      phase := .capture, variantQ := .b, curLevel := true, timeoutUsQ := 10000 })
    (fun t => t.valid && t.pcount == 85 && t.humX10 == 300 && t.tempX10 == 0xFF0A && t.pulseMem.get 84 == some ⟨true, 10000⟩
      && t.fb == frameB && t.locals == .zero) = true := by decide

/-! ## Bit/byte decoder (`41_bit_byte_decoder.md`) -/

theorem test_bd_byte : after (exec (.bdByte 0) (holding (bytePulses 0x2D))) (fun t => t.locals.byte == 45) = true := by
  decide
/-- R106's example: of 20 pulses, 16 remain from 4 and fewer from 5. -/
theorem test_bd_short : after (exec (.bdByte 5) { State.reset with pcount := 20 }) (fun t => errBits t.errCode == 5) =
    true ∧ decode (byteWord { State.reset with pcount := 20 } 5) = .ok (.bdShort 5) ∧
    decode (byteWord { State.reset with pcount := 20 } 4) = .ok (.bdByte 4) := ⟨by decide, rfl, rfl⟩
theorem test_bd_err_pol_low : after (exec .bdErrPolLow capturing) (fun t => errBits t.errCode == 2 && t.phase == .done) =
    true := by decide
theorem test_bd_err_pol_high : decode (pairWord .default ⟨false, 50⟩ ⟨false, 26⟩ 0) = .ok .bdErrPolHigh ∧
    after (exec .bdErrPolHigh capturing) (fun t => errBits t.errCode == 2) = true := ⟨rfl, by decide⟩
theorem test_bd_err_width : decode (pairWord .default ⟨false, 50⟩ ⟨true, 98⟩ 0) = .ok .bdErrWidth ∧
    after (exec .bdErrWidth capturing) (fun t => errBits t.errCode == 2) = true := ⟨rfl, by decide⟩
/-- 47 is a 0, 48 and 97 are a 1 (R110, R111). -/
theorem test_bd_bit0 : decode (pairWord .default ⟨false, 50⟩ ⟨true, 47⟩ 0) = .ok (.bdBit0 0) ∧
    after (exec (.bdBit0 0) { State.reset with locals := ⟨0, 0xFF⟩ }) (fun t => t.locals.byte == 0x7F) = true :=
  ⟨rfl, by decide⟩
theorem test_bd_bit1 : decode (pairWord .default ⟨false, 50⟩ ⟨true, 48⟩ 7) = .ok (.bdBit1 7) ∧
    decode (pairWord .default ⟨false, 50⟩ ⟨true, 97⟩ 7) = .ok (.bdBit1 7) ∧
    after (exec (.bdBit1 7) State.reset) (fun t => t.locals.byte == 0x01) = true := ⟨rfl, rfl, by decide⟩

/-! ## Frame decoder (`42_frame_decoder.md`) -/

theorem test_fd_trim : after (exec (.fdTrim 84) State.reset) (fun t => t.locals.base == 2) = true := by decide
theorem test_fd_lenerr : after (exec (.fdLenErr 81) State.reset) (fun t => errBits t.errCode == 3 && t.phase == .done) =
    true := by decide
theorem test_fd_bytes : after (exec .fdBytes (holding (framePulses frameA))) (fun t => t.fb == frameA) = true := by decide
theorem test_fd_csum_passes : after (exec .fdCsum (withBytes frameB)) (fun t => t.errCode == none) = true := by decide
theorem test_fd_csum_fails : after (exec .fdCsum (withBytes { frameB with b2 := 0x81 })) (fun t =>
    errBits t.errCode == 4 && t.fb.b2 == 0x81) = true := by decide
theorem test_fd_conv_a : after (exec .fdConvA (withBytes ⟨45, 0, 23, 0, 68⟩)) (fun t =>
    t.humX10 == 450 && t.tempX10 == 230) = true := by decide
theorem test_fd_conv_b : after (exec .fdConvB (withBytes frameB)) (fun t => t.humX10 == 300 && t.tempX10 == 0xFF0A) =
    true := by decide
/-- Negative zero converts to 0; the largest negative magnitude is -32767 (R121). -/
theorem test_fd_conv_b_corners : after (exec .fdConvB (withBytes ⟨0, 0, 0x80, 0, 0x80⟩)) (fun t => t.tempX10 == 0) =
    true ∧ after (exec .fdConvB (withBytes ⟨0, 0, 0xFF, 0xFF, 0⟩)) (fun t => decide (t.tempX10.toInt = -32767)) = true := by
  decide
theorem test_fd_range_passes : after (exec .fdRange { State.reset with humX10 := 1000 }) (fun t =>
    t.errCode == none && t.humX10 == 1000) = true := by decide
theorem test_fd_range_fails : after (exec .fdRange { State.reset with humX10 := 1001, tempX10 := 230 }) (fun t =>
    errBits t.errCode == 5 && t.humX10 == 0 && t.tempX10 == 0) = true := by decide
theorem test_fd_commit : after (exec .fdCommit { capturing with humX10 := 450, tempX10 := 230 }) (fun t =>
    t.isDone && t.valid && t.humX10 == 450 && t.tempX10 == 230) = true := by decide

/-! ## Views (`10_state.md` R31, `60_exceptions.md` R160) -/

/-- DONE with ChecksumError: `01 100 0 1 0`. -/
theorem test_status : ({ State.reset with phase := .done, errCode := some .checksumError } : State).statusWord = 0x62 := by
  decide
theorem test_debug_port : nearlyFull.dbgPort 2 = some ⟨true, 7⟩ ∧ nearlyFull.dbgPort 3 = none := by decide

/-! ## The two stops (log entries 7, 8) -/

theorem test_no_value_stops : exec (.bdByte 0) { State.reset with pcount := 16 } = .fault (.pulseReadNoValue 0) := rfl
theorem test_write_outside_stops : exec (.prEdge true 1) { nearlyFull with pcount := 4 } = .fault (.pulseWriteOutside 4) :=
  rfl

/-! ## Witnesses: states and operands that meet the hypotheses of the statements, one for each statement that has some
and one for each clause at the edges of its range -/

/-- One clock edge to come. -/
def edge (p : Ports) (s : State) : State := { s with inputs := [.clock p] }

def armed : State := { State.reset with phase := .armed }
def finished : State := { State.reset with phase := .done, humX10 := 450, tempX10 := 230 }

theorem witness_ResetPutsEveryRegisterAtItsTableValue :
    (∃ r : State, r = State.reset) ∧ (∃ (r : State) (c : Config), r = State.resetOf c) ∧
      ∃ r : State, exec .reset nearlyFull = .next r := ⟨⟨_, rfl⟩, ⟨_, ⟨1, 1, 0, 0⟩, rfl⟩, _, rfl⟩

theorem witness_ResetIsAcceptedInEveryPhase : ∃ p rest,
    (edge { Ports.quiet with rst := true, ioErr := true, start := true, sValid := true } nearlyFull).inputs =
      .clock p :: rest ∧ p.rst = true := ⟨_, _, rfl, rfl⟩

theorem witness_EdgeWithoutStrobeChangesNothing : ∃ p rest, (edge .quiet nearlyFull).inputs = .clock p :: rest ∧
    p.rst = false ∧ p.ioErr = false ∧ p.start = false ∧ p.sValid = false := ⟨_, _, rfl, rfl, rfl, rfl, rfl⟩

/-- From IDLE and from DONE, with a sample strobe beside. -/
theorem witness_StartBeginsAFreshAcquisition : ∀ s : State, s = State.reset ∨ s = finished → ∃ p rest,
    (edge { sampleEdge true 1 with start := true, variant := .b, timeoutMs := 0xFFFF } s).inputs = .clock p :: rest ∧
    p.rst = false ∧ p.ioErr = false ∧ p.start = true ∧ p.variant = .b ∧ p.timeoutMs = 0xFFFF ∧
    (s.phase = .idle ∨ s.phase = .done) := by
  rintro s (rfl | rfl)
  · exact ⟨_, _, rfl, rfl, rfl, rfl, rfl, rfl, .inl rfl⟩
  · exact ⟨_, _, rfl, rfl, rfl, rfl, rfl, rfl, .inr rfl⟩

theorem witness_StartWhileBusyIsDropped : ∀ s : State, s = armed ∨ s = nearlyFull → ∃ p rest,
    (edge { sampleEdge true 1 with start := true } s).inputs = .clock p :: rest ∧
    p.rst = false ∧ p.ioErr = false ∧ p.start = true ∧ (s.phase = .armed ∨ s.phase = .capture) := by
  rintro s (rfl | rfl)
  · exact ⟨_, _, rfl, rfl, rfl, rfl, .inl rfl⟩
  · exact ⟨_, _, rfl, rfl, rfl, rfl, .inr rfl⟩

theorem witness_IoErrorEndsTheAcquisition : ∀ s : State, s = armed ∨ s = nearlyFull → ∃ p rest,
    (edge { sampleEdge true 1 with ioErr := true, start := true } s).inputs = .clock p :: rest ∧
    p.rst = false ∧ p.ioErr = true ∧ (s.phase = .armed ∨ s.phase = .capture) := by
  rintro s (rfl | rfl)
  · exact ⟨_, _, rfl, rfl, rfl, .inl rfl⟩
  · exact ⟨_, _, rfl, rfl, rfl, .inr rfl⟩

theorem witness_IoErrorOutsideAnAcquisitionIsDropped : ∀ s : State, s = State.reset ∨ s = finished → ∃ p rest,
    (edge { Ports.quiet with ioErr := true } s).inputs = .clock p :: rest ∧
    p.rst = false ∧ p.ioErr = true ∧ (s.phase = .idle ∨ s.phase = .done) := by
  rintro s (rfl | rfl)
  · exact ⟨_, _, rfl, rfl, rfl, .inl rfl⟩
  · exact ⟨_, _, rfl, rfl, rfl, .inr rfl⟩

theorem witness_OneCommandPerEdgeByPriority :
    ∃ p rest, (edge (sampleEdge true 1) nearlyFull).inputs = .clock p :: rest := ⟨_, _, rfl⟩

theorem witness_StepRunsTheDecodedOperation :
    (∃ i, selectCommand (sampleEdge true 1) nearlyFull.busy = .ok i) ∧ (∃ i, decode ⟨.step, 0b1000, .zero⟩ = .ok i) ∧
    nearlyFull.inputs = [] ∧ ∃ e, decode ⟨.step, 0b1110, .zero⟩ = .error e := ⟨⟨_, rfl⟩, ⟨_, rfl⟩, rfl, _, rfl⟩

/-- The seven operations, each at the edge of its conditions: `pcount + 1` is 3 and 4 of 4, the poll count 1 and 2 of 3,
the elapsed time 1000 and 1001 of 1000. -/
theorem witness_SamplePerformsTheSelectedOperation :
    decode (smpWord finished true 1) = .ok (.smpDrop true 1) ∧ decode (smpWord armed true 1) = .ok (.prFirst true 1) ∧
    decode (smpWord { nearlyFull with pcount := 2 } true 1) = .ok (.prEdge true 1) ∧
    decode (smpWord nearlyFull true 1) = .ok (.prOverflow true 1) ∧
    decode (smpWord { nearlyFull with pollCnt := 1 } false 9999) = .ok (.prHold false 9999) ∧
    decode (smpWord { nearlyFull with pollCnt := 2 } false 1100) = .ok (.prPoll false 1100) ∧
    decode (smpWord { nearlyFull with pollCnt := 2 } false 1101) = .ok (.prTimeout false 1101) ∧
    ∃ p rest, (edge (sampleEdge true 1) nearlyFull).inputs = .clock p :: rest ∧ p.rst = false ∧ p.ioErr = false ∧
      p.start = false ∧ p.sValid = true ∧ p.sLevel = true ∧ p.sTs = 1 :=
  ⟨rfl, rfl, rfl, rfl, rfl, rfl, rfl, _, _, rfl, rfl, rfl, rfl, rfl, rfl, rfl⟩

theorem nearlyFull_filled : nearlyFull.Filled := by
  intro i hi
  have h : i < 3 := hi
  interval_cases i
  · exact ⟨_, rfl⟩
  · exact ⟨_, rfl⟩
  · exact ⟨_, rfl⟩

/-- Under the premise, in a capture and outside one. -/
theorem witness_SampleAlwaysCompletes :
    (nearlyFull.phase = .capture ∧ nearlyFull.cfg.wf = true ∧ nearlyFull.pcount.toNat < nearlyFull.cfg.maxPulses ∧
      nearlyFull.Filled) ∧ armed.phase ≠ .capture := ⟨⟨rfl, by decide, by decide, nearlyFull_filled⟩, by decide⟩

theorem witness_SampleOutsideACaptureIsDropped : State.reset.phase = .idle ∧ finished.phase = .done := ⟨rfl, rfl⟩

theorem witness_FirstSampleOpensPulseZero : armed.phase = .armed := rfl

/-- With and without a further entry left. -/
theorem witness_TransitionClosesThePulse :
    nearlyFull.cfg.wf = true ∧ nearlyFull.pcount.toNat < nearlyFull.cfg.maxPulses ∧
    ∃ s : State, s = { nearlyFull with pcount := 2 } ∧ s.cfg.wf = true ∧ s.phase = .capture ∧ true ≠ s.curLevel ∧
      s.pcount.toNat + 1 < s.cfg.maxPulses := ⟨by decide, by decide, _, rfl, by decide, rfl, by decide, by decide⟩

theorem witness_TransitionWithoutRoomIsCapacityError :
    nearlyFull.phase = .capture ∧ true ≠ nearlyFull.curLevel ∧ nearlyFull.cfg.maxPulses ≤ nearlyFull.pcount.toNat + 1 :=
  ⟨rfl, by decide, by decide⟩

theorem witness_HoldOnlyCountsTheSample :
    (nearlyFull.phase = .capture ∧ false = nearlyFull.curLevel ∧ nearlyFull.pollCnt + 1 ≠ nearlyFull.cfg.pollN) ∧
    ∃ s : State, s = { nearlyFull with cfg := ⟨4, 1, 47, 97⟩ } ∧ s.cfg.pollN = 1 ∧ s.pollCnt + 1 ≤ s.cfg.pollN :=
  ⟨⟨rfl, rfl, by decide⟩, _, rfl, rfl, by decide⟩

/-- The elapsed time equals the timeout. -/
theorem witness_PollAtTheTimeoutGoesOn : ∃ s : State, s = { nearlyFull with pollCnt := 2 } ∧ s.phase = .capture ∧
    false = s.curLevel ∧ s.pollCnt + 1 = s.cfg.pollN ∧ ((1100 : Stamp) - s.pulseStart).toNat ≤ s.timeoutUsQ.toNat :=
  ⟨_, rfl, rfl, rfl, rfl, by decide⟩

/-- A capture that meets the invariants, with three closed pulses. -/
theorem nearlyFull_inv : nearlyFull.Inv where
  cfgLegal := by decide
  memCanonical := by decide
  memInside := by
    intro i p h
    simp only [nearlyFull, Memory.get] at h
    have hm : nearlyFull.cfg.maxPulses = 4 := rfl
    split at h
    · omega
    · split at h
      · omega
      · split at h
        · omega
        · cases h
  filled := nearlyFull_filled
  noDecode := rfl
  clockOnly := by
    intro x h
    cases h
  countBound := by decide
  captureRoom := fun _ => by decide
  pollBound := by decide
  errOnlyDone := fun _ => rfl
  errClears := fun h => absurd rfl h
  freshBefore := by
    rintro (h | h) <;> cases h
  freshInCapture := fun _ => ⟨rfl, rfl, rfl⟩
  alternates := by
    refine ⟨?_, ?_⟩
    · intro i p q h1 h2
      by_cases hi : i < 2
      · interval_cases i <;> cases h1 <;> cases h2 <;> decide
      · have : ¬ i + 1 < nearlyFull.pcount.toNat := by
          show ¬ i + 1 < 3
          omega
        rw [State.pulseAt, if_neg this] at h2
        cases h2
    · intro _ i p hi h
      have h3 : i + 1 = 3 := hi
      obtain rfl : i = 2 := by omega
      cases h
      decide
  validFrame := by
    intro h
    exact absurd h (by decide)

theorem witness_IdleLineEndsTheCaptureWithinPollN : ∃ samples : List Sample, nearlyFull.Inv ∧
    nearlyFull.phase = .capture ∧ samples.length = nearlyFull.cfg.pollN ∧
    ∀ x ∈ samples, x.level = nearlyFull.curLevel ∧
      nearlyFull.timeoutUsQ.toNat < (x.ts - nearlyFull.pulseStart).toNat := by
  refine ⟨[⟨false, 1101⟩, ⟨false, 1102⟩, ⟨false, 1103⟩], nearlyFull_inv, rfl, rfl, ?_⟩
  decide

/-- All three endings of the whole-sequence function occur. -/
theorem witness_ReconstructAgreesWithTheSampleSteps : nearlyFull.cfg.wf = true ∧
    reconstruct nearlyFull.cfg 0 [] = .pending [] ∧
    reconstruct nearlyFull.cfg 0 [⟨true, 0⟩, ⟨false, 5⟩] = .pending [⟨true, 5⟩] ∧
    reconstruct nearlyFull.cfg 0 [⟨true, 0⟩, ⟨true, 5⟩, ⟨true, 6⟩, ⟨true, 7⟩] = .ended [⟨true, 0⟩] ∧
    reconstruct nearlyFull.cfg 0 [⟨true, 0⟩, ⟨false, 1⟩, ⟨true, 2⟩, ⟨false, 3⟩, ⟨true, 4⟩] = .overflow := by decide

/-- A list that runs out, one that ends in an error of the decode, and one that overflows; a Reading comes below. -/
theorem witness_AcquisitionIsReconstructThenDecodeFrame : nearlyFull.cfg.wf = true ∧
    acquisition nearlyFull.cfg .a 0 [⟨true, 0⟩] = none ∧
    acquisition nearlyFull.cfg .a 0 [⟨true, 0⟩, ⟨true, 5⟩, ⟨true, 6⟩, ⟨true, 7⟩] = some (.error .frameLengthError) ∧
    acquisition nearlyFull.cfg .a 0 [⟨true, 0⟩, ⟨false, 1⟩, ⟨true, 2⟩, ⟨false, 3⟩, ⟨true, 4⟩] =
      some (.error .capacityError) := by
  decide

/-! ### Pulses that carry bits -/

/-- The pair at `i` is well formed, and carries the bit when one is asked for. -/
def pairOk (c : Config) (get : Nat → Option Pulse) (at0 : Nat) (bit : Option Bool) : Bool :=
  match get at0, get (at0 + 1) with
  | some lo, some hi =>
    !lo.level && hi.level && decide (hi.dur.toNat ≤ c.highMaxUs) &&
      (bit == none || bit == some (decide (c.bitThresholdUs < hi.dur.toNat)))
  | _, _ => false

theorem pairOk_carries {c : Config} {get : Nat → Option Pulse} {at0 : Nat} {bit : Option Bool}
    (h : pairOk c get at0 bit = true) : ∃ b lo hi, get at0 = some lo ∧ get (at0 + 1) = some hi ∧ CarriesBit c b lo hi ∧
      (bit = none ∨ bit = some b) := by
  unfold pairOk at h
  cases hl : get at0 with
  | none => simp [hl] at h
  | some lo =>
    cases hh : get (at0 + 1) with
    | none => simp [hl, hh] at h
    | some hi =>
      simp only [hl, hh, Bool.and_eq_true, Bool.or_eq_true, beq_iff_eq, Bool.not_eq_true'] at h
      obtain ⟨⟨⟨h1, h2⟩, h3⟩, h4⟩ := h
      exact ⟨_, lo, hi, rfl, rfl, ⟨h1, h2, of_decide_eq_true h3, decide_eq_true_iff⟩, h4⟩

/-- The byte is carried, by a check that evaluates. -/
theorem carries_of_check {c : Config} {get : Nat → Option Pulse} {v : Byte} {at0 : Nat}
    (h : ∀ i : Fin 8, pairOk c get (at0 + 2 * i.val) (some (v.getLsbD (7 - i.val))) = true) :
    ∀ i : Nat, i < 8 → ∃ lo hi, get (at0 + 2 * i) = some lo ∧ get (at0 + 2 * i + 1) = some hi ∧
      CarriesBit c (v.getLsbD (7 - i)) lo hi := by
  intro i hi
  obtain ⟨b, lo, up, h1, h2, h3, h4⟩ := pairOk_carries (h ⟨i, hi⟩)
  rcases h4 with h4 | h4
  · cases h4
  · cases h4
    exact ⟨lo, up, h1, h2, h3⟩

/-- Pairs before pair `j` are well formed, by a check that evaluates. -/
theorem good_of_check {c : Config} {get : Nat → Option Pulse} {at0 j : Nat}
    (h : ∀ i : Fin j, pairOk c get (at0 + 2 * i.val) none = true) :
    ∀ i, i < j → ∃ b lo hi, get (at0 + 2 * i) = some lo ∧ get (at0 + 2 * i + 1) = some hi ∧ CarriesBit c b lo hi := by
  intro i hi
  obtain ⟨b, lo, up, h1, h2, h3, -⟩ := pairOk_carries (h ⟨i, hi⟩)
  exact ⟨b, lo, up, h1, h2, h3⟩

/-- The pulses of `frameA` as a whole train of 82, and of 85. -/
def train82 : List Pulse := framePulses frameA ++ lowHigh
def train85 : List Pulse := [⟨true, 1⟩] ++ lowHigh ++ framePulses frameA ++ [⟨false, 9⟩, ⟨true, 10000⟩]

/-- The train of 82 with a last pair whose high pulse is too long. -/
def badTrain : List Pulse := (framePulses frameA).take 78 ++ [⟨false, 50⟩, ⟨true, 98⟩] ++ lowHigh

/-- A byte whose last pair is bad, its pulses given. -/
def badLast (lo hi : Pulse) : State := holding ((bytePulses 0x2D).take 14 ++ [lo, hi])

theorem witness_ByteDecodeReturnsTheCarriedByte : ∃ s : State, s = holding (bytePulses 0x2D) ∧
    (0 : Half).toNat + 16 ≤ s.pcount.toNat ∧ s.CarriesByteAt 0x2D (0 : Half).toNat :=
  ⟨_, rfl, by decide, carries_of_check (by decide)⟩

/-- The last pair, bad in each of the three ways, and the first one. -/
theorem witness_FirstBadPairRaisesProtocolError :
    (∀ lo hi : Pulse, lo = ⟨true, 50⟩ ∧ hi = ⟨true, 70⟩ ∨ lo = ⟨false, 50⟩ ∧ hi = ⟨false, 70⟩ ∨
        lo = ⟨false, 50⟩ ∧ hi = ⟨true, 98⟩ →
      (0 : Half).toNat + 16 ≤ (badLast lo hi).pcount.toNat ∧ 7 < 8 ∧
      (∀ i, i < 7 → ∃ b l h, (badLast lo hi).pulseAt ((0 : Half).toNat + 2 * i) = some l ∧
        (badLast lo hi).pulseAt ((0 : Half).toNat + 2 * i + 1) = some h ∧ CarriesBit (badLast lo hi).cfg b l h) ∧
      (badLast lo hi).pulseAt ((0 : Half).toNat + 2 * 7) = some lo ∧
      (badLast lo hi).pulseAt ((0 : Half).toNat + 2 * 7 + 1) = some hi ∧
      (lo.level = true ∨ hi.level = false ∨ (badLast lo hi).cfg.highMaxUs < hi.dur.toNat)) ∧
    ∃ s : State, s = holding (⟨true, 80⟩ :: bytePulses 0x2D) ∧ (0 : Half).toNat + 16 ≤ s.pcount.toNat ∧
      ∃ lo hi, s.pulseAt ((0 : Half).toNat + 2 * 0) = some lo ∧ s.pulseAt ((0 : Half).toNat + 2 * 0 + 1) = some hi ∧
        lo.level = true := by
  refine ⟨?_, _, rfl, by decide, _, _, rfl, rfl, rfl⟩
  rintro lo hi (⟨rfl, rfl⟩ | ⟨rfl, rfl⟩ | ⟨rfl, rfl⟩)
  · exact ⟨by decide, by decide, good_of_check (by decide), by decide, by decide, .inl rfl⟩
  · exact ⟨by decide, by decide, good_of_check (by decide), by decide, by decide, .inr (.inl rfl)⟩
  · exact ⟨by decide, by decide, good_of_check (by decide), by decide, by decide, .inr (.inr (by decide))⟩

/-- 15 pulses are too few, 16 are not; an index near the end of its range does not wrap. -/
theorem witness_TooFewPulsesIsRangeError :
    (15 : Half).toNat < (0 : Half).toNat + 16 ∧ ¬ (16 : Half).toNat < (0 : Half).toNat + 16 ∧
    (0xFFFF : Half).toNat < (0xFFFF : Half).toNat + 16 := by decide

theorem witness_PairErrorsRaiseProtocolError :
    ∃ i j k : Instr, i = .bdErrPolLow ∧ j = .bdErrPolHigh ∧ k = .bdErrWidth := ⟨_, _, _, rfl, rfl, rfl⟩

theorem witness_PairBitLandsMostSignificantFirst : (7 : Nat) ≠ 7 - (7 : BitVec 3).toNat ∧ (0 : Nat) ≠ 7 - (0 : BitVec 3).toNat := by
  decide

/-- All five outcomes of a pair occur, 47 and 48, 97 and 98 among them. -/
theorem witness_PairSelectorPicksTheFirstFailingCheck : ∀ hi : Pulse, ∃ s : State, s = holding [⟨false, 50⟩, hi] ∧
    s.pulseAt ((0 : Half).toNat + 2 * (0 : BitVec 3).toNat) = some ⟨false, 50⟩ ∧
    s.pulseAt ((0 : Half).toNat + 2 * (0 : BitVec 3).toNat + 1) = some hi := fun _ => ⟨_, rfl, rfl, rfl⟩
theorem witness_pair_outcomes :
    decode (pairWord .default ⟨true, 50⟩ ⟨true, 70⟩ 0) = .ok .bdErrPolLow ∧
    decode (pairWord .default ⟨false, 50⟩ ⟨false, 70⟩ 0) = .ok .bdErrPolHigh ∧
    decode (pairWord .default ⟨false, 50⟩ ⟨true, 98⟩ 0) = .ok .bdErrWidth ∧
    decode (pairWord .default ⟨false, 50⟩ ⟨true, 97⟩ 0) = .ok (.bdBit1 0) ∧
    decode (pairWord .default ⟨false, 50⟩ ⟨true, 48⟩ 0) = .ok (.bdBit1 0) ∧
    decode (pairWord .default ⟨false, 50⟩ ⟨true, 47⟩ 0) = .ok (.bdBit0 0) := ⟨rfl, rfl, rfl, rfl, rfl, rfl⟩

theorem witness_LengthDecidesTrimOrFrameLengthError :
    (82 ≤ (82 : Half).toNat ∧ (82 : Half).toNat ≤ 85) ∧ (82 ≤ (85 : Half).toNat ∧ (85 : Half).toNat ≤ 85) ∧
    (81 : Half).toNat < 82 ∧ 85 < (86 : Half).toNat := by decide

theorem frameA_carried : ∀ k : Fin 5,
    (holding (framePulses frameA)).CarriesByteAt (frameA.get k) ((holding (framePulses frameA)).locals.base.toNat + 16 * k.val) := by
  have h : ∀ (k : Fin 5) (i : Fin 8), pairOk (holding (framePulses frameA)).cfg (holding (framePulses frameA)).pulseAt
      ((holding (framePulses frameA)).locals.base.toNat + 16 * k.val + 2 * i.val)
      (some ((frameA.get k).getLsbD (7 - i.val))) = true := by decide
  exact fun k => carries_of_check (h k)

theorem witness_FrameBytesAreTheCarriedBytes : ∃ s : State, s = holding (framePulses frameA) ∧
    s.locals.base.toNat + 80 ≤ s.pcount.toNat ∧
    ∀ k : Fin 5, s.CarriesByteAt (frameA.get k) (s.locals.base.toNat + 16 * k.val) :=
  ⟨_, rfl, by decide, frameA_carried⟩

/-- The last pair of the last byte, after four bytes that are carried; and the first pair of the first. -/
theorem witness_ByteErrorKeepsTheBytesBefore :
    (∃ s : State, s = holding ((framePulses frameA).take 78 ++ [⟨false, 50⟩, ⟨true, 98⟩]) ∧
      s.locals.base.toNat + 80 ≤ s.pcount.toNat ∧
      (∀ m : Fin 5, m < 4 → s.CarriesByteAt (frameA.get m) (s.locals.base.toNat + 16 * m.val)) ∧
      (∀ i, i < 7 → ∃ b lo hi, s.pulseAt (s.locals.base.toNat + 16 * (4 : Fin 5).val + 2 * i) = some lo ∧
        s.pulseAt (s.locals.base.toNat + 16 * (4 : Fin 5).val + 2 * i + 1) = some hi ∧ CarriesBit s.cfg b lo hi) ∧
      ∃ lo hi, s.pulseAt (s.locals.base.toNat + 16 * (4 : Fin 5).val + 2 * 7) = some lo ∧
        s.pulseAt (s.locals.base.toNat + 16 * (4 : Fin 5).val + 2 * 7 + 1) = some hi ∧
        (lo.level = true ∨ hi.level = false ∨ s.cfg.highMaxUs < hi.dur.toNat)) ∧
    ∃ s : State, s = holding (⟨true, 1⟩ :: framePulses frameA) ∧ s.locals.base.toNat + 80 ≤ s.pcount.toNat ∧
      ∃ lo hi, s.pulseAt (s.locals.base.toNat + 16 * (0 : Fin 5).val + 2 * 0) = some lo ∧
        s.pulseAt (s.locals.base.toNat + 16 * (0 : Fin 5).val + 2 * 0 + 1) = some hi ∧ lo.level = true := by
  refine ⟨⟨_, rfl, by decide, ?_, ?_, ⟨false, 50⟩, ⟨true, 98⟩, by decide, by decide, .inr (.inr (by decide))⟩, _, rfl, by decide, _, _, rfl, rfl, rfl⟩
  · have h : ∀ (k : Fin 4) (i : Fin 8),
        pairOk .default (holding ((framePulses frameA).take 78 ++ [⟨false, 50⟩, ⟨true, 98⟩])).pulseAt
          (0 + 16 * k.val + 2 * i.val) (some ((frameA.get (k.castLE (by decide))).getLsbD (7 - i.val))) = true := by
      decide
    intro m hm
    exact carries_of_check (h ⟨m.val, hm⟩)
  · exact good_of_check (by decide)

theorem witness_ChecksumIsTheSumModulo256 :
    frameB.b4.toNat = (frameB.b0.toNat + frameB.b1.toNat + frameB.b2.toNat + frameB.b3.toNat) % 256 ∧
    (0 : Nat) ≠ (frameB.b0.toNat + frameB.b1.toNat + frameB.b2.toNat + frameB.b3.toNat) % 256 := by decide

theorem witness_OneMutatedByteFailsTheChecksum : exec .fdCsum (withBytes frameB) = .next (withBytes frameB) ∧
    (withBytes frameB).errCode = none ∧ (0x2D : Byte) ≠ (withBytes frameB).fb.get 1 ∧
    (0xA4 : Byte) ≠ (withBytes frameB).fb.get 4 := ⟨rfl, rfl, by decide, by decide⟩

theorem witness_HumidityAboveHundredIsRangeError : (1000 : Half).toNat ≤ 1000 ∧ 1000 < (1001 : Half).toNat := by decide

theorem witness_CommitPublishesTheReading : ∃ t, exec .fdCommit nearlyFull = .next t := ⟨_, rfl⟩

/-- The flow goes on. -/
def goesOn : Flow → Bool
  | .go _ => true
  | .ended _ => false
  | .stop _ => false

theorem exists_of_goesOn {r : Flow} (h : goesOn r = true) : ∃ t, r = .go t := by
  cases r with
  | go t => exact ⟨t, rfl⟩
  | ended t => cases h
  | stop f => cases h

/-- The kind of error the flow has ended with. -/
def endsWith (k : ErrKind) : Flow → Bool
  | .go _ => false
  | .ended t => t.errCode == some k
  | .stop _ => false

theorem exists_of_endsWith {r : Flow} {k : ErrKind} (h : endsWith k r = true) :
    ∃ t, r = .ended t ∧ t.errCode = some k := by
  cases r with
  | go t => cases h
  | ended t => exact ⟨t, rfl, by simpa [endsWith] using h⟩
  | stop f => cases h

/-- A decode goes through, and one ends with each of the four kinds: at 81 pulses, at a bad pair, at a wrong sum, and at
101 percent (`42_frame_decoder.md` R122's example); and the last pair of a payload is bad. -/
theorem witness_FrameDecodeIsItsStepsInOrder :
    (∃ t, frameDecode (holding train82) = .go t) ∧
    (∃ t, frameDecode (holding train82.tail) = .ended t ∧ t.errCode = some .frameLengthError) ∧
    (∃ t, frameDecode (holding badTrain) = .ended t ∧ t.errCode = some .protocolError) ∧
    (∃ t, frameDecode (holding (framePulses ⟨0x2D, 0, 0x17, 0, 0x45⟩ ++ lowHigh)) = .ended t ∧
      t.errCode = some .checksumError) ∧
    (∃ t, frameDecode (holding (framePulses ⟨101, 0, 23, 0, 124⟩ ++ lowHigh)) = .ended t ∧
      t.errCode = some .rangeError) ∧
    (82 ≤ badTrain.length ∧ badTrain.length ≤ 85 ∧ badTrain[badTrain.length - 82 + 2 * 39]? = some ⟨false, 50⟩ ∧
      badTrain[badTrain.length - 82 + 2 * 39 + 1]? = some ⟨true, 98⟩ ∧
      BadPair .default ⟨false, 50⟩ ⟨true, 98⟩) :=
  ⟨exists_of_goesOn (by decide), exists_of_endsWith (by decide), exists_of_endsWith (by decide),
    exists_of_endsWith (by decide), exists_of_endsWith (by decide), by decide, by decide, by decide, by decide,
    .inr (.inr (by decide))⟩

/-- The shortest and the longest train. -/
theorem witness_WellFormedTrainGivesTheReadingItCarries :
    (82 ≤ train82.length ∧ train82.length ≤ 85 ∧ CarriesFrame .default frameA train82 (train82.length - 82)) ∧
    (82 ≤ train85.length ∧ train85.length ≤ 85 ∧ CarriesFrame .default frameA train85 (train85.length - 82)) := by
  have h : ∀ (k : Fin 5) (i : Fin 8),
      pairOk .default (fun j => train82[j]?) (0 + 16 * k.val + 2 * i.val) (some ((frameA.get k).getLsbD (7 - i.val))) =
        true ∧
      pairOk .default (fun j => train85[j]?) (3 + 16 * k.val + 2 * i.val) (some ((frameA.get k).getLsbD (7 - i.val))) =
        true := by decide
  exact ⟨⟨by decide, by decide, fun k => carries_of_check fun i => (h k i).1⟩,
    by decide, by decide, fun k => carries_of_check fun i => (h k i).2⟩

/-- The elapsed time is one microsecond past it. -/
theorem witness_TimeoutStoresTheFinalPulseAndDecodes : ∃ s : State, s = { nearlyFull with pollCnt := 2 } ∧
    s.cfg.wf = true ∧ s.pcount.toNat < s.cfg.maxPulses ∧ s.Filled ∧ s.phase = .capture ∧ false = s.curLevel ∧
    s.pollCnt + 1 = s.cfg.pollN ∧ s.timeoutUsQ.toNat < ((1101 : Stamp) - s.pulseStart).toNat :=
  ⟨_, rfl, by decide, by decide, nearlyFull_filled, rfl, rfl, rfl, by decide⟩

/-- What a test of the next state says of it. -/
theorem exists_of_after {r : Host.Outcome State Fault Refusal} {p : State → Bool} (h : after r p = true) :
    ∃ t, r = .next t ∧ p t = true := by
  cases r with
  | next t => exact ⟨t, rfl, h⟩
  | fault f => cases h
  | refused f => cases h

/-- A capture that has closed all pulses of the train but its last one, which ends by a timeout of 80. -/
def beforeTimeout (ps : List Pulse) : State :=
  { holding ps with phase := .capture, curLevel := true, timeoutUsQ := 80 }

/-- The three ways `fb` comes out: an illegal length, five carried bytes, and a bad pair in the last byte. -/
theorem witness_TimeoutStoresTheFinalPulseAndDecodes_fb :
    (∃ t, exec (.prTimeout false 0) nearlyFull = .next t ∧ t.pcount.toNat < 82) ∧
    (∃ t, exec (.prTimeout false 0) (beforeTimeout (train82.take 81)) = .next t ∧ 82 ≤ t.pcount.toNat ∧
      t.pcount.toNat ≤ 85 ∧ CarriesFrame .default frameA t.pulses (t.pcount.toNat - 82)) ∧
    ∃ t, exec (.prTimeout false 0) (beforeTimeout (badTrain.take 81)) = .next t ∧ 82 ≤ t.pcount.toNat ∧
      t.pcount.toNat ≤ 85 ∧
      (∀ m : Fin 5, m < 4 → CarriesByte .default (frameA.get m) t.pulses (t.pcount.toNat - 82 + 16 * m.val)) ∧
      ∃ lo hi, t.pulses[t.pcount.toNat - 82 + 16 * (4 : Fin 5).val + 2 * 7]? = some lo ∧
        t.pulses[t.pcount.toNat - 82 + 16 * (4 : Fin 5).val + 2 * 7 + 1]? = some hi ∧ BadPair .default lo hi := by
  refine ⟨?_, ?_, ?_⟩
  · obtain ⟨t, h1, h2⟩ := exists_of_after (r := exec (.prTimeout false 0) nearlyFull)
      (p := fun t => decide (t.pcount.toNat < 82)) (by decide)
    exact ⟨t, h1, of_decide_eq_true h2⟩
  · obtain ⟨t, h1, h2⟩ := exists_of_after (r := exec (.prTimeout false 0) (beforeTimeout (train82.take 81)))
      (p := fun t => decide (t.pcount.toNat = 82 ∧ t.pulses = train82)) (by decide)
    obtain ⟨e1, e2⟩ := of_decide_eq_true h2
    refine ⟨t, h1, by omega, by omega, ?_⟩
    rw [e1, e2]
    exact witness_WellFormedTrainGivesTheReadingItCarries.1.2.2
  · obtain ⟨t, h1, h2⟩ := exists_of_after (r := exec (.prTimeout false 0) (beforeTimeout (badTrain.take 81)))
      (p := fun t => decide (t.pcount.toNat = 82 ∧ t.pulses = badTrain)) (by decide)
    obtain ⟨e1, e2⟩ := of_decide_eq_true h2
    refine ⟨t, h1, by omega, by omega, ?_, ?_⟩
    · rw [e1, e2]
      intro m hm
      have h : ∀ (k : Fin 4) (i : Fin 8), pairOk .default (fun j => badTrain[j]?) (82 - 82 + 16 * k.val + 2 * i.val)
          (some ((frameA.get (k.castLE (by decide))).getLsbD (7 - i.val))) = true := by decide
      exact carries_of_check fun i => h ⟨m.val, hm⟩ i
    · rw [e1, e2]
      exact ⟨⟨false, 50⟩, ⟨true, 98⟩, rfl, rfl, .inr (.inr (by decide))⟩

/-- The samples at which the pulses of a train begin, and one at the last one's level 1001 after it. -/
def samplesOf (ts : Nat) : List Pulse → List Sample
  | [] => []
  | [p] => [⟨p.level, BitVec.ofNat 32 ts⟩, ⟨p.level, BitVec.ofNat 32 (ts + 1001)⟩]
  | p :: q :: ps => ⟨p.level, BitVec.ofNat 32 ts⟩ :: samplesOf (ts + p.dur.toNat) (q :: ps)

/-- An acquisition that gives a Reading: 45.0 percent, 23.0 degrees (`42_frame_decoder.md` R120's example). -/
theorem witness_AcquisitionIsReconstructThenDecodeFrame_reading :
    (⟨100, 1, 47, 97⟩ : Config).wf = true ∧
    acquisition ⟨100, 1, 47, 97⟩ .a 1 (samplesOf 0 train82) = some (.ok 450 230) := by decide +kernel

/-- The same payload under no preamble and under three pulses of one, with other tails. -/
theorem witness_PreambleTailAndLowDurationsAreNotLookedAt :
    (82 ≤ train82.length ∧ train82.length ≤ 85 ∧ 82 ≤ train85.length ∧ train85.length ≤ 85) ∧
    ∀ (i : Nat) (p q : Pulse), i < 80 → train82[train82.length - 82 + i]? = some p →
      train85[train85.length - 82 + i]? = some q → p.level = q.level ∧ (i % 2 = 1 → p.dur = q.dur) := by
  refine ⟨by decide, ?_⟩
  intro i p q hi hp hq
  have h : ∀ j : Fin 80, train82[0 + j.val]? = train85[3 + j.val]? := by decide
  have e := h ⟨i, hi⟩
  have e1 : train82[0 + i]? = some p := hp
  have e2 : train85[3 + i]? = some q := hq
  rw [e1, e2] at e
  cases e
  exact ⟨rfl, fun _ => rfl⟩

theorem witness_OtherPulseCountsAreFrameLengthError :
    (train82.tail.length ≤ 65535 ∧ train82.tail.length < 82) ∧
    ((⟨true, 1⟩ :: train85).length ≤ 65535 ∧ 85 < (⟨true, 1⟩ :: train85 : List Pulse).length) ∧
    ([] : List Pulse).length < 82 := by decide

theorem alternating_of_check {ps : List Pulse} {n : Nat} (hn : ps.length ≤ n)
    (h : ∀ i : Fin n, (match ps[i.val]?, ps[i.val + 1]? with
      | some p, some q => p.level != q.level
      | _, _ => true) = true) : ∀ i p q, ps[i]? = some p → ps[i + 1]? = some q → p.level ≠ q.level := by
  intro i p q hp hq
  have hi : i < n := Nat.lt_of_lt_of_le (List.getElem?_eq_some_iff.1 hp).1 hn
  have := h ⟨i, hi⟩
  rw [hp, hq] at this
  simpa using this

/-- A train that begins its payload low, and one of 83 that begins it high. -/
theorem witness_AlternatingTrainFailsPolarityOnlyAtItsFirstPair :
    (∀ i p q, train82[i]? = some p → train82[i + 1]? = some q → p.level ≠ q.level) ∧
    (∃ first : Pulse, train82[train82.length - 82]? = some first ∧ first.level = false) ∧
    (∀ i p, i < 80 → i % 2 = 1 → train82[train82.length - 82 + i]? = some p → p.dur.toNat ≤ Config.default.highMaxUs) ∧
    ∃ ps : List Pulse, ps = train82 ++ [⟨false, 5⟩] ∧ ps.length = 83 ∧
      (∀ i p q, ps[i]? = some p → ps[i + 1]? = some q → p.level ≠ q.level) ∧
      ∃ first : Pulse, ps[ps.length - 82]? = some first ∧ first.level = true := by
  refine ⟨alternating_of_check (n := 82) (by decide) (by decide), ⟨_, rfl, rfl⟩, ?_, _, rfl, by decide,
    alternating_of_check (n := 83) (by decide) (by decide), _, rfl, rfl⟩
  intro i p hi hodd hp
  have h : ∀ j : Fin 80, (match train82[0 + j.val]? with
    | some p => decide (p.dur.toNat ≤ 97)
    | none => true) = true := by decide
  have e := h ⟨i, hi⟩
  have e1 : train82[0 + i]? = some p := hp
  simp only [e1] at e
  exact of_decide_eq_true e

theorem witness_ReadingStaysInBounds : decodeFrame .default .a train82 = .ok 450 230 := by decide

theorem witness_EveryErrorEntryIsAllOrNothing : ∃ t, exec .ioerrBusy nearlyFull = .next t ∧ nearlyFull.errCode = none ∧
    t.errCode = some .ioError := ⟨_, rfl, rfl, rfl⟩

theorem witness_DebugPortShowsClosedPulses : nearlyFull.Filled ∧ (2 : Half).toNat < nearlyFull.pcount.toNat ∧
    nearlyFull.pcount.toNat ≤ (3 : Half).toNat := ⟨nearlyFull_filled, by decide, by decide⟩

theorem witness_PhaseChangesOnlyByTheTable : ∃ s t : State, s = edge (sampleEdge true 1) armed ∧
    (∀ x ∈ s.inputs, x.isClock = true) ∧ step s = .next t :=
  ⟨edge (sampleEdge true 1) armed, { armed with phase := .capture, curLevel := true, pulseStart := 1 }, rfl, by decide, rfl⟩

/-- Without START, and with a START that loses to `io_err`. -/
theorem witness_OutcomeIsHeldUntilStartOrReset : ∀ q : Ports, q = sampleEdge true 1 ∨
      q = { Ports.quiet with start := true, ioErr := true } → ∃ p rest,
    (edge q finished).inputs = .clock p :: rest ∧ (edge q finished).phase = .done ∧ p.rst = false ∧
    (p.start = true → p.ioErr = true) := by
  rintro q (rfl | rfl)
  · exact ⟨_, _, rfl, rfl, rfl, by decide⟩
  · exact ⟨_, _, rfl, rfl, rfl, by decide⟩

theorem witness_ConfigurationIsLatchedAtStart : (∃ t, exec (.prHold false 1) nearlyFull = .next t) ∧
    (Instr.prHold false 1 ≠ .reset ∧ ∀ v ms, Instr.prHold false 1 ≠ .startGo v ms) ∧
    ∃ t, step (edge (sampleEdge true 1) nearlyFull) = .next t := ⟨⟨_, rfl⟩, ⟨by simp, by simp⟩, _, rfl⟩

theorem witness_InvariantsHoldAtReset : (⟨1, 1, 0, 0⟩ : Config).wf = true ∧ (⟨65535, 1, 47, 97⟩ : Config).wf = true := by
  decide

/-- The first entry above the memory; the last pair of a byte with its low entry, and with its high entry, not there. -/
theorem witness_AccessToNoEntryStops :
    (∃ s : State, s = { nearlyFull with pcount := 4 } ∧ s.cfg.maxPulses ≤ s.pcount.toNat) ∧
    (∃ s : State, s = { holding ((bytePulses 0x2D).take 14) with pcount := 16 } ∧
      (0 : Half).toNat + 16 ≤ s.pcount.toNat ∧
      (∀ i, i < 7 → ∃ b lo hi, s.pulseAt ((0 : Half).toNat + 2 * i) = some lo ∧
        s.pulseAt ((0 : Half).toNat + 2 * i + 1) = some hi ∧ CarriesBit s.cfg b lo hi) ∧
      s.pulseAt ((0 : Half).toNat + 2 * 7) = none) ∧
    ∃ s : State, s = { holding ((bytePulses 0x2D).take 15) with pcount := 16 } ∧
      (0 : Half).toNat + 16 ≤ s.pcount.toNat ∧
      (∀ i, i < 7 → ∃ b lo hi, s.pulseAt ((0 : Half).toNat + 2 * i) = some lo ∧
        s.pulseAt ((0 : Half).toNat + 2 * i + 1) = some hi ∧ CarriesBit s.cfg b lo hi) ∧
      ∃ lo, s.pulseAt ((0 : Half).toNat + 2 * 7) = some lo ∧ lo.level = false ∧
        s.pulseAt ((0 : Half).toNat + 2 * 7 + 1) = none :=
  ⟨⟨_, rfl, by decide⟩, ⟨_, rfl, by decide, good_of_check (by decide), by decide⟩,
    _, rfl, by decide, good_of_check (by decide), ⟨false, 50⟩, by decide, rfl, by decide⟩

theorem witness_PulseMemoryIsOnlyAppendedTo : ∃ t, exec (.prEdge true 1) nearlyFull = .next t := ⟨_, rfl⟩

theorem witness_EveryStepKeepsTheInvariants : nearlyFull.Inv ∧ ∃ t, step nearlyFull = .next t :=
  ⟨nearlyFull_inv, nearlyFull, rfl⟩

theorem witness_EveryStepCompletesUnderTheInvariants : nearlyFull.Inv := nearlyFull_inv

/-- Entry 2 and entry 0 itself. -/
theorem witness_LevelsAlternateFromEntryZero : nearlyFull.Inv ∧ nearlyFull.pulseAt 0 = some ⟨true, 5⟩ ∧
    nearlyFull.pulseAt 2 = some ⟨true, 7⟩ := ⟨nearlyFull_inv, rfl, rfl⟩

theorem witness_DecodeOfEncodeIsTheOperation : (Instr.fdTrim 85).wf = true ∧ (Instr.fdLenErr 86).wf = true ∧
    (Instr.sample true 0xFFFFFFFF).wf = true := by decide

theorem witness_DecodedOperationsAreWellFormed : decode ⟨.len, 82, .zero⟩ = .ok (.fdTrim 82) ∧
    decode ⟨.len, 81, .zero⟩ = .ok (.fdLenErr 81) := ⟨rfl, rfl⟩

theorem witness_SelectorPatternsAreDisjointAndCover :
    (63 : Half).toNat < 64 ∧ (1 : Half).toNat < 2 ∧ (15 : Half).toNat < 16 ∧ (31 : Half).toNat < 32 := by decide

/-- `60_exceptions.md` R164's case: two failures, then a Reading, with a budget of 2 and of 1; and attempts that never
succeed, with no budget and with one of 1. -/
theorem witness_RetryReturnsTheFirstReadingOrTheLastError : ∃ attempt never : Nat → Except ErrKind Reading,
    ((∀ j, j < 2 → ∃ k, attempt j = .error k) ∧ attempt 2 = .ok ⟨450, 230⟩ ∧ 2 ≤ 2) ∧
    ((∀ j, j ≤ 1 → ∃ k, attempt j = .error k) ∧ attempt 1 = .error .checksumError) ∧
    (∀ n, (∀ j, j ≤ n → ∃ k, never j = .error k) ∧ never n = .error .ioError) ∧
    ∀ j, j ≤ 1 → attempt j = (fun _ => .error .checksumError : Nat → Except ErrKind Reading) j := by
  refine ⟨fun j => if j < 2 then .error .checksumError else .ok ⟨450, 230⟩, fun _ => .error .ioError, ⟨?_, rfl, by decide⟩,
    ⟨?_, rfl⟩, fun n => ⟨fun _ _ => ⟨_, rfl⟩, rfl⟩, ?_⟩
  · exact fun j hj => ⟨.checksumError, by simp [hj]⟩
  · exact fun j hj => ⟨.checksumError, by simp; omega⟩
  · exact fun j hj => by simp; omega

end Sys2Proof.Tests
end

section
/-! PROOF. The family of `10_state.md`: the reset values, the flags and STATUS, the bounds of a Reading, and the
invariants of R38 at reset and across a step. -/

namespace Sys2Proof.Machine

/-! ## Reset (`10_state.md` R37) -/

/-- The three ways to be reset are one: the state cleared. -/
theorem eq_cleared_of_reset {r : State}
    (h : r = State.reset ∨ (∃ c, r = State.resetOf c) ∨ ∃ s, exec .reset s = .next r) : ∃ s : State, r = s.cleared := by
  rcases h with rfl | ⟨c, rfl⟩ | ⟨s, h⟩
  · exact ⟨State.reset, rfl⟩
  · exact ⟨State.resetOf c, rfl⟩
  · exact ⟨s, (Host.Outcome.next.inj h).symm⟩

/-- With `pcount = 0` no entry holds a value, whatever the memory lists (`20_memory.md` R48). -/
theorem pulseAt_of_pcount_zero {s : State} (h : s.pcount = 0) (i : Nat) : s.pulseAt i = none :=
  State.pulseAt_of_le (by simp [h])

/-- Settles O1: each reset state is a cleared state, whose registers are the table's by definition. -/
theorem resetPutsEveryRegisterAtItsTableValue : Obligations.ResetPutsEveryRegisterAtItsTableValue := by
  intro r h
  obtain ⟨s, rfl⟩ := eq_cleared_of_reset h
  have hd : s.cleared.phase ≠ .done := by simp [State.cleared]
  exact ⟨rfl, rfl, rfl, rfl, rfl, rfl, rfl, rfl, rfl, rfl, rfl, pulseAt_of_pcount_zero rfl,
    busy_eq_false_iff.2 (.inl rfl), isDone_eq_false_iff.2 hd, valid_eq_false_iff.2 (.inl hd)⟩

/-! ## The flags and STATUS (`10_state.md` R30, R31) -/

/-- `err_code` is 0 exactly when it holds no error: the codes of R146 begin at 1. -/
theorem errBits_eq_zero_iff (e : Option ErrKind) : errBits e = 0 ↔ e = none := by
  cases e with
  | none => decide
  | some k => cases k <;> decide

/-- The fields of a word of STATUS's layout, whatever the fields hold. -/
theorem status_layout : ∀ (p : BitVec 2) (e : BitVec 3) (v d b : Bool),
    let w : BitVec 8 := p ++ e ++ BitVec.ofBool v ++ BitVec.ofBool d ++ BitVec.ofBool b
    w.getLsbD 0 = b ∧ w.getLsbD 1 = d ∧ w.getLsbD 2 = v ∧ w.extractLsb' 3 3 = e ∧ w.extractLsb' 6 2 = p := by
  decide

/-- Settles O44: the flags by their laws, STATUS by its layout. -/
theorem flagsAndStatusFollowPhaseAndErrorCode : Obligations.FlagsAndStatusFollowPhaseAndErrorCode := by
  intro s
  refine ⟨busy_iff, rfl, isDone_iff, ?_, status_layout s.phase.bits (errBits s.errCode) s.valid s.isDone s.busy⟩
  rw [valid_iff, errBits_eq_zero_iff]

/-! ## A Reading in bounds (`10_state.md` R29) -/

/-- What five bytes stand for is in bounds: the range check bounds the humidity (`42_frame_decoder.md` R122), the width
of sign and magnitude the temperature (R120, R121). -/
theorem readingOf_bounds {v : Variant} {f : FrameBytes} {r : Reading} (h : readingOf v f = .ok r) :
    r.humTenths ≤ 1000 ∧ -32767 ≤ r.tempTenths ∧ r.tempTenths ≤ 32767 := by
  have h2 := f.b2.isLt
  have h3 := f.b3.isLt
  unfold readingOf at h
  cases v with
  | a =>
    dsimp only at h
    split_ifs at h with hsum hrange
    cases h
    dsimp only
    omega
  | b =>
    dsimp only at h
    split_ifs at h with hsum hrange hneg <;> (cases h; dsimp only; omega)

/-- The steps before the checksum go on or end in an error. -/
theorem fdLength_fdBytes_splits (s : State) :
    ((fdLength s).andThen fdBytes).Splits (fun _ => True) (fun t => ∃ k, t.errCode = some k) := by
  refine Flow.Splits.andThen ((fdLength_splits s).mono (fun _ _ => trivial) ?_) fun t _ => (fdBytes_splits t).mono
    (fun _ _ => trivial) ?_
  · rintro _ ⟨-, rfl⟩
    exact ⟨_, rfl⟩
  · rintro u hu
    obtain ⟨k, hk, -, -⟩ := hu.kind
    exact ⟨k, hk⟩

/-- A decode that gives a Reading gives what some five bytes stand for (`42_frame_decoder.md` R119 to R123). -/
theorem exists_readingOf_of_result_ok {s : State} {h t : Half} (hr : (frameDecode s).result = .ok h t) :
    ∃ v f, readingOf v f = .ok (.ofRegs h t) := by
  rw [frameDecode_eq_tail] at hr
  have hs := fdLength_fdBytes_splits s
  generalize (fdLength s).andThen fdBytes = r at hs hr
  cases r with
  | go u =>
    have hu := frameTail_reading u
    rw [← Flow.go_andThen u frameTail, hr] at hu
    exact ⟨u.variantQ, u.fb, (Option.some.inj hu).symm⟩
  | ended u =>
    obtain ⟨k, hk⟩ := hs
    simp [Flow.result, State.outcome, hk] at hr
  | stop f => cases f <;> cases hr

/-- Settles O42: a Reading is what some five bytes stand for, and that is in bounds. -/
theorem readingStaysInBounds : Obligations.ReadingStaysInBounds := by
  intro c v ps h t hd
  rw [decodeFrame_eq] at hd
  obtain ⟨v', f, hf⟩ := exists_readingOf_of_result_ok hd
  exact readingOf_bounds hf

/-! ## The invariants that do not speak of the phase

`State.Inv` is taken apart into what every phase asks alike (`State.Ground`) and what each phase asks (the three
`Ground.inv_of_…`), so a step's lemma states only what its writes touch. -/

/-- The invariants of `10_state.md` R38 that every phase asks alike. -/
structure State.Ground (s : State) : Prop where
  cfgLegal : s.cfg.wf = true
  memCanonical : s.pulseMem.wf = true
  memInside : ∀ i p, s.pulseMem.get i = some p → i < s.cfg.maxPulses
  filled : s.Filled
  noDecode : s.locals = .zero
  clockOnly : ∀ x ∈ s.inputs, x.isClock = true
  countBound : s.pcount.toNat ≤ s.cfg.maxPulses
  pollBound : s.pollCnt + 1 ≤ s.cfg.pollN
  neighbours : ∀ i p q, s.pulseAt i = some p → s.pulseAt (i + 1) = some q → p.level ≠ q.level

/-- The last closed pulse, where there is one, has another level than `l`. -/
def State.LastDiffers (s : State) (l : Level) : Prop :=
  ∀ i p, i + 1 = s.pcount.toNat → s.pulseAt i = some p → p.level ≠ l

theorem State.Inv.ground {s : State} (h : s.Inv) : s.Ground where
  cfgLegal := h.cfgLegal
  memCanonical := h.memCanonical
  memInside := h.memInside
  filled := h.filled
  noDecode := h.noDecode
  clockOnly := h.clockOnly
  countBound := h.countBound
  pollBound := h.pollBound
  neighbours := h.alternates.1

theorem State.Inv.lastDiffers {s : State} (h : s.Inv) (hp : s.phase = .capture) : s.LastDiffers s.curLevel :=
  h.alternates.2 hp

/-- With no closed pulse there is no last one. -/
theorem lastDiffers_of_pcount_zero {s : State} (h : s.pcount = 0) (l : Level) : s.LastDiffers l := by
  intro i p hi
  simp [h] at hi

/-- IDLE and ARMED ask for fresh registers (`10_state.md` R38 items 3 and 5). -/
theorem State.Ground.inv_of_fresh {t : State} (g : t.Ground) (hp : t.phase = .idle ∨ t.phase = .armed)
    (he : t.errCode = none) (hf : t.pcount = 0 ∧ t.fb = .zero ∧ t.humX10 = 0 ∧ t.tempX10 = 0) : t.Inv := by
  have hc : t.phase ≠ .capture := by rcases hp with hp | hp <;> simp [hp]
  have hd : t.phase ≠ .done := by rcases hp with hp | hp <;> simp [hp]
  exact { g with
    captureRoom := fun h => absurd h hc
    errOnlyDone := fun _ => he
    errClears := fun h => absurd he h
    freshBefore := fun _ => hf
    freshInCapture := fun h => absurd h hc
    alternates := ⟨g.neighbours, fun h => absurd h hc⟩
    validFrame := fun h => absurd (valid_iff.1 h).1 hd }

/-- CAPTURE asks for room for the open pulse, fresh results, and a last pulse of the other level
(`10_state.md` R38 items 1, 3, 6 and 7). -/
theorem State.Ground.inv_of_capture {t : State} (g : t.Ground) (hp : t.phase = .capture)
    (hr : t.pcount.toNat < t.cfg.maxPulses) (he : t.errCode = none)
    (hf : t.fb = .zero ∧ t.humX10 = 0 ∧ t.tempX10 = 0) (hl : t.LastDiffers t.curLevel) : t.Inv :=
  { g with
    captureRoom := fun _ => hr
    errOnlyDone := fun _ => he
    errClears := fun h => absurd he h
    freshBefore := by simp [hp]
    freshInCapture := fun _ => hf
    alternates := ⟨g.neighbours, fun _ => hl⟩
    validFrame := fun h => by simp [valid_iff, hp] at h }

/-- DONE asks for cleared results with an error and for a checked frame without one (`10_state.md` R38 items 4 and 8). -/
theorem State.Ground.inv_of_done {t : State} (g : t.Ground) (hp : t.phase = .done)
    (he : t.errCode ≠ none → t.humX10 = 0 ∧ t.tempX10 = 0)
    (hv : t.errCode = none → 82 ≤ t.pcount.toNat ∧ t.pcount.toNat ≤ 85 ∧
      t.fb.b4.toNat = (t.fb.b0.toNat + t.fb.b1.toNat + t.fb.b2.toNat + t.fb.b3.toNat) % 256 ∧
      t.humX10.toNat ≤ 1000) : t.Inv :=
  { g with
    captureRoom := by simp [hp]
    errOnlyDone := fun h => absurd hp h
    errClears := he
    freshBefore := by simp [hp]
    freshInCapture := by simp [hp]
    alternates := ⟨g.neighbours, by simp [hp]⟩
    validFrame := fun h => hv (valid_iff.1 h).2 }

/-! ## What keeps the ground -/

/-- Writes that leave the parameters and the memory alone, forget pulses or none, and add no input. -/
theorem State.Ground.congr {s t : State} (g : s.Ground) (hcfg : t.cfg = s.cfg) (hmem : t.pulseMem = s.pulseMem)
    (hpc : t.pcount.toNat ≤ s.pcount.toNat) (hloc : t.locals = .zero) (hin : ∀ x ∈ t.inputs, x ∈ s.inputs)
    (hpoll : t.pollCnt + 1 ≤ s.cfg.pollN) : t.Ground := by
  have hat : ∀ i p, t.pulseAt i = some p → s.pulseAt i = some p := by
    intro i p h
    have hi := State.lt_of_pulseAt h
    rw [State.pulseAt, if_pos (by omega), ← hmem]
    exact State.get_of_pulseAt h
  exact {
    cfgLegal := hcfg ▸ g.cfgLegal
    memCanonical := hmem ▸ g.memCanonical
    memInside := hcfg ▸ hmem ▸ g.memInside
    filled := fun i hi => hmem ▸ g.filled i (by omega)
    noDecode := hloc
    clockOnly := fun x hx => g.clockOnly x (hin x hx)
    countBound := hcfg ▸ hpc.trans g.countBound
    pollBound := hcfg ▸ hpoll
    neighbours := fun i p q hp hq => g.neighbours i p q (hat i p hp) (hat (i + 1) q hq) }

theorem State.Ground.one_le_pollN {s : State} (g : s.Ground) : 1 ≤ s.cfg.pollN :=
  ((Config.wf_iff _).1 g.cfgLegal).2.2

theorem State.Ground.one_le_maxPulses {s : State} (g : s.Ground) : 1 ≤ s.cfg.maxPulses :=
  ((Config.wf_iff _).1 g.cfgLegal).1

/-- An append with room of a level other than the last pulse's. -/
theorem State.Ground.appended {s : State} (g : s.Ground) (l : Level) (d : Stamp)
    (hr : s.pcount.toNat < s.cfg.maxPulses) (hl : s.LastDiffers l) : (s.appended l d).Ground where
  cfgLegal := g.cfgLegal
  memCanonical := Memory.wf_put _ _ _ g.memCanonical
  memInside := by
    intro i p h
    rw [appended_pulseMem, Memory.get_put] at h
    split at h
    · rename_i hi
      exact hi ▸ hr
    · exact g.memInside i p h
  filled := by
    intro i hi
    obtain ⟨p, hp⟩ := appended_filled l d g.cfgLegal hr g.filled i hi
    exact ⟨p, State.get_of_pulseAt hp⟩
  noDecode := g.noDecode
  clockOnly := g.clockOnly
  countBound := by
    rw [appended_pcount, pcount_succ g.cfgLegal hr]
    exact hr
  pollBound := g.pollBound
  neighbours := by
    intro i p q hp hq
    have hi := State.lt_of_pulseAt hq
    rw [appended_pcount, pcount_succ g.cfgLegal hr] at hi
    rw [appended_pulseAt l d g.cfgLegal hr, if_neg (by omega)] at hp
    rw [appended_pulseAt l d g.cfgLegal hr] at hq
    split at hq
    · rename_i hlast
      obtain rfl := Option.some.inj hq
      exact hl i p hlast hp
    · exact g.neighbours i p q hp hq

/-- The last pulse of an appended state is the one appended. -/
theorem appended_lastDiffers {s : State} {l m : Level} (d : Stamp) (hc : s.cfg.wf = true)
    (hr : s.pcount.toNat < s.cfg.maxPulses) (h : l ≠ m) : (s.appended l d).LastDiffers m := by
  intro i p hi hp
  rw [appended_pcount, pcount_succ hc hr] at hi
  rw [appended_pulseAt l d hc hr, if_pos (by omega)] at hp
  obtain rfl := Option.some.inj hp
  exact h

/-! ## The operations keep the invariants, one lemma per next state -/

/-- Using up an input changes the inputs only, and leaves a part of them. -/
theorem State.Inv.consume {s : State} (h : s.Inv) : s.consume.Inv :=
  { h with clockOnly := fun x hx => h.clockOnly x (List.mem_of_mem_tail hx) }

/-- RESET (`43_control_ops.md` R131). -/
theorem State.Ground.cleared_inv {s : State} (g : s.Ground) : s.cleared.Inv :=
  (g.congr (t := s.cleared) rfl rfl (Nat.zero_le _) g.noDecode (fun _ hx => hx) g.one_le_pollN).inv_of_fresh (.inl rfl)
    rfl ⟨rfl, rfl, rfl, rfl⟩

/-- START.GO (`43_control_ops.md` R133). -/
theorem State.Ground.started_inv {s : State} (g : s.Ground) (v : Variant) (ms : Half) : (s.started v ms).Inv :=
  (g.congr (t := s.started v ms) rfl rfl (Nat.zero_le _) g.noDecode (fun _ hx => hx) g.one_le_pollN).inv_of_fresh
    (.inr rfl) rfl ⟨rfl, rfl, rfl, rfl⟩

/-- An error entry (`60_exceptions.md` R156). -/
theorem State.Ground.withError_inv {s : State} (g : s.Ground) (k : ErrKind) : (s.withError k).Inv :=
  (g.congr (t := s.withError k) rfl rfl le_rfl g.noDecode (fun _ hx => hx) g.pollBound).inv_of_done rfl
    (fun _ => ⟨rfl, rfl⟩) (by simp)

/-- PR.FIRST in ARMED (`40_pulse_reconstructor.md` R91): no pulse is closed yet. -/
theorem State.Inv.opened {s : State} (h : s.Inv) (hp : s.phase = .armed) (l : Level) (ts : Stamp) :
    (s.opened l ts).Inv := by
  have g := h.ground
  obtain ⟨hpc, hfb, hhum, htemp⟩ := h.freshBefore (.inr hp)
  have hr : s.pcount.toNat < s.cfg.maxPulses := by rw [hpc]; exact g.one_le_maxPulses
  exact (g.congr (t := s.opened l ts) rfl rfl le_rfl g.noDecode (fun _ hx => hx) g.one_le_pollN).inv_of_capture rfl hr
    (h.errOnlyDone (by simp [hp])) ⟨hfb, hhum, htemp⟩ (lastDiffers_of_pcount_zero hpc l)

/-- A capture in which only `poll_cnt` moves, below `POLL_N`: PR.HOLD and PR.POLL (`40_pulse_reconstructor.md` R95,
R96). -/
theorem State.Inv.withPollCnt {s : State} (h : s.Inv) {n : Nat} (hn : n + 1 ≤ s.cfg.pollN) :
    State.Inv { s with pollCnt := n } :=
  { h with pollBound := hn }

/-- PR.EDGE in CAPTURE, not full (`40_pulse_reconstructor.md` R92): the closed pulse has the old level, the open one the
new. -/
theorem State.Inv.edged {s : State} (h : s.Inv) (hp : s.phase = .capture) {l : Level} (hl : l ≠ s.curLevel)
    (hr : s.pcount.toNat + 1 < s.cfg.maxPulses) (ts : Stamp) : (s.edged l ts).Inv := by
  have hr' : s.pcount.toNat < s.cfg.maxPulses := by omega
  have g := h.ground.appended s.curLevel (ts - s.pulseStart) hr' (h.lastDiffers hp)
  refine (g.congr (t := s.edged l ts) rfl rfl le_rfl g.noDecode (fun _ hx => hx) g.one_le_pollN).inv_of_capture hp ?_
    (h.errOnlyDone (by simp [hp])) (h.freshInCapture hp) (appended_lastDiffers _ h.cfgLegal hr' hl.symm)
  show (s.pcount + 1).toNat < s.cfg.maxPulses
  rwa [pcount_succ h.cfgLegal hr']

/-- PR.TIMEOUT in CAPTURE (`40_pulse_reconstructor.md` R97): the decode keeps the memory with the final pulse, and ends
in DONE with a checked frame or an error. -/
theorem State.Inv.timedOut {s u : State} (h : s.Inv) (hp : s.phase = .capture)
    (hu : DecodeOk s.closed u ∨ DecodeFails s.closed u) : State.Inv { u with locals := .zero } := by
  have g := h.ground.appended s.curLevel s.timeoutUsQ (h.captureRoom hp) (h.lastDiffers hp)
  have hk : Kept s.closed u := hu.elim DecodeOk.kept DecodeFails.kept
  have hg : State.Ground { u with locals := .zero } :=
    g.congr hk.cfg hk.pulseMem (congrArg BitVec.toNat hk.pcount).le rfl (fun x hx => hk.inputs ▸ hx)
      (hk.pollCnt ▸ g.one_le_pollN)
  rcases hu with ok | fails
  · refine hg.inv_of_done ok.phase (fun hne => absurd ok.errCode hne) fun _ => ?_
    have hlen := ok.legal
    rw [← hk.pcount] at hlen
    exact ⟨hlen.1, hlen.2, ok.sum, ok.range⟩
  · obtain ⟨k, hk', -, -⟩ := fails.kind
    exact hg.inv_of_done fails.phase (fun _ => ⟨fails.hum, fails.temp⟩) fun hn => absurd (hk'.symm.trans hn) (by simp)

/-! ## A step -/

/-- A SAMPLE keeps the invariants, in each of its seven cases (`43_control_ops.md` R135). -/
theorem State.Inv.sample {s t : State} (h : s.Inv) {l : Level} {ts : Stamp} (ht : exec (.sample l ts) s = .next t) :
    t.Inv := by
  rw [exec_sample] at ht
  have hpoll := h.pollBound
  rcases sampleOp_cases s l ts with ⟨-, e⟩ | ⟨hp, e⟩ | ⟨hp, hl, hr, e⟩ | ⟨-, -, -, e⟩ | ⟨-, -, hn, e⟩ | ⟨-, -, -, -, e⟩ |
    ⟨hp, -, -, -, e⟩ <;> rw [e] at ht
  · cases ht; exact h
  · cases ht; exact h.opened hp l ts
  · rw [exec_prEdge l ts (by omega)] at ht
    cases ht; exact h.edged hp hl hr ts
  · cases ht; exact h.ground.withError_inv _
  · cases ht; exact h.withPollCnt (by omega)
  · cases ht; exact h.withPollCnt (by omega)
  · obtain ⟨u, rfl, hu⟩ := exec_prTimeout_cases l ts (h.captureRoom hp) ht
    exact h.timedOut hp hu

/-- The state after the reset of a legal build meets the invariants. -/
theorem resetOf_inv {c : Config} (hc : c.wf = true) : (State.resetOf c).Inv := by
  have g : (State.resetOf c).Ground := {
    cfgLegal := hc
    memCanonical := rfl
    memInside := fun _ _ h => by cases h
    filled := fun _ h => absurd h (Nat.not_lt_zero _)
    noDecode := rfl
    clockOnly := fun _ h => by cases h
    countBound := Nat.zero_le _
    pollBound := ((Config.wf_iff c).1 hc).2.2
    neighbours := fun i _ _ h => by rw [pulseAt_of_pcount_zero rfl] at h; cases h }
  exact g.inv_of_fresh (.inl rfl) rfl ⟨rfl, rfl, rfl, rfl⟩

/-- Settles O51: the default build is one of the legal ones. -/
theorem invariantsHoldAtReset : Obligations.InvariantsHoldAtReset :=
  ⟨resetOf_inv (c := .default) (by decide), fun _ hc => resetOf_inv hc⟩

/-- Settles O52: with clock edges only a step runs one of the seven host commands, and each keeps the invariants. -/
theorem everyStepKeepsTheInvariants : Obligations.EveryStepKeepsTheInvariants := by
  intro s t h ht
  obtain ⟨i, hi, hcases⟩ := fetch_clock h.clockOnly
  have ht : exec i s.consume = .next t := by simpa only [step, hi] using ht
  have hc := h.consume
  rcases hcases with rfl | ⟨v, ms, rfl, -⟩ | ⟨l, ts, rfl⟩ | ⟨rfl, -⟩ | rfl | rfl | ⟨v, ms, rfl⟩
  · cases ht; exact hc.ground.cleared_inv
  · cases ht; exact hc.ground.started_inv v ms
  · exact hc.sample ht
  · cases ht; exact hc.ground.withError_inv _
  · cases ht; exact hc
  · cases ht; exact hc
  · cases ht; exact hc

end Sys2Proof.Machine
end

section
/-! PROOF. The family of `20_memory.md`: what is latched at START, the appends of the pulse memory, the alternation of
its levels, and the two accesses that stop. -/

namespace Sys2Proof.Machine

/-! ## What every operation leaves alone (`20_memory.md` R49, R59) -/

/-- An operation of the decoders keeps the configuration and the pulses, however it ends. -/
theorem UnitEffect.kept {s t : State} (h : UnitEffect s t) : Kept s t := by
  cases h with
  | goesOn k hp he => exact k
  | fails h => exact h.kept
  | commits k hp he => exact k

/-- The operation a SAMPLE performs is no host command (`30_encoding.md` R68). -/
theorem sampleOp_ne_host (s : State) (l : Level) (ts : Stamp) :
    sampleOp s l ts ≠ .reset ∧ ∀ v ms, sampleOp s l ts ≠ .startGo v ms := by
  rcases sampleOp_cases s l ts with ⟨-, e⟩ | ⟨-, e⟩ | ⟨-, -, -, e⟩ | ⟨-, -, -, e⟩ | ⟨-, -, -, e⟩ | ⟨-, -, -, -, e⟩ |
    ⟨-, -, -, -, e⟩ <;> simp [e]

/-- A step that completes runs one operation, on the state with its input used up. -/
theorem exists_exec_of_step {s t : State} (h : step s = .next t) :
    ∃ i, fetch s = .ok i ∧ exec i s.consume = .next t := by
  unfold step at h
  cases hf : fetch s with
  | ok i => rw [hf] at h; exact ⟨i, rfl, h⟩
  | error e => rw [hf] at h; cases h

/-! ## The configuration (`20_memory.md` R59, `70_reset_and_hazards.md` R174) -/

/-- No operation writes the parameters or the inputs. -/
theorem Effect.cfg_inputs {s t : State} {i : Instr} (h : Effect s i t) : t.cfg = s.cfg ∧ t.inputs = s.inputs := by
  induction h with
  | timeout l ts u hr hu =>
    have k : Kept s.closed u := hu.elim DecodeOk.kept DecodeFails.kept
    exact ⟨k.cfg, k.inputs⟩
  | sample l ts h ih => exact ih
  | unit h hi => exact ⟨h.kept.cfg, h.kept.inputs⟩
  | reset | start | same | ioError | first | edge | overflow | hold | poll => exact ⟨rfl, rfl⟩

/-- Only RESET and START.GO write `variant_q` and `timeout_us_q`. -/
theorem Effect.latched {s t : State} {i : Instr} (h : Effect s i t) (hr : i ≠ .reset)
    (hs : ∀ v ms, i ≠ .startGo v ms) : t.variantQ = s.variantQ ∧ t.timeoutUsQ = s.timeoutUsQ := by
  induction h with
  | reset => exact absurd rfl hr
  | start v ms => exact absurd rfl (hs v ms)
  | timeout l ts u _ hu =>
    have k : Kept s.closed u := hu.elim DecodeOk.kept DecodeFails.kept
    exact ⟨k.variantQ, k.timeoutUsQ⟩
  | sample l ts h ih => exact ih (sampleOp_ne_host s l ts).1 (sampleOp_ne_host s l ts).2
  | unit h hi => exact ⟨h.kept.variantQ, h.kept.timeoutUsQ⟩
  | same | ioError | first | edge | overflow | hold | poll => exact ⟨rfl, rfl⟩

/-- Settles O48: by what each operation can do; a step is an operation on the state with its input used up. -/
theorem configurationIsLatchedAtStart : Obligations.ConfigurationIsLatchedAtStart := by
  refine ⟨fun i s t h => ?_, fun c => ⟨rfl, rfl⟩, fun s t h => ?_⟩
  · have e := exec_effect h
    exact ⟨e.cfg_inputs.1, e.cfg_inputs.2, e.latched⟩
  · obtain ⟨i, -, hi⟩ := exists_exec_of_step h
    exact (exec_effect hi).cfg_inputs.1

/-! ## The appends (`20_memory.md` R49) -/

/-- From `s` to `t` one entry is appended, with the level of the open pulse, and every other entry reads as before. -/
def State.AppendsOne (s t : State) : Prop :=
  s.pcount.toNat < s.cfg.maxPulses ∧ t.pcount = s.pcount + 1 ∧
    (∃ p, t.pulseMem.get s.pcount.toNat = some p ∧ p.level = s.curLevel) ∧
    ∀ a, a ≠ s.pcount.toNat → t.pulseMem.get a = s.pulseMem.get a

/-- A put at `pcount` with `pcount` one higher after it is such an append. -/
theorem State.AppendsOne.of_put {s t : State} {d : Stamp} (hr : s.pcount.toNat < s.cfg.maxPulses)
    (hc : t.pcount = s.pcount + 1) (hm : t.pulseMem = s.pulseMem.put s.pcount.toNat ⟨s.curLevel, d⟩) :
    s.AppendsOne t := by
  refine ⟨hr, hc, ⟨⟨s.curLevel, d⟩, ?_, rfl⟩, fun a ha => ?_⟩
  · rw [hm, Memory.get_put_self]
  · rw [hm, Memory.get_put_ne _ _ ha]

/-- Outside RESET and START.GO an operation keeps the pulses, or is one of the two that store a pulse, or a SAMPLE, and
appends one. -/
theorem Effect.keeps_or_appends {s t : State} {i : Instr} (h : Effect s i t) (hr : i ≠ .reset)
    (hs : ∀ v ms, i ≠ .startGo v ms) :
    (t.pulseMem = s.pulseMem ∧ t.pcount = s.pcount) ∨
    ((∃ l ts, i = .prEdge l ts ∨ i = .prTimeout l ts ∨ i = .sample l ts) ∧ s.AppendsOne t) := by
  induction h with
  | reset => exact absurd rfl hr
  | start v ms => exact absurd rfl (hs v ms)
  | edge l ts hroom => exact .inr ⟨⟨l, ts, .inl rfl⟩, .of_put hroom rfl rfl⟩
  | timeout l ts u hroom hu =>
    have k : Kept s.closed u := hu.elim DecodeOk.kept DecodeFails.kept
    exact .inr ⟨⟨l, ts, .inr (.inl rfl)⟩, .of_put hroom k.pcount k.pulseMem⟩
  | sample l ts h ih =>
    exact (ih (sampleOp_ne_host s l ts).1 (sampleOp_ne_host s l ts).2).imp_right
      fun ⟨_, ha⟩ => ⟨⟨l, ts, .inr (.inr rfl)⟩, ha⟩
  | unit h hi => exact .inl ⟨h.kept.pulseMem, h.kept.pcount⟩
  | same | ioError | first | overflow | hold | poll => exact .inl ⟨rfl, rfl⟩

/-- Settles O50: RESET and START.GO leave the memory alone, and every other operation keeps it or appends one entry. -/
theorem pulseMemoryIsOnlyAppendedTo : Obligations.PulseMemoryIsOnlyAppendedTo := by
  intro i s t h
  by_cases hr : i = .reset
  · subst hr
    cases h
    exact .inl ⟨rfl, .inr (.inl rfl)⟩
  · by_cases hs : ∃ v ms, i = .startGo v ms
    · obtain ⟨v, ms, rfl⟩ := hs
      cases h
      exact .inl ⟨rfl, .inr (.inr ⟨v, ms, rfl⟩)⟩
    · exact ((exec_effect h).keeps_or_appends hr fun v ms e => hs ⟨v, ms, e⟩).imp_left
        fun ⟨hm, hc⟩ => ⟨hm, .inl hc⟩

/-! ## Alternation (`20_memory.md` R61) -/

/-- Settles O54, by induction on the index: an entry with a value has a neighbour below it of the other level. -/
theorem levelsAlternateFromEntryZero : Obligations.LevelsAlternateFromEntryZero := by
  intro s i p q h hp hq
  induction i generalizing q with
  | zero =>
    obtain rfl := Option.some.inj (hp.symm.trans hq)
    simp
  | succ i ih =>
    obtain ⟨r, hr⟩ := State.Filled_pulseAt h.filled (Nat.lt_of_succ_lt (State.lt_of_pulseAt hq))
    have hne : r.level ≠ q.level := h.alternates.1 i r q hr hq
    have hflip : decide ((i + 1) % 2 = 1) = !decide (i % 2 = 1) := by
      rw [← decide_not, decide_eq_decide]
      omega
    rw [Bool.eq_not_of_ne hne.symm, ih r hr, hflip, Bool.bne_not]

/-! ## The two stops (`20_memory.md` R45, R48) -/

/-- A pair stops at its low entry where that holds no value. -/
theorem bdPair_of_low_none {s : State} {start : Half} {i : BitVec 3} (hl : s.pulseAt (lowIndex start i) = none) :
    bdPair start i s = .stop (.pulseReadNoValue (lowIndex start i)) := by
  rw [bdPair, pulseRead_of_none hl]

/-- A pair stops at its high entry where that holds no value and the low one is low. -/
theorem bdPair_of_high_none {s : State} {start : Half} {i : BitVec 3} {lo : Pulse}
    (hl : s.pulseAt (lowIndex start i) = some lo) (hlow : lo.level = false)
    (hh : s.pulseAt (highIndex start i) = none) :
    bdPair start i s = .stop (.pulseReadNoValue (highIndex start i)) := by
  rw [bdPair, pulseRead_of_some hl, if_neg (by simp [hlow]), pulseRead_of_none hh]

/-- A byte decode stops where a pair stops that comes after pairs that carry bits. -/
theorem bdByte_of_pair_stop {s : State} {start : Half} {j : Nat} {f : Fault} (hp : start.toNat + 16 ≤ s.pcount.toNat)
    (hj : j < 8)
    (hgood : ∀ i, i < j → ∃ b lo hi, s.pulseAt (start.toNat + 2 * i) = some lo ∧
      s.pulseAt (start.toNat + 2 * i + 1) = some hi ∧ CarriesBit s.cfg b lo hi)
    (hstop : ∀ b, bdPair start (BitVec.ofNat 3 j) (s.withByte b) = .stop f) : bdByte start s = .stop f := by
  obtain ⟨before, after, hsplit, hlt⟩ := bitOrder_split j hj
  obtain ⟨b, hb⟩ := bdPairs_of_carries start before (s.withByte 0) fun i hi => hgood i.toNat (hlt i hi)
  rw [bdByte_of_le hp, hsplit, Flow.each_append, hb, Flow.go_andThen, Flow.each_cons, withByte_withByte, hstop,
    Flow.stop_andThen]

/-- Settles O49: an append without room stops at its write, a byte decode at its first entry without a value. -/
theorem accessToNoEntryStops : Obligations.AccessToNoEntryStops := by
  refine ⟨fun s l ts h => ⟨exec_prEdge_full l ts h, exec_prTimeout_full l ts h⟩, fun s start j hp hj hgood => ?_⟩
  have hjn : (BitVec.ofNat 3 j).toNat = j := Nat.mod_eq_of_lt hj
  have hlow : lowIndex start (BitVec.ofNat 3 j) = start.toNat + 2 * j := by rw [lowIndex, hjn]
  have hhigh : highIndex start (BitVec.ofNat 3 j) = start.toNat + 2 * j + 1 := by rw [highIndex, hjn]
  rw [← hhigh, ← hlow]
  refine ⟨fun hl => ?_, fun lo hl hlevel hh => ?_⟩
  · exact congrArg Flow.outcome (bdByte_of_pair_stop hp hj hgood fun b => bdPair_of_low_none hl)
  · exact congrArg Flow.outcome (bdByte_of_pair_stop hp hj hgood fun b => bdPair_of_high_none hl hlevel hh)

end Sys2Proof.Machine
end

section
/-! PROOF. The family of `30_encoding.md`: decode and encode agree, how many rows of the table a selector word fits, and
what the BYTE, PAIR and LEN words select and do. -/

namespace Sys2Proof.Machine

/-! ## Decode and encode (R67 to R72) -/

/-- Settles O55: one round-trip lemma per operation. -/
theorem decodeOfEncodeIsTheOperation : Obligations.DecodeOfEncodeIsTheOperation := by
  intro i
  cases i with
  | reset => exact Laws.RoundTrip.reset
  | nop => exact Laws.RoundTrip.nop
  | startGo v t => exact Laws.RoundTrip.startGo v t
  | startDrop v t => exact Laws.RoundTrip.startDrop v t
  | sample l ts => exact Laws.RoundTrip.sample l ts
  | ioerrBusy => exact Laws.RoundTrip.ioerrBusy
  | ioerrDrop => exact Laws.RoundTrip.ioerrDrop
  | smpDrop l ts => exact Laws.RoundTrip.smpDrop l ts
  | prFirst l ts => exact Laws.RoundTrip.prFirst l ts
  | prEdge l ts => exact Laws.RoundTrip.prEdge l ts
  | prOverflow l ts => exact Laws.RoundTrip.prOverflow l ts
  | prHold l ts => exact Laws.RoundTrip.prHold l ts
  | prPoll l ts => exact Laws.RoundTrip.prPoll l ts
  | prTimeout l ts => exact Laws.RoundTrip.prTimeout l ts
  | bdByte start => exact Laws.RoundTrip.bdByte start
  | bdShort start => exact Laws.RoundTrip.bdShort start
  | bdErrPolLow => exact Laws.RoundTrip.bdErrPolLow
  | bdErrPolHigh => exact Laws.RoundTrip.bdErrPolHigh
  | bdErrWidth => exact Laws.RoundTrip.bdErrWidth
  | bdBit0 k => exact Laws.RoundTrip.bdBit0 k
  | bdBit1 k => exact Laws.RoundTrip.bdBit1 k
  | fdTrim n => exact Laws.RoundTrip.fdTrim n
  | fdLenErr n => exact Laws.RoundTrip.fdLenErr n
  | fdBytes => exact Laws.RoundTrip.fdBytes
  | fdCsum => exact Laws.RoundTrip.fdCsum
  | fdConvA => exact Laws.RoundTrip.fdConvA
  | fdConvB => exact Laws.RoundTrip.fdConvB
  | fdRange => exact Laws.RoundTrip.fdRange
  | fdCommit => exact Laws.RoundTrip.fdCommit

/-- What a word decodes to is built by a row of the word's format. -/
theorem exists_row_of_decode {w : OpWord} {i : Instr} (h : decode w = .ok i) :
    ∃ r ∈ opcodeTable, r.fmt = w.fmt ∧ i = r.build w.sel w.ops := by
  unfold decode at h
  split at h
  · split at h
    case h_1 r hr =>
      have hfit := List.find?_some hr
      rw [Bool.and_eq_true, beq_iff_eq] at hfit
      exact ⟨r, List.mem_of_find?_eq_some hr, hfit.1, (Except.ok.inj h).symm⟩
    case h_2 => cases h
  · cases h

/-- Outside LEN a row builds an operation that is well formed whatever its operands. -/
theorem build_wf_of_fmt_ne_len (w : Half) (o : Operands) :
    ∀ r ∈ opcodeTable, r.fmt ≠ .len → (r.build w o).wf = true := by
  simp [opcodeTable, controlRows, reconstructorRows, bitByteRows, frameRows, Instr.wf]

/-- Settles O56: the LEN rows split the counts by their legality, and no other row restricts its operation. -/
theorem decodedOperationsAreWellFormed : Obligations.DecodedOperationsAreWellFormed := by
  rintro ⟨fmt, sel, ops⟩ i h
  by_cases hf : fmt = .len
  · subst hf
    obtain rfl := Except.ok.inj ((decode_len sel ops).symm.trans h)
    cases hl : legalLength sel <;> simp [Instr.wf, hl]
  · obtain ⟨r, hr, hfmt, rfl⟩ := exists_row_of_decode h
    exact build_wf_of_fmt_ne_len sel ops r hr (hfmt.trans_ne hf)

/-! ## The rows a word fits -/

/-- What holds of the words of the numbers below `n` holds of every word below `n`. -/
theorem forall_half_lt {P : Half → Prop} {n : Nat} (h : ∀ k < n, P (BitVec.ofNat 16 k)) (w : Half)
    (hw : w.toNat < n) : P w := by
  simpa using h w.toNat hw

/-- A LEN word fits the row of its own count, where there is one, and the last row (R70). -/
theorem length_lenRows (w : Half) : (opcodeTable.filter fun r => r.fmt == .len && r.hits w).length =
    if 82 ≤ w.toNat ∧ w.toNat ≤ 85 then 2 else 1 := by
  have hrows : (opcodeTable.filter fun r => r.fmt == .len && r.hits w) =
      (frameRows.take 5).filter fun r => r.hits w := rfl
  rw [hrows]
  by_cases hw : 82 ≤ w.toNat ∧ w.toNat ≤ 85
  · have hcases : w = 82#16 ∨ w = 83#16 ∨ w = 84#16 ∨ w = 85#16 := by bv_omega
    rcases hcases with rfl | rfl | rfl | rfl <;> decide
  · have hne : w ≠ 82#16 ∧ w ≠ 83#16 ∧ w ≠ 84#16 ∧ w ≠ 85#16 := by bv_omega
    have hall : w &&& 65535#16 = w := BitVec.and_allOnes
    simp [frameRows, Row.hits, hw, hall, hne]

/-- Settles O57: the narrow formats by their words, LEN by whether the count has a row, the strobes by their priority. -/
theorem selectorPatternsAreDisjointAndCover : Obligations.SelectorPatternsAreDisjointAndCover := by
  refine ⟨forall_half_lt ?smp, forall_half_lt ?byte, forall_half_lt ?pair, forall_half_lt ?cmd, forall_half_lt ?cmdb,
    forall_half_lt ?step, length_lenRows, fun p busy => ⟨_, selectCommand_eq p busy⟩⟩
  all_goals decide

/-- Settles O58: each word is a closed computation over the table. -/
theorem wordsFromTheSpecDecode : Obligations.WordsFromTheSpecDecode :=
  ⟨rfl, rfl, rfl, rfl, rfl, rfl, rfl, rfl, rfl, rfl, rfl⟩

/-- Settles O59: a line raises at most one strobe, and the priority of the strobes then picks its command. -/
theorem traceLinesSelectTheirCommands : Obligations.TraceLinesSelectTheirCommands := by
  intro v ms l ts busy
  exact ⟨selectCommand_eq TraceLine.reset.ports busy, selectCommand_eq (TraceLine.start v ms).ports busy,
    selectCommand_eq (TraceLine.s l ts).ports busy, selectCommand_eq TraceLine.ioerr.ports busy,
    selectCommand_eq TraceLine.nop.ports busy⟩

/-! ## BYTE, PAIR and LEN: what is selected, and what it does -/

/-- BD.SHORT raises RangeError (`41_bit_byte_decoder.md` R106). -/
theorem exec_bdShort (start : Half) (s : State) : exec (.bdShort start) s = .next (s.withError .rangeError) := rfl

/-- Settles O24: the BYTE word by the test that does not wrap; a byte decode makes the same test first. -/
theorem tooFewPulsesIsRangeError : Obligations.TooFewPulsesIsRangeError := by
  intro s start
  rw [decode_byteWord, ← Nat.not_lt (a := s.pcount.toNat)]
  refine ⟨exec_bdShort start s, ?_, ?_, fun h => congrArg Flow.outcome (bdByte_of_short h)⟩
  · by_cases h : s.pcount.toNat < start.toNat + 16 <;> simp [h]
  · by_cases h : s.pcount.toNat < start.toNat + 16 <;> simp [h]

/-- The five operations of the PAIR word: three raise ProtocolError, two write their bit. -/
theorem exec_pairOp (s : State) (i : BitVec 3) :
    exec .bdErrPolLow s = .next (s.withError .protocolError) ∧
    exec .bdErrPolHigh s = .next (s.withError .protocolError) ∧
    exec .bdErrWidth s = .next (s.withError .protocolError) ∧
    exec (.bdBit1 i) s = .next (s.withByte (setWireBit s.locals.byte i true)) ∧
    exec (.bdBit0 i) s = .next (s.withByte (setWireBit s.locals.byte i false)) := ⟨rfl, rfl, rfl, rfl, rfl⟩

/-- Settles O27: the selector and the byte decode go through the same checks in the same order. -/
theorem pairSelectorPicksTheFirstFailingCheck : Obligations.PairSelectorPicksTheFirstFailingCheck := by
  intro s start i lo hi hl hh
  obtain ⟨hpolLow, hpolHigh, hwidth, hone, hzero⟩ := exec_pairOp s i
  refine ⟨_, decode_pairWord s.cfg lo hi i, ?_, by simp [gtMax, gtThr]⟩
  rw [bdPair_of_some (lo := lo) (hi := hi) hl hh]
  by_cases h1 : lo.level = true
  · simp [h1, hpolLow]
  by_cases h2 : hi.level = false
  · simp [h1, h2, hpolHigh]
  by_cases h3 : s.cfg.highMaxUs < hi.dur.toNat
  · simp [h1, h2, h3, gtMax, hwidth]
  by_cases h4 : s.cfg.bitThresholdUs < hi.dur.toNat
  · simp [h1, h2, h3, h4, gtMax, gtThr, hone]
  · simp [h1, h2, h3, h4, gtMax, gtThr, hzero]

/-- Settles O28: the LEN word by the legality of the count; the two operations by their writes. -/
theorem lengthDecidesTrimOrFrameLengthError : Obligations.LengthDecidesTrimOrFrameLengthError := by
  intro s n
  refine ⟨fun h => ⟨?_, trimBase n, trimBase_toNat h.1, rfl⟩, fun h => ?_, rfl⟩
  · rw [lenWord, decode_len, if_pos ((legalLength_iff n).2 h)]
  · rw [lenWord, decode_len, if_neg fun hl => ?_]
    have := (legalLength_iff n).1 hl
    omega

end Sys2Proof.Machine
end

section
/-! PROOF. The family of `40_pulse_reconstructor.md`: what each SMP operation does and when a SAMPLE selects it, the end
of a capture by the timeout, and the agreement of `Reconstruct` with the sample steps. -/

namespace Sys2Proof.Machine

/-! ## What a SAMPLE selects (`30_encoding.md` R68), one lemma per operation -/

/-- The operation that answers a sample is what the SMP word decodes to and what SAMPLE runs. -/
theorem selected_of_sampleOp {s : State} {l : Level} {ts : Stamp} {op : Instr} (h : sampleOp s l ts = op) :
    decode (smpWord s l ts) = .ok op ∧ exec (.sample l ts) s = exec op s := by
  subst h
  exact ⟨decode_smpWord s l ts, exec_sample s l ts⟩

section selects
variable {s : State} {l : Level} {ts : Stamp}

theorem sampleOp_of_idle_or_done (h : s.phase = .idle ∨ s.phase = .done) : sampleOp s l ts = .smpDrop l ts := by
  rcases h with h | h <;> simp [sampleOp, h]

theorem sampleOp_of_armed (h : s.phase = .armed) : sampleOp s l ts = .prFirst l ts := by
  simp [sampleOp, h]

theorem sampleOp_of_transition (hp : s.phase = .capture) (hl : l ≠ s.curLevel)
    (hr : s.pcount.toNat + 1 < s.cfg.maxPulses) : sampleOp s l ts = .prEdge l ts := by
  simp [sampleOp, hp, (neq_iff s l).2 hl, full_iff, hr]

theorem sampleOp_of_overflow (hp : s.phase = .capture) (hl : l ≠ s.curLevel)
    (hr : s.cfg.maxPulses ≤ s.pcount.toNat + 1) : sampleOp s l ts = .prOverflow l ts := by
  simp [sampleOp, hp, (neq_iff s l).2 hl, full_iff, hr]

theorem sampleOp_of_hold (hp : s.phase = .capture) (hl : l = s.curLevel) (hn : s.pollCnt + 1 ≠ s.cfg.pollN) :
    sampleOp s l ts = .prHold l ts := by
  simp [sampleOp, hp, neq_iff, hl, pollHit_iff, hn]

theorem sampleOp_of_poll (hp : s.phase = .capture) (hl : l = s.curLevel) (hn : s.pollCnt + 1 = s.cfg.pollN)
    (he : (ts - s.pulseStart).toNat ≤ s.timeoutUsQ.toNat) : sampleOp s l ts = .prPoll l ts := by
  simp [sampleOp, hp, neq_iff, hl, pollHit_iff, hn, expired_iff, -BitVec.toNat_sub, he]

theorem sampleOp_of_timeout (hp : s.phase = .capture) (hl : l = s.curLevel) (hn : s.pollCnt + 1 = s.cfg.pollN)
    (he : s.timeoutUsQ.toNat < (ts - s.pulseStart).toNat) : sampleOp s l ts = .prTimeout l ts := by
  simp [sampleOp, hp, neq_iff, hl, pollHit_iff, hn, (expired_iff s ts).2 he]

end selects

/-! ## The operations that store no pulse (R91, R93, R95, R96, R98) -/

/-- Settles O12: in IDLE and DONE the SMP word selects SMP.DROP, which answers its own state. -/
theorem sampleOutsideACaptureIsDropped : Obligations.SampleOutsideACaptureIsDropped :=
  fun _ _ _ => ⟨rfl, fun h => selected_of_sampleOp (sampleOp_of_idle_or_done h)⟩

/-- Settles O13: ARMED selects PR.FIRST, and both ARMED and CAPTURE are busy. -/
theorem firstSampleOpensPulseZero : Obligations.FirstSampleOpensPulseZero := by
  refine fun s l ts => ⟨rfl, fun hp => ?_⟩
  obtain ⟨hdec, hexec⟩ := selected_of_sampleOp (l := l) (ts := ts) (sampleOp_of_armed hp)
  refine ⟨hdec, hexec, busy_iff.2 (.inl hp), fun t ht => ?_⟩
  cases ht
  exact busy_iff.2 (.inr rfl)

/-- Settles O15: PR.OVERFLOW is the error entry of CapacityError, selected by a transition that finds the memory full. -/
theorem transitionWithoutRoomIsCapacityError : Obligations.TransitionWithoutRoomIsCapacityError := by
  refine fun s l ts => ⟨rfl, fun hp hl hr => ?_, fun t ht => ?_⟩
  · obtain ⟨hdec, hexec⟩ := selected_of_sampleOp (ts := ts) (sampleOp_of_overflow hp hl hr)
    exact ⟨hdec, hexec, busy_iff.2 (.inr hp)⟩
  · cases ht
    exact ⟨rfl, busy_eq_false_iff.2 (.inr rfl), isDone_iff.2 rfl, valid_eq_false_iff.2 (.inr (by simp))⟩

/-- PR.HOLD is selected only short of a check point. -/
theorem pollCnt_succ_ne_of_hold {s : State} {l : Level} {ts : Stamp} (h : sampleOp s l ts = .prHold l ts) :
    s.pollCnt + 1 ≠ s.cfg.pollN := by
  rcases sampleOp_cases s l ts with ⟨-, e⟩ | ⟨-, e⟩ | ⟨-, -, -, e⟩ | ⟨-, -, -, e⟩ | ⟨-, -, hn, e⟩ | ⟨-, -, -, -, e⟩ |
    ⟨-, -, -, -, e⟩ <;> rw [e] at h <;> cases h
  exact hn

/-- Settles O16: every constant-level sample short of a check point selects PR.HOLD; at `POLL_N = 1` every sample with the
count in its range is a check point. -/
theorem holdOnlyCountsTheSample : Obligations.HoldOnlyCountsTheSample := by
  refine fun s l ts => ⟨rfl, fun hp hl hn => selected_of_sampleOp (sampleOp_of_hold hp hl hn), fun hone hrange hdec => ?_⟩
  rw [decode_smpWord] at hdec
  have hn := pollCnt_succ_ne_of_hold (Except.ok.inj hdec)
  omega

/-- Settles O17: a check point at which the timeout has not passed selects PR.POLL. -/
theorem pollAtTheTimeoutGoesOn : Obligations.PollAtTheTimeoutGoesOn :=
  fun _ _ _ => ⟨rfl, fun hp hl hn he => selected_of_sampleOp (sampleOp_of_poll hp hl hn he)⟩

/-! ## A transition (R92) -/

/-- Settles O14: the state after PR.EDGE is `State.edged`, a put at `pcount` with the open pulse's registers rewritten. -/
theorem transitionClosesThePulse : Obligations.TransitionClosesThePulse := by
  intro s l ts hc hr
  refine ⟨s.edged l ts, exec_prEdge l ts hr, Memory.get_put_self _ _ _, fun a ha => Memory.get_put_ne _ _ ha,
    pcount_succ hc hr, rfl, rfl, rfl, rfl, fun hp hl hroom => ?_⟩
  obtain ⟨hdec, hexec⟩ := selected_of_sampleOp (ts := ts) (sampleOp_of_transition hp hl hroom)
  exact ⟨hdec, hexec.trans (exec_prEdge l ts hr)⟩

/-! ## The end by the timeout (R97) -/

/-- A last change to the state is made however the flow ended. -/
theorem Flow.map_outcome {r : Flow} {u : State} (h : r.outcome = .next u) (g : State → State) :
    (r.map g).outcome = .next (g u) := by
  rcases Flow.outcome_eq_next h with rfl | rfl <;> rfl

/-- The result of a flow is the outcome held in its last state. -/
theorem Flow.result_eq_outcome {r : Flow} {u : State} (h : r.outcome = .next u) : r.result = u.outcome := by
  rcases Flow.outcome_eq_next h with rfl | rfl <;> rfl

/-- What is kept of the memory and the count is kept of the list of pulses. -/
theorem Kept.pulses {s t : State} (h : Kept s t) : t.pulses = s.pulses := by
  rw [State.pulses, State.pulses, h.pcount, funext h.pulseAt]

section timeout
variable {s : State} (hc : s.cfg.wf = true) (hr : s.pcount.toNat < s.cfg.maxPulses) (hf : s.Filled)
include hc hr hf

theorem closed_filled : ∀ i, i < s.closed.pcount.toNat → ∃ p, s.closed.pulseAt i = some p :=
  appended_filled s.curLevel s.timeoutUsQ hc hr hf

theorem closed_pulses : s.closed.pulses = s.pulses ++ [⟨s.curLevel, s.timeoutUsQ⟩] :=
  pulses_append hf hc hr rfl fun _ => rfl

/-- PR.TIMEOUT with room answers the last state of the frame decode on the closed pulses, with the values inside the
decode cleared. -/
theorem exists_exec_prTimeout (l : Level) (ts : Stamp) : ∃ u, (frameDecode s.closed).outcome = .next u ∧
    (DecodeOk s.closed u ∨ DecodeFails s.closed u) ∧ exec (.prTimeout l ts) s = .next { u with locals := .zero } := by
  obtain ⟨u, hu⟩ := (frameDecode_runs (closed_filled hc hr hf)).exists_next
  have hends : (frameDecode s.closed).Leads fun t => DecodeOk s.closed t ∨ DecodeFails s.closed t :=
    ((frameDecode_splits s.closed).mono (fun _ => .inl) fun _ => .inr).leads
  refine ⟨u, hu, hends.of_outcome hu, ?_⟩
  rw [exec_prTimeout l ts hr]
  exact Flow.map_outcome hu _

end timeout

/-! ### The frame bytes after a decode, on the list of pulses (`42_frame_decoder.md` R118, `60_exceptions.md` R157) -/

section bytes
variable {s : State} (hf : ∀ i, i < s.pcount.toNat → ∃ p, s.pulseAt i = some p)
include hf

/-- In a filled memory a byte is carried by the entries exactly when it is carried by the list of pulses. -/
theorem carriesByteAt_iff (v : Byte) (a : Nat) : s.CarriesByteAt v a ↔ CarriesByte s.cfg v s.pulses a := by
  simp only [State.CarriesByteAt, CarriesByte, (pulses_getElem? hf).2]

/-- A frame that the pulses carry is in `fb` after the decode. -/
theorem frameDecode_fb_of_carriesFrame {f : FrameBytes} (hl : legalLength s.pcount = true)
    (hcar : CarriesFrame s.cfg f s.pulses (s.pcount.toNat - 82)) : (frameDecode s).Leads fun t => t.fb = f := by
  obtain ⟨⟨hroom, -⟩, hbase⟩ := State.trimmed_there hl hf
  refine frameDecode_fb_of_carries hl hroom fun k => ?_
  rw [hbase]
  exact (carriesByteAt_iff hf _ _).2 (hcar k)

/-- A bad pair in byte `k`, with the bytes before it carried, ends the decode with those in `fb` and the others kept. -/
theorem frameDecode_fb_of_bad_pair {f : FrameBytes} {k : Fin 5} {j : Nat} {lo hi : Pulse}
    (hl : legalLength s.pcount = true) (hj : j < 8)
    (hcar : ∀ m : Fin 5, m < k → CarriesByte s.cfg (f.get m) s.pulses (s.pcount.toNat - 82 + 16 * m.val))
    (hlo : s.pulses[s.pcount.toNat - 82 + 16 * k.val + 2 * j]? = some lo)
    (hhi : s.pulses[s.pcount.toNat - 82 + 16 * k.val + 2 * j + 1]? = some hi) (hbad : BadPair s.cfg lo hi) :
    (frameDecode s).Leads fun t => ∀ m, t.fb.get m = if m < k then f.get m else s.fb.get m := by
  obtain ⟨hthere, hbase⟩ := State.trimmed_there hl hf
  rw [(pulses_getElem? hf).2, ← hbase] at hlo hhi
  obtain ⟨t, ht, hfb⟩ := fdBytes_fb_of_bad_pair (f := f) hthere hj
    (fun m hm => by rw [hbase]; exact (carriesByteAt_iff hf _ _).2 (hcar m hm)) hlo hhi hbad
  rw [frameDecode_of_bytes_ended hl ht]
  exact hfb

end bytes

/-- A decode of an illegal length keeps `fb` (`42_frame_decoder.md` R117). -/
theorem frameDecode_fb_of_illegal {s : State} (h : s.pcount.toNat < 82 ∨ 85 < s.pcount.toNat) :
    (frameDecode s).Leads fun t => t.fb = s.fb := by
  have hl : legalLength s.pcount = false := by
    rw [← Bool.not_eq_true, legalLength_iff]
    omega
  rw [frameDecode_of_illegal hl]
  rfl

/-- Settles O18: the state after PR.TIMEOUT is the last one of the frame decode on the closed pulses, which keeps all but
the phase, the outcome and `fb`; `fb` by the three ways its bytes can go. -/
theorem timeoutStoresTheFinalPulseAndDecodes : Obligations.TimeoutStoresTheFinalPulseAndDecodes := by
  intro s l ts hc hr hf
  obtain ⟨u, hu, hends, hexec⟩ := exists_exec_prTimeout hc hr hf l ts
  have hk : Kept s.closed u := hends.elim DecodeOk.kept DecodeFails.kept
  have hdone : u.phase = .done := hends.elim DecodeOk.phase DecodeFails.phase
  have hfill := closed_filled hc hr hf
  have hmem : u.pulseMem = s.pulseMem.put s.pcount.toNat ⟨s.curLevel, s.timeoutUsQ⟩ := hk.pulseMem
  have hpulses : State.pulses { u with locals := .zero } = s.closed.pulses := hk.pulses
  refine ⟨{ u with locals := .zero }, hexec, hdone, hk.pollCnt,
    (congrArg BitVec.toNat hk.pcount).trans (pcount_succ hc hr), ?_, fun a ha => ?_, hpulses.trans (closed_pulses hc hr hf),
    ?_, busy_eq_false_iff.2 (.inr hdone), isDone_iff.2 hdone, valid_iff.trans (and_iff_right hdone), hk.cfg, hk.variantQ,
    hk.timeoutUsQ, hk.curLevel, hk.pulseStart, hk.inputs,
    ⟨s.closed, u, rfl, hk.pulseMem.symm, rfl, rfl, Flow.outcome_eq_next hu, rfl⟩, ?_, ?_, fun hp hl hn he => ?_⟩
  · exact hmem ▸ Memory.get_put_self _ _ _
  · exact hmem ▸ Memory.get_put_ne _ _ ha
  · rw [hpulses]
    exact (Flow.result_eq_outcome hu).symm.trans (frameDecode_result hfill)
  · intro hlen
    simp only [hk.pcount] at hlen
    have hfb : u.fb = s.fb := (frameDecode_fb_of_illegal hlen).of_outcome hu
    exact hfb
  · intro h82 h85 f
    rw [hpulses]
    simp only [hk.pcount] at h82 h85 ⊢
    have hlegal := (legalLength_iff _).2 ⟨h82, h85⟩
    refine ⟨fun hcar => (frameDecode_fb_of_carriesFrame hfill hlegal hcar).of_outcome hu, ?_⟩
    rintro k j hj hcar ⟨lo, hi, hlo, hhi, hbad⟩
    exact (frameDecode_fb_of_bad_pair hfill hlegal hj hcar hlo hhi hbad).of_outcome hu
  · obtain ⟨hdec, hsame⟩ := selected_of_sampleOp (sampleOp_of_timeout hp hl hn he)
    exact ⟨hdec, hsame.trans hexec⟩

/-! ## `Reconstruct` and the sample steps (R99) -/

/-- A SAMPLE that completes hands its state on to the samples after it. -/
theorem feed_cons {s t : State} {x : Sample} {op : Instr} (hop : sampleOp s x.level x.ts = op)
    (ht : exec op s = .next t) (rest : List Sample) : feed (x :: rest) s = feed rest t := by
  rw [feed, exec_sample, hop, ht]

/-- A capture under way: what the loop of `Reconstruct` needs of the block besides the loop's own variables. -/
structure State.Capturing (s : State) : Prop where
  cfgLegal : s.cfg.wf = true
  phase : s.phase = .capture
  noError : s.errCode = none
  filled : s.Filled
  room : s.pcount.toNat < s.cfg.maxPulses

/-- `Reconstruct`'s loop, its variables read from the registers of the block. -/
def State.reconstructRest (s : State) (samples : List Sample) : Capture :=
  reconstructFrom s.cfg s.timeoutUsQ s.curLevel s.pulseStart s.pollCnt s.pulses samples

/-- The block agrees with a result of `Reconstruct` of a list with at least one sample. -/
def State.AgreesWith (t : State) : Capture → Prop
  | .pending ps => t.pulses = ps ∧ t.pcount.toNat = ps.length ∧ t.errCode = none ∧ t.phase = .capture
  | .ended ps => t.pulses = ps ∧ t.pcount.toNat = ps.length ∧ t.phase = .done ∧ t.errCode ≠ some .capacityError
  | .overflow => t.phase = .done ∧ t.errCode = some .capacityError ∧ t.pcount.toNat + 1 = t.cfg.maxPulses

section capturing
variable {s : State} (h : s.Capturing)
include h

theorem State.Capturing.pulses_length : s.pulses.length = s.pcount.toNat :=
  (pulses_getElem? fun _ hi => State.Filled_pulseAt h.filled hi).1

theorem State.Capturing.withPollCnt (n : Nat) : State.Capturing { s with pollCnt := n } :=
  ⟨h.cfgLegal, h.phase, h.noError, h.filled, h.room⟩

theorem State.Capturing.edged (hr : s.pcount.toNat + 1 < s.cfg.maxPulses) (l : Level) (ts : Stamp) :
    (s.edged l ts).Capturing where
  cfgLegal := h.cfgLegal
  phase := h.phase
  noError := h.noError
  filled := fun i hi =>
    (appended_filled s.curLevel (ts - s.pulseStart) h.cfgLegal h.room h.filled i hi).imp fun _ => State.get_of_pulseAt
  room := (pcount_succ h.cfgLegal h.room).trans_lt hr

theorem State.Capturing.edged_pulses (l : Level) (ts : Stamp) :
    (s.edged l ts).pulses = s.pulses ++ [⟨s.curLevel, ts - s.pulseStart⟩] :=
  pulses_append h.filled h.cfgLegal h.room rfl fun _ => rfl

/-- At the end by the timeout the block holds the pulses `Reconstruct` ends with. -/
theorem State.Capturing.timedOut (l : Level) (ts : Stamp) : ∃ t, exec (.prTimeout l ts) s = .next t ∧
    t.AgreesWith (.ended (s.pulses ++ [⟨s.curLevel, s.timeoutUsQ⟩])) := by
  obtain ⟨u, -, hends, hexec⟩ := exists_exec_prTimeout h.cfgLegal h.room h.filled l ts
  have hk : Kept s.closed u := hends.elim DecodeOk.kept DecodeFails.kept
  refine ⟨_, hexec, hk.pulses.trans (closed_pulses h.cfgLegal h.room h.filled), ?_,
    hends.elim DecodeOk.phase DecodeFails.phase, ?_⟩
  · rw [List.length_append, h.pulses_length]
    exact (congrArg BitVec.toNat hk.pcount).trans (pcount_succ h.cfgLegal h.room)
  · rcases hends with ok | fails
    · simp [ok.errCode]
    · obtain ⟨k, hkind, -, hne⟩ := fails.kind
      simp [hkind, hne]

end capturing

/-- The loop of `Reconstruct` and the sample steps agree from any capture under way, by induction on the samples: each
case of a SAMPLE is the branch of the loop with the same condition. -/
theorem State.Capturing.feed_agrees {s : State} (h : s.Capturing) (samples : List Sample) :
    ∃ t, feed samples s = .next t ∧ t.cfg = s.cfg ∧ t.AgreesWith (s.reconstructRest samples) := by
  induction samples generalizing s with
  | nil => exact ⟨s, rfl, rfl, rfl, h.pulses_length.symm, h.noError, h.phase⟩
  | cons x rest ih =>
    have hlen := h.pulses_length
    unfold State.reconstructRest
    rw [reconstructFrom]
    rcases sampleOp_cases s x.level x.ts with ⟨hp, -⟩ | ⟨hp, -⟩ | ⟨-, hl, hr, e⟩ | ⟨-, hl, hr, e⟩ | ⟨-, hl, hn, e⟩ |
      ⟨-, hl, hn, he, e⟩ | ⟨-, hl, hn, he, e⟩
    · simp [h.phase] at hp
    · simp [h.phase] at hp
    · rw [if_pos (bne_iff_ne.2 hl), if_neg (by omega), feed_cons e (exec_prEdge _ _ h.room), ← h.edged_pulses x.level]
      exact ih (h.edged hr x.level x.ts)
    · rw [if_pos (bne_iff_ne.2 hl), if_pos (by omega), feed_cons e (t := s.withError .capacityError) rfl,
        feed_done rest _ (.inl rfl)]
      exact ⟨_, rfl, rfl, rfl, rfl, le_antisymm h.room hr⟩
    · rw [if_neg (by simp [hl]), if_neg hn, feed_cons e rfl]
      exact ih (h.withPollCnt _)
    · rw [if_neg (by simp [hl]), if_pos hn, if_neg (Nat.not_lt.2 he), feed_cons e rfl]
      exact ih (h.withPollCnt 0)
    · obtain ⟨t, ht, hagrees⟩ := h.timedOut x.level x.ts
      have ⟨_, _, hdone, _⟩ := hagrees
      rw [if_neg (by simp [hl]), if_pos hn, if_pos he, feed_cons e ht, feed_done rest t (.inl hdone)]
      exact ⟨t, rfl, (exec_effect ht).cfg_inputs.1, hagrees⟩

/-- The first sample after a START opens a capture with no pulse closed (R91). -/
theorem started_opened_capturing {s : State} (hc : s.cfg.wf = true) (v : Variant) (ms : Half) (l : Level) (ts : Stamp) :
    ((s.started v ms).opened l ts).Capturing :=
  ⟨hc, rfl, rfl, fun _ hi => absurd hi (Nat.not_lt_zero _), ((Config.wf_iff _).1 hc).1⟩

/-- Settles O20: an empty list leaves the block in ARMED; otherwise the first sample opens the capture from which the loop
and the sample steps agree. -/
theorem reconstructAgreesWithTheSampleSteps : Obligations.ReconstructAgreesWithTheSampleSteps := by
  intro s v ms samples hc
  cases samples with
  | nil =>
    refine ⟨s.started v ms, _, rfl, rfl, fun ps hps => ?_, fun ps hps => ?_, fun hps => ?_⟩
    · cases hps
      exact ⟨rfl, rfl, rfl, rfl⟩
    · cases hps
    · cases hps
  | cons x rest =>
    obtain ⟨t, ht, hcfg, hagrees⟩ := (started_opened_capturing hc v ms x.level x.ts).feed_agrees rest
    have hrec : ((s.started v ms).opened x.level x.ts).reconstructRest rest = reconstruct s.cfg ms (x :: rest) := rfl
    rw [hrec] at hagrees
    refine ⟨s.started v ms, t, rfl, (feed_cons (sampleOp_of_armed rfl) rfl rest).trans ht, fun ps hps => ?_,
      fun ps hps => ?_, fun hps => ?_⟩ <;> rw [hps] at hagrees
    · exact hagrees
    · exact hagrees
    · exact hcfg ▸ hagrees

end Sys2Proof.Machine
end

section
/-! PROOF. The family of `41_bit_byte_decoder.md`: a byte decode whose pairs all carry bits, one that meets a bad pair,
and the operations of one pair. -/

namespace Sys2Proof.Machine

/-! ## One byte (R105, R112, R113) -/

/-- Settles O22: the BYTE word selects BD.BYTE when the pulses are there, and the decode returns the byte they carry. -/
theorem byteDecodeReturnsTheCarriedByte : Obligations.ByteDecodeReturnsTheCarriedByte := by
  intro s start v hp hv
  refine ⟨?_, congrArg Flow.outcome (bdByte_of_carries hp hv)⟩
  rw [decode_byteWord, if_neg (Nat.not_lt.mpr hp)]

/-- Settles O23: the pairs before pair `j` are gone through, and pair `j` ends the decode. -/
theorem firstBadPairRaisesProtocolError : Obligations.FirstBadPairRaisesProtocolError := by
  rintro s start j hp hj hgood ⟨lo, hi, hl, hh, hbad⟩
  obtain ⟨before, after, hsplit, hlt⟩ := bitOrder_split j hj
  have hjn : (BitVec.ofNat 3 j).toNat = j := Nat.mod_eq_of_lt hj
  obtain ⟨b, hb⟩ := bdByte_of_bad_pair (lo := lo) (hi := hi) hp hsplit (fun i hmem => hgood i.toNat (hlt i hmem))
    (by rw [lowIndex, hjn]; exact hl) (by rw [highIndex, hjn]; exact hh) hbad
  exact ⟨b, congrArg Flow.outcome hb⟩

/-! ## The operations of one pair (R107 to R112) -/

/-- Settles O25: the three errors of the PAIR word are one raise. -/
theorem pairErrorsRaiseProtocolError : Obligations.PairErrorsRaiseProtocolError := by
  intro s i hi
  obtain ⟨hpolLow, hpolHigh, hwidth, -⟩ := exec_pairOp s 0
  rcases hi with rfl | rfl | rfl
  · exact hpolLow
  · exact hpolHigh
  · exact hwidth

/-- The bit that `byte[7 - i] <- v` writes. -/
theorem setWireBit_getLsbD_same (b : Byte) (i : BitVec 3) (v : Bool) :
    (setWireBit b i v).getLsbD (7 - i.toNat) = v := by
  rw [setWireBit_getLsbD b i v _ (by omega), if_pos rfl]

/-- The bits that `byte[7 - i] <- v` keeps. -/
theorem setWireBit_getLsbD_of_ne (b : Byte) (i : BitVec 3) (v : Bool) {k : Nat} (hk : k ≠ 7 - i.toNat) :
    (setWireBit b i v).getLsbD k = b.getLsbD k := by
  by_cases h8 : k < 8
  · rw [setWireBit_getLsbD b i v k h8, if_neg hk]
  · rw [BitVec.getLsbD_of_ge _ k (Nat.not_lt.mp h8), BitVec.getLsbD_of_ge _ k (Nat.not_lt.mp h8)]

/-- Settles O26: both operations are `byte[7 - i] <- v`, with `v` 0 and 1. -/
theorem pairBitLandsMostSignificantFirst : Obligations.PairBitLandsMostSignificantFirst := by
  intro s i
  obtain ⟨-, -, -, hone, hzero⟩ := exec_pairOp s i
  exact ⟨_, _, hzero, hone, setWireBit_getLsbD_same _ i false, setWireBit_getLsbD_same _ i true,
    fun k hk => ⟨setWireBit_getLsbD_of_ne _ i false hk, setWireBit_getLsbD_of_ne _ i true hk⟩⟩

end Sys2Proof.Machine
end

section
/-! PROOF. The family of `42_frame_decoder.md`, first part: the operations FD.BYTES, FD.CSUM, FD.CONV_A, FD.CONV_B,
FD.RANGE and FD.COMMIT, each from every state. -/

namespace Sys2Proof.Machine

/-! ## The five bytes (R118) -/

/-- Step 2 on a payload whose five bytes are carried goes on with them in `fb`: four bytes before the last, and the
last, whose decode leaves its byte in the values inside the decode. -/
theorem fdBytes_of_carries {s : State} {f : FrameBytes} (h : s.locals.base.toNat + 80 ≤ s.pcount.toNat)
    (hc : ∀ k : Fin 5, s.CarriesByteAt (f.get k) (s.locals.base.toNat + 16 * k.val)) :
    fdBytes s = .go { s.withByte f.b4 with fb := f } := by
  obtain ⟨fb, b, hfour, hfb⟩ := fdBytes_prefix (f := f) [0, 1, 2, 3] h fun m _ => hc m
  have hlast : fdByte 4 { s.withByte b with fb := fb } = .go { s.withByte f.b4 with fb := fb.set 4 f.b4 } :=
    fdByte_of_carries (s := { s.withByte b with fb := fb }) h (hc 4)
  have hall : fb.set 4 f.b4 = f := by
    refine FrameBytes.ext_get fun m => ?_
    by_cases hm : m = 4
    · subst hm
      exact FrameBytes.get_set_self fb 4 f.b4
    · rw [FrameBytes.get_set_ne _ _ hm, hfb, if_pos (by revert m; decide)]
  have hsplit : byteOrder = [0, 1, 2, 3] ++ [4] := rfl
  rw [fdBytes, hsplit, Flow.each_append, hfour, Flow.go_andThen, Flow.each_cons, hlast, hall]
  rfl

/-- Settles O29: with the eighty pulses carrying five bytes, FD.BYTES goes on with those in `fb`. -/
theorem frameBytesAreTheCarriedBytes : Obligations.FrameBytesAreTheCarriedBytes :=
  fun _ _ hp hc => congrArg Flow.outcome (fdBytes_of_carries hp hc)

/-- A byte whose pairs before a bad one carry bits ends with ProtocolError; what comes after the bad pair plays no part,
and need not hold values. -/
theorem fdByte_of_first_bad_pair {s : State} {k : Fin 5} {j : Nat} {lo hi : Pulse}
    (hp : s.locals.base.toNat + 80 ≤ s.pcount.toNat) (hj : j < 8)
    (hgood : ∀ i, i < j → ∃ b lo hi, s.pulseAt (s.locals.base.toNat + 16 * k.val + 2 * i) = some lo ∧
      s.pulseAt (s.locals.base.toNat + 16 * k.val + 2 * i + 1) = some hi ∧ CarriesBit s.cfg b lo hi)
    (hl : s.pulseAt (s.locals.base.toNat + 16 * k.val + 2 * j) = some lo)
    (hh : s.pulseAt (s.locals.base.toNat + 16 * k.val + 2 * j + 1) = some hi) (hbad : BadPair s.cfg lo hi) :
    ∃ b, fdByte k s = .ended ((s.withByte b).withError .protocolError) := by
  have hstart := byteStart_toNat k hp s.pcount.isLt
  have hk := k.isLt
  obtain ⟨before, after, hsplit, hlt⟩ := bitOrder_split j hj
  have hjn : (BitVec.ofNat 3 j).toNat = j := Nat.mod_eq_of_lt hj
  rw [← hstart] at hgood hl hh
  obtain ⟨b, hb⟩ := bdByte_of_bad_pair (lo := lo) (hi := hi) (by omega) hsplit
    (fun i hmem => hgood i.toNat (hlt i hmem)) (by rw [lowIndex, hjn]; exact hl) (by rw [highIndex, hjn]; exact hh) hbad
  exact ⟨b, by rw [fdByte, hb]; rfl⟩

/-- Settles O30: the bytes before `k` are written one by one, and byte `k` ends the operation before its own write. -/
theorem byteErrorKeepsTheBytesBefore : Obligations.ByteErrorKeepsTheBytesBefore := by
  rintro s f k j hp hj hcar hgood ⟨lo, hi, hl, hh, hbad⟩
  obtain ⟨before, after, hsplit, hmem⟩ := byteOrder_split k
  obtain ⟨fb, b, hgo, hfb⟩ := fdBytes_prefix (f := f) before hp fun m hm => hcar m ((hmem m).1 hm)
  obtain ⟨c, hend⟩ := fdByte_of_first_bad_pair (s := { s.withByte b with fb := fb }) hp hj hgood hl hh hbad
  have hbytes : fdBytes s =
      .ended ((State.withByte { s.withByte b with fb := fb } c).withError .protocolError) := by
    rw [fdBytes, hsplit, Flow.each_append, hgo, Flow.go_andThen, Flow.each_cons, hend, Flow.ended_andThen]
  refine ⟨_, congrArg Flow.outcome hbytes, rfl, rfl, rfl, rfl, fun m => ?_, rfl⟩
  exact (hfb m).trans (if_congr (hmem m) rfl rfl)

/-! ## The checksum (R119) -/

theorem exec_fdCsum (s : State) :
    exec .fdCsum s = .next (if s.fb.b4 = checksum s.fb then s else s.withError .checksumError) := by
  have h : exec .fdCsum s = (fdCsum s).outcome := rfl
  rw [h, fdCsum_eq]
  split <;> rfl

theorem checksum_matches_iff (f : FrameBytes) :
    f.b4 = checksum f ↔ f.b4.toNat = (f.b0.toNat + f.b1.toNat + f.b2.toNat + f.b3.toNat) % 256 := by
  rw [← checksum_toNat, BitVec.toNat_inj]

/-- Each of the five bytes is determined by the other four of a frame whose checksum matches. -/
theorem checksum_ne_of_set {f : FrameBytes} {k : Fin 5} {v : Byte} (h : f.b4 = checksum f) (hv : v ≠ f.get k) :
    (f.set k v).b4 ≠ checksum (f.set k v) := by
  fin_cases k <;> simp only [FrameBytes.set, FrameBytes.get, checksum] at h hv ⊢ <;> bv_omega

/-- From a state without an error FD.CSUM answers its own state only by passing. -/
theorem checksum_matches_of_exec {s : State} (h : exec .fdCsum s = .next s) (he : s.errCode = none) :
    s.fb.b4 = checksum s.fb := by
  by_contra hne
  rw [exec_fdCsum, if_neg hne] at h
  have herr := congrArg State.errCode (Host.Outcome.next.inj h)
  simp [he] at herr

/-- Settles O31: FD.CSUM compares `fb[4]` with the sum modulo 256. -/
theorem checksumIsTheSumModulo256 : Obligations.ChecksumIsTheSumModulo256 := by
  intro s
  rw [exec_fdCsum, Ne, ← checksum_matches_iff]
  exact ⟨fun h => by rw [if_pos h], fun h => by rw [if_neg h]; rfl⟩

/-- Settles O32: the checksum matched before the change, so it does not after it. -/
theorem oneMutatedByteFailsTheChecksum : Obligations.OneMutatedByteFailsTheChecksum := by
  intro s k v hpass herr hv
  rw [exec_fdCsum, if_neg (checksum_ne_of_set (checksum_matches_of_exec hpass herr) hv)]
  rfl

/-! ## The conversions (R120, R121) -/

/-- The operation that converts for a variant (`42_frame_decoder.md` R120, R121). -/
def convertOp : Variant → Instr
  | .a => .fdConvA
  | .b => .fdConvB

/-- The STEP word of step 4, split by the variant (`30_encoding.md` R71). -/
theorem decode_convertWord (v : Variant) : decode (stepWord 4 v) = .ok (convertOp v) := by
  cases v <;> rfl

/-- Settles O33: the products stay below `2^15`. -/
theorem variantAConvertsTwoBytes : Obligations.VariantAConvertsTwoBytes := by
  intro s
  refine ⟨humA s.fb, tempA s.fb, rfl, humA_toNat s.fb, ?_, decode_convertWord .a⟩
  rw [tempA_toInt, Nat.cast_mul, Nat.cast_ofNat]

/-- Settles O34: the magnitude stays below `2^15`, so its negative is exact. -/
theorem variantBConvertsSignAndMagnitude : Obligations.VariantBConvertsSignAndMagnitude := by
  intro s
  refine ⟨humB s.fb, tempB s.fb, rfl, humB_toNat s.fb, ?_, decode_convertWord .b⟩
  rw [tempB_toInt]
  push_cast
  rfl

/-! ## The range and the commit (R122, R124) -/

theorem exec_fdRange (s : State) :
    exec .fdRange s = .next (if 1000 < s.humX10.toNat then s.withError .rangeError else s) := by
  have h : exec .fdRange s = (fdRange s).outcome := rfl
  rw [h, fdRange_eq]
  split <;> rfl

/-- Settles O35: FD.RANGE compares the humidity with 1000 tenths, strictly. -/
theorem humidityAboveHundredIsRangeError : Obligations.HumidityAboveHundredIsRangeError := by
  intro s
  rw [exec_fdRange]
  exact ⟨fun h => by rw [if_neg (Nat.not_lt.2 h)], fun h => by rw [if_pos h]; rfl⟩

/-- Settles O36: the two writes of FD.COMMIT are what `done` and `valid` ask for. -/
theorem commitPublishesTheReading : Obligations.CommitPublishesTheReading := by
  refine fun s => ⟨rfl, fun t ht => ?_⟩
  cases ht
  exact ⟨isDone_iff.2 rfl, valid_iff.2 ⟨rfl, rfl⟩, rfl, rfl⟩

end Sys2Proof.Machine
end

section
/-! PROOF. The family of `42_frame_decoder.md`, second part: the whole decode as its operations run one by one, up to
the one that raises, and a bad pair before the checksum and the range. -/

namespace Sys2Proof.Machine

/-! ## A sequence taken apart -/

theorem Flow.andThen_assoc (r : Flow) (g k : State → Flow) :
    (r.andThen g).andThen k = r.andThen fun t => (g t).andThen k := by
  cases r <;> rfl

/-- Two steps go on when the first does and the second does from there. -/
theorem Flow.andThen_eq_go {r : Flow} {g : State → Flow} {t : State} (h : r.andThen g = .go t) :
    ∃ u, r = .go u ∧ g u = .go t := by
  cases r with
  | go u => exact ⟨u, rfl, h⟩
  | ended u => cases h
  | stop f => cases h

/-- Two steps have ended when the first has, or the second has after it. -/
theorem Flow.andThen_eq_ended {r : Flow} {g : State → Flow} {t : State} (h : r.andThen g = .ended t) :
    r = .ended t ∨ ∃ u, r = .go u ∧ g u = .ended t := by
  cases r with
  | go u => exact .inr ⟨u, rfl, h⟩
  | ended u => exact .inl h
  | stop f => cases h

/-- What is said of the state a flow goes on in. -/
theorem Flow.Splits.of_go {Q P : State → Prop} {r : Flow} {t : State} (h : r.Splits Q P) (ht : r = .go t) : Q t := by
  subst ht
  exact h

/-- What is said of the state a flow has ended in. -/
theorem Flow.Splits.of_ended {Q P : State → Prop} {r : Flow} {t : State} (h : r.Splits Q P) (ht : r = .ended t) :
    P t := by
  subst ht
  exact h

/-! ## The steps of a decode (R116 to R124), by how they end -/

/-- The STEP words that the variant does not split (`30_encoding.md` R71). -/
theorem decode_stepWord (v : Variant) :
    decode (stepWord 2 v) = .ok .fdBytes ∧ decode (stepWord 3 v) = .ok .fdCsum ∧
    decode (stepWord 5 v) = .ok .fdRange ∧ decode (stepWord 6 v) = .ok .fdCommit := by
  cases v <;> exact ⟨rfl, rfl, rfl, rfl⟩

/-- The decode with each step written after the one before it. -/
theorem frameDecode_eq_chain (s : State) :
    frameDecode s = (fdLength s).andThen fun a => (fdBytes a).andThen fun b => (fdCsum b).andThen fun c =>
      (fdConvert c).andThen fun d => (fdRange d).andThen fdCommit := by
  simp only [frameDecode, Flow.andThen_assoc]

theorem fdLength_of_go {s t : State} (h : fdLength s = .go t) :
    legalLength s.pcount = true ∧ t = s.trimmed ∧ decode (lenWord s.pcount) = .ok (.fdTrim s.pcount) ∧
    exec (.fdTrim s.pcount) s = .next t := by
  obtain ⟨hl, rfl⟩ := (fdLength_splits s).of_go h
  exact ⟨hl, rfl, by rw [lenWord, decode_len, if_pos hl], rfl⟩

theorem fdLength_of_ended {s t : State} (h : fdLength s = .ended t) :
    decode (lenWord s.pcount) = .ok (.fdLenErr s.pcount) ∧ exec (.fdLenErr s.pcount) s = .next t ∧
    t.errCode = some .frameLengthError := by
  obtain ⟨hl, rfl⟩ := (fdLength_splits s).of_ended h
  exact ⟨by rw [lenWord, decode_len, if_neg (by simp [hl])], rfl, rfl⟩

/-- A legal length has room for the eighty pulses of its payload (R116). -/
theorem trimmed_room {s : State} (hl : legalLength s.pcount = true) :
    s.trimmed.locals.base.toNat + 80 ≤ s.trimmed.pcount.toNat := by
  obtain ⟨h82, -⟩ := (legalLength_iff _).1 hl
  have hb : s.trimmed.locals.base.toNat = s.pcount.toNat - 82 := trimBase_toNat h82
  have hp : s.trimmed.pcount = s.pcount := rfl
  rw [hb, hp]
  omega

theorem fdCsum_splits (s : State) : (fdCsum s).Splits (fun t => t = s) (fun t => t.errCode = some .checksumError) := by
  rw [fdCsum_eq]
  split <;> rfl

theorem fdRange_splits (s : State) : (fdRange s).Splits (fun t => t = s) (fun t => t.errCode = some .rangeError) := by
  rw [fdRange_eq]
  split <;> rfl

/-- Step 4 is the operation of the latched variant; it raises nothing. -/
theorem fdConvert_goes (s : State) :
    ∃ t, fdConvert s = .go t ∧ exec (convertOp s.variantQ) s = .next t ∧ t.errCode = s.errCode := by
  rw [fdConvert]
  cases s.variantQ with
  | a => exact ⟨_, rfl, rfl, rfl⟩
  | b => exact ⟨_, rfl, rfl, rfl⟩

/-! ## A bad pair comes before the checksum and the range (`60_exceptions.md` R155, item 3) -/

/-- The memory `DecodeFrame` starts from is filled. -/
theorem frameState_filled (c : Config) (v : Variant) {ps : List Pulse} (h : ps.length < 65536) :
    ∀ i, i < (frameState c v ps).pcount.toNat → ∃ p, (frameState c v ps).pulseAt i = some p := by
  intro i hi
  rw [frameState_pcount c v ps h] at hi
  exact ⟨ps[i], by rw [frameState_pulseAt c v ps h, List.getElem?_eq_getElem hi]⟩

/-- A train of 82 to 85 pulses has a legal length, and its payload begins at index `n - 82`. -/
theorem frameState_legal (c : Config) (v : Variant) {ps : List Pulse} (h82 : 82 ≤ ps.length) (h85 : ps.length ≤ 85) :
    legalLength (frameState c v ps).pcount = true ∧
    (frameState c v ps).trimmed.locals.base.toNat = ps.length - 82 := by
  have hp := frameState_pcount c v ps (by omega)
  have hl : legalLength (frameState c v ps).pcount = true := (legalLength_iff _).2 (by omega)
  exact ⟨hl, hp ▸ (State.trimmed_there hl (frameState_filled c v (by omega))).2⟩

/-- A bad pair at any of the forty places of a payload of legal length: pair `j % 8` of byte `j / 8` ends step 2. -/
theorem decodeFrame_of_bad_pair {c : Config} (v : Variant) {ps : List Pulse} {j : Nat} {lo hi : Pulse}
    (h82 : 82 ≤ ps.length) (h85 : ps.length ≤ 85) (hj : j < 40) (hlo : ps[ps.length - 82 + 2 * j]? = some lo)
    (hhi : ps[ps.length - 82 + 2 * j + 1]? = some hi) (hbad : BadPair c lo hi) :
    decodeFrame c v ps = .error .protocolError := by
  obtain ⟨hl, hbase⟩ := frameState_legal c v h82 h85
  have hthere := (State.trimmed_there hl (frameState_filled c v (by omega))).1
  have hindex : ps.length - 82 + 16 * (j / 8) + 2 * (j % 8) = ps.length - 82 + 2 * j := by omega
  have hat : ∀ i, (frameState c v ps).trimmed.pulseAt i = ps[i]? := frameState_pulseAt c v ps (by omega)
  obtain ⟨t, hend, herr⟩ := fdBytes_of_any_bad_pair (s := (frameState c v ps).trimmed) ⟨j / 8, by omega⟩ (j := j % 8)
    hthere (by omega) (by rw [hat, hbase, hindex]; exact hlo) (by rw [hat, hbase, hindex]; exact hhi) hbad
  rw [decodeFrame_eq, frameDecode_of_bytes_ended hl hend]
  simp [Flow.result, State.outcome, herr]

/-- Settles O37: the decode taken apart step by step, from the first; each step that can raise by the kind it raises. -/
theorem frameDecodeIsItsStepsInOrder : Obligations.FrameDecodeIsItsStepsInOrder := by
  refine ⟨fun s t h => ?_, fun s t h => ?_, fun c v ps j lo hi h82 h85 hj => decodeFrame_of_bad_pair v h82 h85 hj⟩
  · obtain ⟨hword2, hword3, hword5, hword6⟩ := decode_stepWord s.variantQ
    rw [frameDecode_eq_chain] at h
    obtain ⟨s1, hlen, hfrom2⟩ := Flow.andThen_eq_go h
    obtain ⟨-, rfl, hword1, htrim⟩ := fdLength_of_go hlen
    obtain ⟨s2, hbytes, hfrom3⟩ := Flow.andThen_eq_go hfrom2
    have hvariant : s2.variantQ = s.variantQ := ((fdBytes_splits _).of_go hbytes).1.variantQ
    obtain ⟨s3, hcsum, hfrom4⟩ := Flow.andThen_eq_go hfrom3
    obtain rfl := (fdCsum_splits s2).of_go hcsum
    obtain ⟨s4, hconv, hop, -⟩ := fdConvert_goes s3
    rw [hconv, Flow.go_andThen] at hfrom4
    obtain ⟨s5, hrange, hcommit⟩ := Flow.andThen_eq_go hfrom4
    exact ⟨_, s3, s3, s4, s5, convertOp s.variantQ, hword1, htrim, hword2, congrArg Flow.outcome hbytes, hword3,
      congrArg Flow.outcome hcsum, decode_convertWord s.variantQ, hvariant ▸ hop, hword5, congrArg Flow.outcome hrange,
      hword6, congrArg Flow.outcome hcommit⟩
  · rw [frameDecode_eq_chain] at h
    rcases Flow.andThen_eq_ended h with hlen | ⟨s1, hlen, hfrom2⟩
    · exact .inl (fdLength_of_ended hlen)
    obtain ⟨hl, rfl, hword1, htrim⟩ := fdLength_of_go hlen
    refine .inr ⟨_, hword1, htrim, ?_⟩
    rcases Flow.andThen_eq_ended hfrom2 with hbytes | ⟨s2, hbytes, hfrom3⟩
    · exact .inl ⟨congrArg Flow.outcome hbytes, (fdBytes_splits_of_room (trimmed_room hl)).of_ended hbytes⟩
    obtain ⟨hkept, -, herr, -, -⟩ := (fdBytes_splits _).of_go hbytes
    have hvariant : s2.variantQ = s.variantQ := hkept.variantQ
    refine .inr ⟨s2, congrArg Flow.outcome hbytes, herr, ?_⟩
    rcases Flow.andThen_eq_ended hfrom3 with hcsum | ⟨s3, hcsum, hfrom4⟩
    · exact .inl ⟨congrArg Flow.outcome hcsum, (fdCsum_splits s2).of_ended hcsum⟩
    obtain rfl := (fdCsum_splits s2).of_go hcsum
    obtain ⟨s4, hconv, hop, herr4⟩ := fdConvert_goes s3
    rw [hconv, Flow.go_andThen] at hfrom4
    rcases Flow.andThen_eq_ended hfrom4 with hrange | ⟨s5, -, hcommit⟩
    · exact .inr ⟨s3, s4, convertOp s.variantQ, congrArg Flow.outcome hcsum, herr, decode_convertWord s.variantQ,
        hvariant ▸ hop, herr4.trans herr, congrArg Flow.outcome hrange, (fdRange_splits s4).of_ended hrange⟩
    · cases hcommit

end Sys2Proof.Machine
end

section
/-! PROOF. The family of `42_frame_decoder.md`, third part: what `DecodeFrame` makes of a train of 82 to 85 pulses. -/

namespace Sys2Proof.Machine

/-! ## A carried frame (R115 to R127) -/

/-- Settles O38: step 2 goes on with the five carried bytes, and the steps after it give their Reading. -/
theorem wellFormedTrainGivesTheReadingItCarries : Obligations.WellFormedTrainGivesTheReadingItCarries := by
  intro c v f ps h82 h85 hcar
  obtain ⟨hl, hbase⟩ := frameState_legal c v h82 h85
  have hat : ∀ i, (frameState c v ps).trimmed.pulseAt i = ps[i]? := frameState_pulseAt c v ps (by omega)
  have hbytes := fdBytes_of_carries (s := (frameState c v ps).trimmed) (f := f) (trimmed_room hl) fun k => by
    simp only [State.CarriesByteAt, hat, hbase]
    exact hcar k
  rw [decodeFrame_eq, frameDecode_eq_tail, fdLength_of_legal hl, Flow.go_andThen, hbytes, Flow.go_andThen]
  exact frameTail_reading _

/-! ## What is not looked at (R127) -/

/-- Settles O39: both decodes begin at their own `n - 82`, and from there the payloads agree in all that is looked
at. -/
theorem preambleTailAndLowDurationsAreNotLookedAt : Obligations.PreambleTailAndLowDurationsAreNotLookedAt := by
  intro c v ps qs hp82 hp85 hq82 hq85 hsame
  obtain ⟨hpl, hpbase⟩ := frameState_legal c v hp82 hp85
  obtain ⟨hql, hqbase⟩ := frameState_legal c v hq82 hq85
  have hpat : ∀ i, (frameState c v ps).trimmed.pulseAt i = ps[i]? := frameState_pulseAt c v ps (by omega)
  have hqat : ∀ i, (frameState c v qs).trimmed.pulseAt i = qs[i]? := frameState_pulseAt c v qs (by omega)
  rw [decodeFrame_eq, decodeFrame_eq]
  refine frameDecode_same hpl hql rfl ⟨rfl, trimmed_room hpl, trimmed_room hql, fun i hi => ?_⟩
  have hp : ps[ps.length - 82 + i]? = some ps[ps.length - 82 + i] := List.getElem?_eq_getElem (by omega)
  have hq : qs[qs.length - 82 + i]? = some qs[qs.length - 82 + i] := List.getElem?_eq_getElem (by omega)
  exact ⟨_, _, by rw [hpat, hpbase, hp], by rw [hqat, hqbase, hq], hsame i _ _ hi hp hq⟩

/-! ## Alternating levels (R128) -/

/-- In a list of alternating levels the level `i` places on is flipped `i` times. -/
theorem level_of_alternating {ps : List Pulse}
    (halt : ∀ i p q, ps[i]? = some p → ps[i + 1]? = some q → p.level ≠ q.level)
    {a i : Nat} {p q : Pulse} (hp : ps[a]? = some p) (hq : ps[a + i]? = some q) :
    q.level = (p.level != decide (i % 2 = 1)) := by
  induction i generalizing q with
  | zero =>
    obtain rfl := Option.some.inj (hp.symm.trans hq)
    simp
  | succ i ih =>
    obtain ⟨hlt, -⟩ := List.getElem?_eq_some_iff.1 hq
    have hr : ps[a + i]? = some ps[a + i] := List.getElem?_eq_getElem (by omega)
    have hflip : decide ((i + 1) % 2 = 1) = !decide (i % 2 = 1) := by
      rw [← decide_not, decide_eq_decide]
      omega
    rw [Bool.eq_not_of_ne (halt (a + i) _ q hr hq).symm, ih hr, hflip, Bool.bne_not]

/-- A byte with the given bits, the first of them the most significant (`30_encoding.md` R75). -/
theorem exists_byte_of_bits (bits : Nat → Bool) : ∃ v : Byte, ∀ i, i < 8 → v.getLsbD (7 - i) = bits i := by
  refine ⟨BitVec.ofFnLE fun j : Fin 8 => bits (7 - j.val), fun i hi => ?_⟩
  have h7 : 7 - (7 - i) = i := by omega
  rw [BitVec.getLsbD_eq_getElem (by omega), BitVec.getElem_ofFnLE, h7]

/-- Forty pairs that each carry some bit carry a frame (`30_encoding.md` R74 to R76). -/
theorem exists_carriesFrame {c : Config} {ps : List Pulse} {base : Nat}
    (h : ∀ j, j < 40 → ∃ b lo hi, ps[base + 2 * j]? = some lo ∧ ps[base + 2 * j + 1]? = some hi ∧
      CarriesBit c b lo hi) :
    ∃ f, CarriesFrame c f ps base := by
  have hbyte : ∀ k : Fin 5, ∃ v, CarriesByte c v ps (base + 16 * k.val) := by
    intro k
    have hk := k.isLt
    have hpair : ∀ i, ∃ b, i < 8 → ∃ lo hi, ps[base + 16 * k.val + 2 * i]? = some lo ∧
        ps[base + 16 * k.val + 2 * i + 1]? = some hi ∧ CarriesBit c b lo hi := by
      intro i
      by_cases hi8 : i < 8
      · obtain ⟨b, hb⟩ := h (8 * k.val + i) (by omega)
        have hindex : base + 2 * (8 * k.val + i) = base + 16 * k.val + 2 * i := by omega
        exact ⟨b, fun _ => hindex ▸ hb⟩
      · exact ⟨false, fun h8 => absurd h8 hi8⟩
    choose bits hbits using hpair
    obtain ⟨v, hv⟩ := exists_byte_of_bits bits
    exact ⟨v, fun i hi => hv i hi ▸ hbits i hi⟩
  choose bytes hbytes using hbyte
  refine ⟨⟨bytes 0, bytes 1, bytes 2, bytes 3, bytes 4⟩, fun k => ?_⟩
  have hget : FrameBytes.get ⟨bytes 0, bytes 1, bytes 2, bytes 3, bytes 4⟩ k = bytes k := by
    fin_cases k <;> rfl
  exact hget ▸ hbytes k

/-- Five bytes never stand for a ProtocolError (`42_frame_decoder.md` R119, R122). -/
theorem readingOf_ne_protocolError (v : Variant) (f : FrameBytes) : readingOf v f ≠ .error .protocolError := by
  intro h
  unfold readingOf at h
  dsimp only at h
  cases v <;> split_ifs at h <;> cases h

/-- A pair of low and high level whose high pulse is not too long carries the bit of the threshold. -/
theorem carriesBit_of_levels {c : Config} {lo hi : Pulse} (hlo : lo.level = false) (hhi : hi.level = true)
    (hmax : hi.dur.toNat ≤ c.highMaxUs) : CarriesBit c (decide (c.bitThresholdUs < hi.dur.toNat)) lo hi :=
  ⟨hlo, hhi, hmax, decide_eq_true_iff⟩

/-- Settles O41: with the first payload pulse high its pair is bad; with it low every even pulse is low and every odd
one high, so where none of those is too long the payload carries a frame. -/
theorem alternatingTrainFailsPolarityOnlyAtItsFirstPair :
    Obligations.AlternatingTrainFailsPolarityOnlyAtItsFirstPair := by
  intro c v ps first h82 h85 halt hfirst
  have hget : ∀ i, i < 82 → ∃ p, ps[ps.length - 82 + i]? = some p := fun i hi =>
    ⟨_, List.getElem?_eq_getElem (by omega)⟩
  refine ⟨fun hhigh => ?_, fun hlow hmax => ?_⟩
  · obtain ⟨second, hsecond⟩ := hget 1 (by omega)
    exact decodeFrame_of_bad_pair v h82 h85 (j := 0) (by omega) hfirst hsecond (.inl hhigh)
  · obtain ⟨f, hcar⟩ : ∃ f, CarriesFrame c f ps (ps.length - 82) := by
      refine exists_carriesFrame fun j hj => ?_
      obtain ⟨lo, hlo⟩ := hget (2 * j) (by omega)
      obtain ⟨hi, hhi⟩ := hget (2 * j + 1) (by omega)
      have heven : ¬2 * j % 2 = 1 := by omega
      have hodd : (2 * j + 1) % 2 = 1 := by omega
      have hlolevel := level_of_alternating halt hfirst hlo
      have hhilevel := level_of_alternating halt hfirst hhi
      rw [hlow, decide_eq_false heven] at hlolevel
      rw [hlow, decide_eq_true hodd] at hhilevel
      exact ⟨_, lo, hi, hlo, hhi,
        carriesBit_of_levels hlolevel hhilevel (hmax (2 * j + 1) hi (by omega) hodd hhi)⟩
    intro herr
    have hreading := wellFormedTrainGivesTheReadingItCarries c v f ps h82 h85 hcar
    rw [herr] at hreading
    exact readingOf_ne_protocolError v f (Option.some.inj hreading).symm

end Sys2Proof.Machine
end

section
/-! PROOF. The family of `42_frame_decoder.md`, fourth part: one acquisition on the block (R126,
`43_control_ops.md` R139). -/

namespace Sys2Proof.Machine

/-! ## What every sample of an acquisition keeps -/

/-- What holds of the block throughout an acquisition with the parameters `c` and the variant `v`: as long as it has not
ended, the closed pulses are in the memory and there is room for one more; once it has, the block holds CapacityError or
what `DecodeFrame` gives for its pulses. -/
structure State.Acquires (c : Config) (v : Variant) (s : State) : Prop where
  cfg : s.cfg = c
  variantQ : s.variantQ = v
  running : s.phase ≠ .done → s.Filled ∧ s.pcount.toNat < s.cfg.maxPulses
  ended : s.phase = .done → s.errCode = some .capacityError ∨ s.outcome = decodeFrame c v s.pulses

/-- What every sample keeps holds after all of them. -/
theorem feed_keeps {P : State → Prop} (hstep : ∀ s t l ts, P s → exec (.sample l ts) s = .next t → P t)
    (samples : List Sample) {s t : State} (hs : P s) (ht : feed samples s = .next t) : P t := by
  induction samples generalizing s with
  | nil => cases ht; exact hs
  | cons x rest ih =>
    rw [feed] at ht
    cases hx : exec (.sample x.level x.ts) s with
    | next u => rw [hx] at ht; exact ih (hstep s u x.level x.ts hs hx) ht
    | fault f => rw [hx] at ht; cases ht
    | refused r => rw [hx] at ht; cases ht

/-- START.GO begins an acquisition (`43_control_ops.md` R133). -/
theorem started_acquires {s : State} (hc : s.cfg.wf = true) (v : Variant) (ms : Half) :
    (s.started v ms).Acquires s.cfg v where
  cfg := rfl
  variantQ := rfl
  running := fun _ => ⟨fun _ hi => absurd hi (Nat.not_lt_zero _), ((Config.wf_iff _).1 hc).1⟩
  ended := fun h => by cases h

section acquires
variable {c : Config} {v : Variant} {s t : State} (h : s.Acquires c v)
include h

/-- A sample that is kept out of the memory leaves a running acquisition running (`40_pulse_reconstructor.md` R91, R95,
R96). -/
theorem State.Acquires.of_kept_pulses (hp : s.phase ≠ .done) (hp' : t.phase ≠ .done) (hcfg : t.cfg = s.cfg)
    (hvar : t.variantQ = s.variantQ) (hmem : t.pulseMem = s.pulseMem) (hcount : t.pcount = s.pcount) :
    t.Acquires c v where
  cfg := hcfg.trans h.cfg
  variantQ := hvar.trans h.variantQ
  running := fun _ => by
    simpa only [State.Filled, hcfg, hmem, hcount] using h.running hp
  ended := fun hd => absurd hd hp'

/-- A transition that fits (`40_pulse_reconstructor.md` R92). -/
theorem State.Acquires.edged (hc : c.wf = true) (hp : s.phase = .capture) (hr : s.pcount.toNat + 1 < s.cfg.maxPulses)
    (l : Level) (ts : Stamp) : (s.edged l ts).Acquires c v := by
  have hwf : s.cfg.wf = true := h.cfg ▸ hc
  obtain ⟨hfilled, hroom⟩ := h.running (by simp [hp])
  have hp' : (s.edged l ts).phase ≠ .done := by
    show s.phase ≠ .done
    simp [hp]
  exact ⟨h.cfg, h.variantQ,
    fun _ => ⟨fun i hi => (appended_filled _ _ hwf hroom hfilled i hi).imp fun _ => State.get_of_pulseAt,
      (pcount_succ hwf hroom).trans_lt hr⟩,
    fun hd => absurd hd hp'⟩

/-- The end by the timeout leaves what `DecodeFrame` gives for the pulses (`40_pulse_reconstructor.md` R97). -/
theorem State.Acquires.timedOut (hc : c.wf = true) (hp : s.phase = .capture) {l : Level} {ts : Stamp}
    (ht : exec (.prTimeout l ts) s = .next t) : t.Acquires c v := by
  have hwf : s.cfg.wf = true := h.cfg ▸ hc
  obtain ⟨hfilled, hroom⟩ := h.running (by simp [hp])
  obtain ⟨u, hu, hends, hexec⟩ := exists_exec_prTimeout hwf hroom hfilled l ts
  obtain rfl := Host.Outcome.next.inj (hexec.symm.trans ht)
  have hk : Kept s.closed u := hends.elim DecodeOk.kept DecodeFails.kept
  have hdone : u.phase = .done := hends.elim DecodeOk.phase DecodeFails.phase
  have hpulses : State.pulses { u with locals := .zero } = s.closed.pulses := hk.pulses
  refine ⟨hk.cfg.trans h.cfg, hk.variantQ.trans h.variantQ, fun hn => absurd hdone hn, fun _ => .inr ?_⟩
  rw [hpulses, ← h.cfg, ← h.variantQ]
  exact (Flow.result_eq_outcome hu).symm.trans (frameDecode_result (closed_filled hwf hroom hfilled))

/-- A SAMPLE keeps it, in each of its seven cases (`43_control_ops.md` R135). -/
theorem State.Acquires.sample (hc : c.wf = true) {l : Level} {ts : Stamp} (ht : exec (.sample l ts) s = .next t) :
    t.Acquires c v := by
  rw [exec_sample] at ht
  rcases sampleOp_cases s l ts with ⟨-, e⟩ | ⟨hp, e⟩ | ⟨hp, -, hr, e⟩ | ⟨-, -, -, e⟩ | ⟨hp, -, -, e⟩ |
    ⟨hp, -, -, -, e⟩ | ⟨hp, -, -, -, e⟩ <;> rw [e] at ht
  · cases ht; exact h
  · cases ht; exact h.of_kept_pulses (by simp [hp]) (by simp) rfl rfl rfl rfl
  · rw [exec_prEdge l ts (by omega)] at ht
    cases ht; exact h.edged hc hp hr l ts
  · cases ht; exact ⟨h.cfg, h.variantQ, fun hn => absurd rfl hn, fun _ => .inl rfl⟩
  · cases ht; exact h.of_kept_pulses (by simp [hp]) (by simp [hp]) rfl rfl rfl rfl
  · cases ht; exact h.of_kept_pulses (by simp [hp]) (by simp [hp]) rfl rfl rfl rfl
  · exact h.timedOut hc hp ht

end acquires

/-! ## One acquisition -/

/-- The block and the composition of `Reconstruct` and `DecodeFrame`: both have no outcome yet, or both have the
same. -/
theorem acquisition_cases {s t : State} {v : Variant} {ms : Half} {samples : List Sample} (hc : s.cfg.wf = true)
    (ht : feed samples (s.started v ms) = .next t) :
    (acquisition s.cfg v ms samples = none ∧ (t.phase = .armed ∨ t.phase = .capture)) ∨
    (acquisition s.cfg v ms samples = some t.outcome ∧ t.phase = .done) := by
  obtain ⟨s0, t', hs0, ht', hpending, hended, hoverflow⟩ := reconstructAgreesWithTheSampleSteps s v ms samples hc
  obtain rfl : s.started v ms = s0 := Host.Outcome.next.inj hs0
  obtain rfl := Host.Outcome.next.inj (ht.symm.trans ht')
  have hacq : t.Acquires s.cfg v :=
    feed_keeps (fun _ _ _ _ h => h.sample hc) samples (started_acquires hc v ms) ht
  rw [acquisition]
  cases hrec : reconstruct s.cfg ms samples with
  | pending ps =>
    obtain ⟨-, -, -, hphase⟩ := hpending ps hrec
    exact .inl ⟨rfl, (ite_eq_or_eq _ _ _).imp hphase.trans hphase.trans⟩
  | ended ps =>
    obtain ⟨rfl, -, hdone, hne⟩ := hended ps hrec
    exact .inr ⟨congrArg some ((hacq.ended hdone).resolve_left hne).symm, hdone⟩
  | overflow =>
    obtain ⟨hdone, herr, -⟩ := hoverflow hrec
    exact .inr ⟨by simp [State.outcome, herr], hdone⟩

/-- Settles O21: without an outcome the block is busy, with one it is done and holds it. -/
theorem acquisitionIsReconstructThenDecodeFrame : Obligations.AcquisitionIsReconstructThenDecodeFrame := by
  intro s v ms samples hc
  obtain ⟨s0, t, hs0, ht, -⟩ := reconstructAgreesWithTheSampleSteps s v ms samples hc
  obtain rfl : s.started v ms = s0 := Host.Outcome.next.inj hs0
  refine ⟨s.started v ms, t, rfl, ht, ?_⟩
  rw [busy_iff, isDone_iff]
  rcases acquisition_cases hc ht with ⟨hnone, hbusy⟩ | ⟨hsome, hdone⟩
  · have hnotdone : t.phase ≠ .done := by rcases hbusy with hp | hp <;> simp [hp]
    simp [hnone, hbusy, hnotdone]
  · simp [hsome, hdone]

end Sys2Proof.Machine
end

section
/-! PROOF. The family of `43_control_ops.md`: one command at a clock edge, what each host command does, the operation a
SAMPLE performs, the transitions of `phase`, and that a step completes under the invariants. -/

namespace Sys2Proof.Machine

/-! ## A step and the operation it runs (R130) -/

/-- A step is the operation of the next input, on the state with that input used up. -/
theorem step_of_fetch {s : State} {i : Instr} (h : fetch s = .ok i) : step s = exec i s.consume := by
  simp only [step, h]

/-- Settles O8: the selectors CMD and CMDB make the priority. -/
theorem oneCommandPerEdgeByPriority : Obligations.OneCommandPerEdgeByPriority :=
  fun _ _ _ h => step_clock h

/-- Settles O9: each of the three kinds of next input is one case of `fetch`. -/
theorem stepRunsTheDecodedOperation : Obligations.StepRunsTheDecodedOperation := by
  refine ⟨fun s p rest i hin hsel => ?_, fun s w rest i hin hdec => ?_, fun s hin => step_nil hin,
    fun s w rest e hin hdec => ?_⟩
  · rw [← consume_of_cons hin]
    exact step_of_fetch (by rw [fetch, hin]; exact hsel)
  · rw [step_alone hin, hdec]
  · rw [step_alone hin, hdec]

/-! ## The host commands (R131 to R137) -/

/-- Settles O2: RESET stands first in the priority, and what can be read after it is that of every reset state. -/
theorem resetIsAcceptedInEveryPhase : Obligations.ResetIsAcceptedInEveryPhase := by
  refine fun s => ⟨rfl, fun p rest hin hrst => by rw [step_clock hin, if_pos hrst], fun t ht => ?_⟩
  obtain ⟨-, -, -, -, -, -, -, -, -, -, -, hviews⟩ := resetPutsEveryRegisterAtItsTableValue t (.inr (.inr ⟨s, ht⟩))
  cases ht
  exact ⟨rfl, hviews⟩

/-- Settles O3: with no strobe up the command is NOP. -/
theorem edgeWithoutStrobeChangesNothing : Obligations.EdgeWithoutStrobeChangesNothing := by
  refine fun s => ⟨rfl, fun p rest hin hrst hio hst hsv => ?_⟩
  rw [step_clock hin]
  simp only [hrst, hio, hst, hsv, Bool.false_eq_true, if_false]
  rfl

/-- `timeout_ms * 1000` does not overflow (`00_scope.md` R15). -/
theorem timeoutUs_toNat (ms : Half) : (timeoutUs ms).toNat = ms.toNat * 1000 := by
  have := ms.isLt
  simp only [timeoutUs, BitVec.toNat_mul, BitVec.toNat_setWidth, BitVec.ofNat_eq_ofNat, BitVec.toNat_ofNat]
  omega

/-- Settles O4: IDLE and DONE are not busy, so a START is START.GO; the state after it is `State.started`. -/
theorem startBeginsAFreshAcquisition : Obligations.StartBeginsAFreshAcquisition := by
  refine fun s v ms => ⟨timeoutUs ms, timeoutUs_toNat ms, rfl, ?_, fun t ht => ?_⟩
  · rintro p rest hin hrst hio hst rfl rfl hp
    rw [step_clock hin]
    simp only [hrst, hio, hst, busy_eq_false_iff.2 hp, Bool.false_eq_true, if_false, if_true]
  · cases ht
    have hd : (s.started v ms).phase ≠ .done := by simp [State.started]
    exact ⟨pulseAt_of_pcount_zero rfl, busy_iff.2 (.inl rfl), isDone_eq_false_iff.2 hd, valid_eq_false_iff.2 (.inl hd)⟩

/-- Settles O5: ARMED and CAPTURE are busy, so a START is START.DROP. -/
theorem startWhileBusyIsDropped : Obligations.StartWhileBusyIsDropped := by
  refine fun s v ms => ⟨rfl, fun p rest hin hrst hio hst hp => ?_⟩
  rw [step_clock hin]
  simp only [hrst, hio, hst, busy_iff.2 hp, Bool.false_eq_true, if_false, if_true]
  rfl

/-- Settles O6: ARMED and CAPTURE are busy, so an `io_err` is IOERR.BUSY, the error entry of IoError. -/
theorem ioErrorEndsTheAcquisition : Obligations.IoErrorEndsTheAcquisition := by
  refine fun s => ⟨rfl, fun p rest hin hrst hio hp => ?_, fun t ht => ?_⟩
  · rw [step_clock hin]
    simp only [hrst, hio, busy_iff.2 hp, Bool.false_eq_true, if_false, if_true]
  · cases ht
    exact ⟨rfl, busy_eq_false_iff.2 (.inr rfl), isDone_iff.2 rfl, valid_eq_false_iff.2 (.inr (by simp))⟩

/-- Settles O7: IDLE and DONE are not busy, so an `io_err` is IOERR.DROP. -/
theorem ioErrorOutsideAnAcquisitionIsDropped : Obligations.IoErrorOutsideAnAcquisitionIsDropped := by
  refine fun s => ⟨rfl, fun p rest hin hrst hio hp => ?_⟩
  rw [step_clock hin]
  simp only [hrst, hio, busy_eq_false_iff.2 hp, Bool.false_eq_true, if_false, if_true]
  rfl

/-! ## SAMPLE (R135) -/

/-- A clock edge with `s_valid` up and no strobe before it in the priority runs SAMPLE. -/
theorem step_sample {s : State} {p : Ports} {rest : List Input} (hin : s.inputs = .clock p :: rest)
    (hrst : p.rst = false) (hio : p.ioErr = false) (hst : p.start = false) (hsv : p.sValid = true) :
    step s = exec (.sample p.sLevel p.sTs) { s with inputs := rest } := by
  rw [step_clock hin]
  simp only [hrst, hio, hst, hsv, Bool.false_eq_true, if_false, if_true]

/-- The inputs still to come play no part in the operation a SAMPLE performs. -/
theorem sampleOp_withInputs (s : State) (l : Level) (ts : Stamp) (rest : List Input) :
    sampleOp { s with inputs := rest } l ts = sampleOp s l ts := rfl

/-- The condition listed for each operation of the SMP selector (`30_encoding.md` R68); no other operation is
selected. -/
def SmpCondition (s : State) (l : Level) (ts : Stamp) : Instr → Prop
  | .smpDrop _ _ => s.phase = .idle ∨ s.phase = .done
  | .prFirst _ _ => s.phase = .armed
  | .prEdge _ _ => s.phase = .capture ∧ l ≠ s.curLevel ∧ s.pcount.toNat + 1 < s.cfg.maxPulses
  | .prOverflow _ _ => s.phase = .capture ∧ l ≠ s.curLevel ∧ s.cfg.maxPulses ≤ s.pcount.toNat + 1
  | .prHold _ _ => s.phase = .capture ∧ l = s.curLevel ∧ s.pollCnt + 1 ≠ s.cfg.pollN
  | .prPoll _ _ => s.phase = .capture ∧ l = s.curLevel ∧ s.pollCnt + 1 = s.cfg.pollN ∧
      (ts - s.pulseStart).toNat ≤ s.timeoutUsQ.toNat
  | .prTimeout _ _ => s.phase = .capture ∧ l = s.curLevel ∧ s.pollCnt + 1 = s.cfg.pollN ∧
      s.timeoutUsQ.toNat < (ts - s.pulseStart).toNat
  | _ => False

/-- The operation selected meets its own condition. -/
theorem smpCondition_sampleOp (s : State) (l : Level) (ts : Stamp) : SmpCondition s l ts (sampleOp s l ts) := by
  rcases sampleOp_cases s l ts with ⟨hp, e⟩ | ⟨hp, e⟩ | ⟨hp, hl, hr, e⟩ | ⟨hp, hl, hr, e⟩ | ⟨hp, hl, hn, e⟩ |
    ⟨hp, hl, hn, he, e⟩ | ⟨hp, hl, hn, he, e⟩ <;> rw [e]
  · exact hp
  · exact hp
  · exact ⟨hp, hl, hr⟩
  · exact ⟨hp, hl, hr⟩
  · exact ⟨hp, hl, hn⟩
  · exact ⟨hp, hl, hn, he⟩
  · exact ⟨hp, hl, hn, he⟩

/-- Settles O10: the operation selected meets its condition, and each condition selects its operation. -/
theorem samplePerformsTheSelectedOperation : Obligations.SamplePerformsTheSelectedOperation := by
  intro s l ts
  have hcond {op : Instr} (h : sampleOp s l ts = op) : SmpCondition s l ts op := h ▸ smpCondition_sampleOp s l ts
  refine ⟨sampleOp s l ts, decode_smpWord s l ts, exec_sample s l ts, ?_, ⟨hcond, sampleOp_of_idle_or_done⟩,
    ⟨hcond, sampleOp_of_armed⟩, ⟨hcond, fun ⟨hp, hl, hr⟩ => sampleOp_of_transition hp hl hr⟩,
    ⟨hcond, fun ⟨hp, hl, hr⟩ => sampleOp_of_overflow hp hl hr⟩,
    ⟨hcond, fun ⟨hp, hl, hn⟩ => sampleOp_of_hold hp hl hn⟩,
    ⟨hcond, fun ⟨hp, hl, hn, he⟩ => sampleOp_of_poll hp hl hn he⟩,
    ⟨hcond, fun ⟨hp, hl, hn, he⟩ => sampleOp_of_timeout hp hl hn he⟩⟩
  rintro p rest hin hrst hio hst hsv rfl rfl
  rw [step_sample hin hrst hio hst hsv, exec_sample, sampleOp_withInputs]

/-- A SAMPLE completes where a capture has room and its closed pulses in the memory: only PR.EDGE and PR.TIMEOUT can
stop, and both want just that. -/
theorem exists_exec_sample {s : State} (l : Level) (ts : Stamp)
    (h : s.phase = .capture → s.cfg.wf = true ∧ s.pcount.toNat < s.cfg.maxPulses ∧ s.Filled) :
    ∃ t, exec (.sample l ts) s = .next t := by
  rw [exec_sample]
  rcases sampleOp_cases s l ts with ⟨-, e⟩ | ⟨-, e⟩ | ⟨hp, -, -, e⟩ | ⟨-, -, -, e⟩ | ⟨-, -, -, e⟩ | ⟨-, -, -, -, e⟩ |
    ⟨hp, -, -, -, e⟩ <;> rw [e]
  · exact ⟨_, rfl⟩
  · exact ⟨_, rfl⟩
  · exact ⟨_, exec_prEdge l ts (h hp).2.1⟩
  · exact ⟨_, rfl⟩
  · exact ⟨_, rfl⟩
  · exact ⟨_, rfl⟩
  · obtain ⟨hc, hr, hf⟩ := h hp
    exact exec_prTimeout_runs l ts hc hr hf

/-- Settles O11: SAMPLE completes, and it is the operation the SMP word decodes to. -/
theorem sampleAlwaysCompletes : Obligations.SampleAlwaysCompletes := by
  intro s l ts h
  obtain ⟨t, ht⟩ := exists_exec_sample l ts h
  exact ⟨sampleOp s l ts, t, decode_smpWord s l ts, (exec_sample s l ts).symm.trans ht, ht⟩

/-! ## Every step completes under the invariants -/

/-- NOP and the two commands that drop their strobe answer their own state (R132, R134, R137). -/
theorem exec_of_dropped {i : Instr} (h : i = .nop ∨ i = .ioerrDrop ∨ ∃ v ms, i = .startDrop v ms) (s : State) :
    exec i s = .next s := by
  rcases h with rfl | rfl | ⟨v, ms, rfl⟩ <;> rfl

/-- Settles O53: with clock edges only a step runs one of the seven host commands; of these only SAMPLE can stop, and
the invariants give it the room and the pulses it needs. -/
theorem everyStepCompletesUnderTheInvariants : Obligations.EveryStepCompletesUnderTheInvariants := by
  intro s h
  obtain ⟨i, hi, hcases⟩ := fetch_clock h.clockOnly
  rw [step_of_fetch hi]
  rcases hcases with rfl | ⟨v, ms, rfl, -⟩ | ⟨l, ts, rfl⟩ | ⟨rfl, -⟩ | hdropped
  · exact ⟨_, rfl⟩
  · exact ⟨_, rfl⟩
  · exact exists_exec_sample l ts fun hp => ⟨h.cfgLegal, h.captureRoom hp, h.filled⟩
  · exact ⟨_, rfl⟩
  · exact ⟨_, exec_of_dropped hdropped _⟩

/-! ## The transitions of `phase` (R138) -/

/-- A frame decode ends neither in IoError nor in CapacityError (`60_exceptions.md` R146). -/
theorem errCode_of_decoded {s u : State} (h : DecodeOk s u ∨ DecodeFails s u) :
    u.errCode ≠ some .ioError ∧ u.errCode ≠ some .capacityError := by
  rcases h with ok | fails
  · simp [ok.errCode]
  · obtain ⟨k, hk, hio, hcap⟩ := fails.kind
    simp [hk, hio, hcap]

/-- PR.TIMEOUT that completes had room for the final pulse, and ends in DONE as its frame decode does
(`40_pulse_reconstructor.md` R97). -/
theorem done_of_exec_prTimeout {s t : State} {l : Level} {ts : Stamp} (ht : exec (.prTimeout l ts) s = .next t) :
    t.phase = .done ∧ t.errCode ≠ some .ioError ∧ t.errCode ≠ some .capacityError := by
  by_cases hr : s.pcount.toNat < s.cfg.maxPulses
  · obtain ⟨u, rfl, hu⟩ := exec_prTimeout_cases l ts hr ht
    have herr := errCode_of_decoded hu
    exact ⟨hu.elim DecodeOk.phase DecodeFails.phase, herr⟩
  · rw [exec_prTimeout_full l ts (Nat.not_lt.mp hr)] at ht
    cases ht

/-- PR.EDGE keeps `phase` (`40_pulse_reconstructor.md` R92). -/
theorem phase_of_exec_prEdge {s t : State} {l : Level} {ts : Stamp} (ht : exec (.prEdge l ts) s = .next t) :
    t.phase = s.phase := by
  cases prEdge_effect l ts ht with
  | edge | same => rfl
  | unit h hi => cases hi

/-- The rows of the transition table that a SAMPLE makes. -/
theorem phase_of_exec_sample {s t : State} {l : Level} {ts : Stamp} (ht : exec (.sample l ts) s = .next t) :
    (sampleOp s l ts = .prFirst l ts ∧ s.phase = .armed ∧ t.phase = .capture) ∨
    (sampleOp s l ts = .prOverflow l ts ∧ s.phase = .capture ∧ t.phase = .done ∧ t.errCode = some .capacityError) ∨
    (sampleOp s l ts = .prTimeout l ts ∧ s.phase = .capture ∧ t.phase = .done ∧ t.errCode ≠ some .ioError ∧
      t.errCode ≠ some .capacityError) ∨
    (t.phase = s.phase ∧ sampleOp s l ts ≠ .prFirst l ts ∧ sampleOp s l ts ≠ .prOverflow l ts ∧
      sampleOp s l ts ≠ .prTimeout l ts) := by
  rw [exec_sample] at ht
  rcases sampleOp_cases s l ts with ⟨-, e⟩ | ⟨hp, e⟩ | ⟨-, -, -, e⟩ | ⟨hp, -, -, e⟩ | ⟨-, -, -, e⟩ | ⟨-, -, -, -, e⟩ |
    ⟨hp, -, -, -, e⟩ <;> rw [e] at ht ⊢
  · cases ht
    exact .inr (.inr (.inr ⟨rfl, by simp⟩))
  · cases ht
    exact .inl ⟨rfl, hp, rfl⟩
  · exact .inr (.inr (.inr ⟨phase_of_exec_prEdge ht, by simp⟩))
  · cases ht
    exact .inr (.inl ⟨rfl, hp, rfl, rfl⟩)
  · cases ht
    exact .inr (.inr (.inr ⟨rfl, by simp⟩))
  · cases ht
    exact .inr (.inr (.inr ⟨rfl, by simp⟩))
  · exact .inr (.inr (.inl ⟨rfl, hp, done_of_exec_prTimeout ht⟩))

/-- Settles O46: with clock edges only a step runs one of the seven host commands, and each makes its rows of the table. -/
theorem phaseChangesOnlyByTheTable : Obligations.PhaseChangesOnlyByTheTable := by
  intro s t hclock ht
  obtain ⟨i, hi, hcases⟩ := fetch_clock hclock
  rw [step_of_fetch hi] at ht
  simp only [hi, decode_smpWord, ne_eq, Except.ok.injEq]
  rcases hcases with rfl | ⟨v, ms, rfl, hbusy⟩ | ⟨l, ts, rfl⟩ | ⟨rfl, hbusy⟩ | hdropped
  · cases ht
    exact .inl ⟨rfl, rfl⟩
  · cases ht
    exact .inr (.inl ⟨⟨v, ms, rfl⟩, busy_eq_false_iff.1 hbusy, rfl⟩)
  · rcases phase_of_exec_sample ht with ⟨e, hp, hp'⟩ | ⟨e, hp, hp', he⟩ | ⟨e, hp, hp', he⟩ | ⟨hp, hne⟩
    · exact .inr (.inr (.inl ⟨l, ts, rfl, e, hp, hp'⟩))
    · exact .inr (.inr (.inr (.inl ⟨l, ts, rfl, e, hp, hp', he⟩)))
    · exact .inr (.inr (.inr (.inr (.inl ⟨l, ts, rfl, e, hp, hp', he⟩))))
    · refine .inr (.inr (.inr (.inr (.inr (.inr ⟨hp, by simp, by simp, by simp, ?_⟩)))))
      rintro l' ts' hs
      cases hs
      exact hne
  · cases ht
    exact .inr (.inr (.inr (.inr (.inr (.inl ⟨rfl, busy_iff.1 hbusy, rfl, rfl⟩)))))
  · rw [exec_of_dropped hdropped] at ht
    cases ht
    refine .inr (.inr (.inr (.inr (.inr (.inr ⟨rfl, ?_⟩)))))
    rcases hdropped with rfl | rfl | ⟨v, ms, rfl⟩ <;> simp

/-! ## The outcome is held (R140) -/

/-- Settles O47: DONE is not busy, and it drops an `io_err`, a sample and an edge without a strobe. -/
theorem outcomeIsHeldUntilStartOrReset : Obligations.OutcomeIsHeldUntilStartOrReset := by
  intro s p rest hin hp hrst hstart
  cases hio : p.ioErr with
  | true => exact (ioErrorOutsideAnAcquisitionIsDropped s).2 p rest hin hrst hio (.inr hp)
  | false =>
    have hst : p.start = false := by simpa [hio] using hstart
    cases hsv : p.sValid with
    | true =>
      rw [step_sample hin hrst hio hst hsv]
      exact ((sampleOutsideACaptureIsDropped { s with inputs := rest } p.sLevel p.sTs).2 (.inr hp)).2
    | false => exact (edgeWithoutStrobeChangesNothing s).2 p rest hin hrst hio hst hsv

end Sys2Proof.Machine
end

section
/-! PROOF. The family of `60_exceptions.md`: the error entry, a pulse count the decode rejects, the debug read port, and
the host's retry loop. -/

namespace Sys2Proof.Machine

/-! ## The error entry (`60_exceptions.md` R156, R157) -/

/-- What an operation that raises makes of `s`: DONE with cleared results, and the configuration, the open pulse, the
parameters and the inputs as before. The pulses are left open: PR.TIMEOUT stores one before its decode raises. -/
structure ErrorEntry (s t : State) : Prop where
  phase : t.phase = .done
  hum : t.humX10 = 0
  temp : t.tempX10 = 0
  variantQ : t.variantQ = s.variantQ
  timeoutUsQ : t.timeoutUsQ = s.timeoutUsQ
  curLevel : t.curLevel = s.curLevel
  pulseStart : t.pulseStart = s.pulseStart
  cfg : t.cfg = s.cfg
  inputs : t.inputs = s.inputs

theorem ErrorEntry.withError (s : State) (k : ErrKind) : ErrorEntry s (s.withError k) :=
  ⟨rfl, rfl, rfl, rfl, rfl, rfl, rfl, rfl, rfl⟩

/-- An error of the decoders is such an entry. -/
theorem DecodeFails.errorEntry {s t : State} (h : DecodeFails s t) : ErrorEntry s t :=
  ⟨h.phase, h.hum, h.temp, h.kept.variantQ, h.kept.timeoutUsQ, h.kept.curLevel, h.kept.pulseStart, h.kept.cfg,
    h.kept.inputs⟩

/-- An error of the decode inside PR.TIMEOUT is one from the state before the final pulse was stored
(`40_pulse_reconstructor.md` R97). -/
theorem DecodeFails.errorEntry_of_closed {s u : State} (h : DecodeFails s.closed u) :
    ErrorEntry s { u with locals := .zero } :=
  have e := h.errorEntry
  ⟨e.phase, e.hum, e.temp, e.variantQ, e.timeoutUsQ, e.curLevel, e.pulseStart, e.cfg, e.inputs⟩

/-- From an error-free state an operation ends without an error, or makes an error entry: every other way an operation
can go leaves `err_code` alone or clears it. -/
theorem Effect.errorEntry {s t : State} {i : Instr} (h : Effect s i t) (hs : s.errCode = none) :
    t.errCode = none ∨ ErrorEntry s t := by
  induction h with
  | reset | start => exact .inl rfl
  | same | first | edge | hold | poll => exact .inl hs
  | ioError | overflow => exact .inr (.withError s _)
  | timeout l ts u _ hu => exact hu.imp (fun ok => ok.errCode) DecodeFails.errorEntry_of_closed
  | sample l ts _ ih => exact ih
  | unit hu _ =>
    cases hu with
    | goesOn _ _ he => exact .inl (he.trans hs)
    | fails hf => exact .inr hf.errorEntry
    | commits _ _ he => exact .inl he

/-- Settles O43: by what each operation can do; the flags by `phase` and `err_code`. -/
theorem everyErrorEntryIsAllOrNothing : Obligations.EveryErrorEntryIsAllOrNothing := by
  intro i s t k h hs ht
  have hne : t.errCode ≠ none := by simp [ht]
  have e := ((exec_effect h).errorEntry hs).resolve_left hne
  exact ⟨e.phase, e.hum, e.temp, busy_eq_false_iff.2 (.inr e.phase), isDone_iff.2 e.phase,
    valid_eq_false_iff.2 (.inr hne), e.variantQ, e.timeoutUsQ, e.curLevel, e.pulseStart, e.cfg, e.inputs⟩

/-! ## A pulse count outside 82 to 85 (`60_exceptions.md` R149) -/

/-- Settles O40: `pcount` holds the length of the train, and an illegal length ends the decode before any read. -/
theorem otherPulseCountsAreFrameLengthError : Obligations.OtherPulseCountsAreFrameLengthError := by
  intro c v ps hmax hlen
  have hp := frameState_pcount c v ps (by omega)
  have hl : legalLength (frameState c v ps).pcount = false := by
    rw [← Bool.not_eq_true, legalLength_iff]
    omega
  rw [decodeFrame_eq, frameDecode_of_illegal hl]
  rfl

/-! ## The debug read port (`60_exceptions.md` R160) -/

/-- Settles O45: the port reads the memory below `pcount` and gives no value above. -/
theorem debugPortShowsClosedPulses : Obligations.DebugPortShowsClosedPulses := by
  intro s a hf
  refine ⟨fun ha => ?_, State.pulseAt_of_le⟩
  obtain ⟨p, hp⟩ := State.Filled_pulseAt hf ha
  exact ⟨p, hp, State.get_of_pulseAt hp⟩

/-! ## The retry loop (`60_exceptions.md` R164, R165) -/

/-- A Reading ends the loop, whatever retries remain. -/
theorem retryLoop_of_ok {attempt : Nat → Except ErrKind Reading} {used : Nat} {r : Reading}
    (h : attempt used = .ok r) (remaining : Nat) : retryLoop attempt remaining used = .ok (r, used) := by
  cases remaining <;> simp [retryLoop, h]

/-- An error with no retry left is surfaced. -/
theorem retryLoop_zero_of_error {attempt : Nat → Except ErrKind Reading} {used : Nat} {k : ErrKind}
    (h : attempt used = .error k) : retryLoop attempt 0 used = .error k := by
  simp [retryLoop, h]

/-- An error with a retry left uses it. -/
theorem retryLoop_succ_of_error {attempt : Nat → Except ErrKind Reading} {used : Nat} {k : ErrKind}
    (h : attempt used = .error k) (remaining : Nat) :
    retryLoop attempt (remaining + 1) used = retryLoop attempt remaining (used + 1) := by
  simp [retryLoop, h]

/-- The first `n` attempts failing use up `n` retries and leave the loop at attempt `n`. -/
theorem readWithRetry_of_failures {attempt : Nat → Except ErrKind Reading} {n : Nat}
    (h : ∀ j, j < n → ∃ k, attempt j = .error k) (remaining : Nat) :
    readWithRetry attempt (remaining + n) = retryLoop attempt remaining n := by
  induction n generalizing remaining with
  | zero => rfl
  | succ n ih =>
    obtain ⟨k, hk⟩ := h n (Nat.lt_succ_self n)
    calc readWithRetry attempt (remaining + (n + 1))
        = readWithRetry attempt (remaining + 1 + n) := by rw [Nat.add_assoc, Nat.add_comm 1 n]
      _ = retryLoop attempt (remaining + 1) n := ih (fun j hj => h j (Nat.lt_succ_of_lt hj)) (remaining + 1)
      _ = retryLoop attempt remaining (n + 1) := retryLoop_succ_of_error hk remaining

/-- The loop looks at attempts `used` to `used + remaining` only. -/
theorem retryLoop_congr {a b : Nat → Except ErrKind Reading} (remaining used : Nat)
    (h : ∀ j, used ≤ j → j ≤ used + remaining → a j = b j) :
    retryLoop a remaining used = retryLoop b remaining used := by
  induction remaining generalizing used with
  | zero => simp [retryLoop, h used le_rfl le_rfl]
  | succ remaining ih =>
    have hrest := ih (used + 1) fun j hj hj' => h j (by omega) (by omega)
    simp [retryLoop, h used le_rfl (by omega), hrest]

/-- Settles O60: the failures before attempt `n`, or before the last one, are gone through; there the loop ends with the
Reading, or with the last error. -/
theorem retryReturnsTheFirstReadingOrTheLastError : Obligations.RetryReturnsTheFirstReadingOrTheLastError := by
  refine ⟨fun attempt n maxRetries r hfail hok hn => ?_, fun attempt maxRetries k hfail hk => ?_,
    fun a b maxRetries hab => retryLoop_congr maxRetries 0 fun j _ hj => hab j (by omega)⟩
  · obtain ⟨remaining, rfl⟩ := Nat.exists_eq_add_of_le' hn
    rw [readWithRetry_of_failures hfail, retryLoop_of_ok hok]
  · have hrun := readWithRetry_of_failures (fun j hj => hfail j (Nat.le_of_lt hj)) 0
    rw [Nat.zero_add] at hrun
    rw [hrun, retryLoop_zero_of_error hk]

end Sys2Proof.Machine
end

section
/-! PROOF. The family of `70_reset_and_hazards.md`: an idle line ends a capture (R177). -/

namespace Sys2Proof.Machine

/-- The invariants make a state in CAPTURE a capture under way. -/
theorem State.Inv.capturing {s : State} (h : s.Inv) (hp : s.phase = .capture) : s.Capturing where
  cfgLegal := h.cfgLegal
  phase := hp
  noError := h.errOnlyDone (by simp [hp])
  filled := h.filled
  room := h.captureRoom hp

/-- From a capture under way the samples left to the next check point, or more, end the capture when each is at the open
pulse's level and past the timeout: every one before the check point only counts up `poll_cnt`, the one at it stores the
final pulse, and those after it are dropped. -/
theorem State.Capturing.feed_idle_ends {s : State} (h : s.Capturing) {samples : List Sample}
    (hpoll : s.pollCnt + 1 ≤ s.cfg.pollN) (hlen : s.cfg.pollN ≤ s.pollCnt + samples.length)
    (hidle : ∀ x ∈ samples, x.level = s.curLevel ∧ s.timeoutUsQ.toNat < (x.ts - s.pulseStart).toNat) :
    ∃ t, feed samples s = .next t ∧ t.phase = .done ∧ t.pcount.toNat = s.pcount.toNat + 1 := by
  induction samples generalizing s with
  | nil =>
    rw [List.length_nil] at hlen
    omega
  | cons x rest ih =>
    obtain ⟨⟨hlevel, hexpired⟩, hrest⟩ := List.forall_mem_cons.1 hidle
    by_cases hcheck : s.pollCnt + 1 = s.cfg.pollN
    · obtain ⟨t, ht, -, hcount, hdone, -⟩ := h.timedOut x.level x.ts
      rw [List.length_append, h.pulses_length] at hcount
      rw [feed_cons (sampleOp_of_timeout h.phase hlevel hcheck hexpired) ht, feed_done rest t (.inl hdone)]
      exact ⟨t, rfl, hdone, hcount⟩
    · rw [List.length_cons] at hlen
      rw [feed_cons (sampleOp_of_hold h.phase hlevel hcheck) rfl]
      exact ih (h.withPollCnt _) (Nat.lt_of_le_of_ne hpoll hcheck) (hlen.trans_eq (Nat.add_right_comm _ _ 1)) hrest

/-- Settles O19: the count is in its range, so a check point lies within the next `POLL_N` samples. -/
theorem idleLineEndsTheCaptureWithinPollN : Obligations.IdleLineEndsTheCaptureWithinPollN :=
  fun _ _ hinv hp hlen hidle =>
    (hinv.capturing hp).feed_idle_ends hinv.pollBound (hlen ▸ Nat.le_add_left _ _) hidle

end Sys2Proof.Machine
end
